-- ==== Sys2Proof/Word.lean ====
section
/-! DEFINITION. The word types of the RYU64 core (spec/00_scope.md R7, spec/30_encoding.md R70).
Only the widths stand here: every operation on them is in a file a repair can mend. -/

namespace Sys2Proof

/-- One byte, the unit of the output buffer `OB`. -/
abbrev Byte := BitVec 8

/-- A `u64`: mantissas, interval values, the halves of a table entry (R7). -/
abbrev U64 := BitVec 64

/-- A 32-bit field: the scalar operand `C`, the decimal exponent `RE` (R7, R71). -/
abbrev Word32 := BitVec 32

/-- A 128-bit table entry or multiplier `U = hi·2^64 + lo` (R7). -/
abbrev U128 := BitVec 128

/-- A command word `CW[255:0]` (R70). -/
abbrev CommandWord := BitVec 256

end Sys2Proof
end

