-- ==== Sys2Proof/Config.lean ====
section
/-! DEFINITION. What is fixed for a build and is not state (spec/10_state.md R41): the constants of
spec/00_scope.md R6, the two parameters R8 leaves open, and the free values that stand for content
the spec leaves unspecified. An `opaque` constant has no body: no proof can use a value of it. -/

namespace Sys2Proof

/-! ### The constants of R6 -/

/-- `BIAS`, the binary64 exponent bias. -/
abbrev Config.bias : Nat := 1023
/-- `MANTISSA_BITS`, the stored mantissa width. -/
abbrev Config.mantissaBits : Nat := 52
/-- `EXP_FIELD_BITS`, the width of the biased exponent field. -/
abbrev Config.expFieldBits : Nat := 11
/-- `POW5_BITS`, the significant bits of a `Pow5Rom` entry. -/
abbrev Config.pow5EntryBits : Nat := 121
/-- `POW5_INV_BITS`, the bit offset of a `Pow5InvRom` entry. -/
abbrev Config.pow5InvBits : Nat := 122
/-- `POW5_TABLE_SIZE`: the indices of `Pow5Rom` are 0..325. -/
abbrev Config.pow5TableSize : Nat := 326
/-- `POW5_INV_TABLE_SIZE`: the indices of `Pow5InvRom` are 0..291. -/
abbrev Config.pow5InvTableSize : Nat := 292
/-- `LOG_RANGE`: the decimal logarithms take `|e| ≤ 1650`. -/
abbrev Config.logRange : Int := 1650
/-- `DECLEN_LIMIT`: `decimal_length` takes `u < 10^17`. -/
abbrev Config.declenLimit : Nat := 10 ^ 17
/-- `SHIFT_MIN`. -/
abbrev Config.shiftMin : Int := 64
/-- `SHIFT_MAX`. -/
abbrev Config.shiftMax : Int := 127
/-- `Q_TZ_POS`, the positive branch's trailing-zero bound `q ≤ 21` (R184: 21, never 22). -/
abbrev Config.qTzPos : Nat := 21
/-- `Q_TZ_NEG`, the negative branch's trailing-zero bound `q < 63`. -/
abbrev Config.qTzNeg : Nat := 63
/-- `OB_SIZE`, the bytes of the output buffer register. -/
abbrev Config.obSize : Nat := 24

/-! ### The ports a host's bus reaches, and the open parameter `HOST_MAP` -/

/-- The input ports of the command port (spec/10_state.md R39). -/
inductive CommandPort where
  | cmdValid | cmd
  deriving DecidableEq, Repr

/-- The output ports of spec/10_state.md R39. -/
inductive OutputPort where
  | cmdReady | rspValid | status | v0 | v1 | v2 | re | rf | ob | oblen
  deriving DecidableEq, Repr

/-- A port of the block that a host's bus may reach (R8: "the command and result ports"). -/
inductive HostPort where
  | input (p : CommandPort)
  | output (p : OutputPort)
  deriving DecidableEq, Repr

/-- One byte lane of a port: lane `k` is bits `8k+7:8k`. -/
structure PortByte where
  port : HostPort
  lane : Nat
  deriving DecidableEq, Repr

/-- `HOST_MAP` (R8, R53, R61, decision D32): the byte lane of the command and result ports that a host
address reaches, if any. Left open by the spec; no rule depends on it (log 7). -/
opaque Config.hostMap : Nat → Option PortByte

/-- The free values of the bits a host reads in a byte lane where the port has none (DESIGN CHOICE, log 7:
the spec leaves lanes to `HOST_MAP` and is silent on them). -/
opaque Config.laneFill : PortByte → Byte

/-! ### The open parameter `LATENCY_CYCLES` -/

/-- How many cycles more than one the command `cw` takes (R8, decision D13; log 4). -/
opaque Config.extraLatency (cw : CommandWord) : Nat

/-- `LATENCY_CYCLES` of R8: "a number ≥ 1 of clock cycles from acceptance to completion". -/
def Config.latencyCycles (cw : CommandWord) : Nat := Config.extraLatency cw + 1

/-! ### Free values: the content that has "no value" after a fault (R232, 93 I-U2; log 2).
The argument is the number of the fault entry, so that no two entries share a value. -/

opaque Config.noValueV0 : Nat → U64
opaque Config.noValueV1 : Nat → U64
opaque Config.noValueV2 : Nat → U64
opaque Config.noValueRE : Nat → Word32
/-- The free values of `RF[5:0]`, bit by bit (R261: bits 7:6 stay hardwired 0). -/
opaque Config.noValueRF : Nat → BitVec 6
/-- The free value of the output buffer's 24 bytes. -/
opaque Config.noValueOB : Nat → Vector Byte 24
opaque Config.noValueOBLEN : Nat → BitVec 5

end Sys2Proof
end

