-- ==== Sys2Proof/Syntax.lean ====
section
/-! DEFINITION. The syntax of RYU64-CMD version 1 (spec/30_encoding.md): the raw fields of a command,
the seventeen instructions, and the lines of the assembler. The width of an operand is its type, so
every term of `Instr` can be encoded; the checks on raw fields and on assembler lines stand in
WellFormed.lean. -/

namespace Sys2Proof

/-- The fields of the one format `CMD256` (R71). `RSV` is a field of its own: R73 checks it. -/
structure Command where
  op   : BitVec 8
  neg  : Bool
  acc  : Bool
  vrtz : Bool
  vmtz : Bool
  rsv  : BitVec 20
  c    : Word32
  a    : U64
  bl   : U64
  bh   : U64
  deriving DecidableEq, Repr

/-- The names of the seventeen operations (R74, R79). -/
inductive Mnemonic where
  | nop | pow5bits | pow5rd | pow5invrd
  | mulshift | pow5factor | mulpow5 | mulpow2 | declen | log10pow2 | log10pow5
  | exactint
  | interval | shortest | f2d
  | fmt | convert
  deriving DecidableEq, Repr

/-- The seventeen instructions, each with the fields it reads and no other (R74). -/
inductive Instr where
  /-- `NOP` (R100). -/
  | nop
  /-- `POW5BITS` (R101): `e` is the field `C`. -/
  | pow5bits (e : Word32)
  /-- `POW5RD` (R102): `i` is the field `C`. -/
  | pow5rd (i : Word32)
  /-- `POW5INVRD` (R103): `q` is the field `C`. -/
  | pow5invrd (q : Word32)
  /-- `MULSHIFT` (R124): `m` is `A`, `u` is `{BH, BL}`, `sh` is `C`. -/
  | mulshift (m : U64) (u : U128) (sh : Word32)
  /-- `POW5FACTOR` (R128): `v` is `A`. -/
  | pow5factor (v : U64)
  /-- `MULPOW5` (R131): `v` is `A`, `p` is `C`. -/
  | mulpow5 (v : U64) (p : Word32)
  /-- `MULPOW2` (R133): `v` is `A`, `p` is `C`. -/
  | mulpow2 (v : U64) (p : Word32)
  /-- `DECLEN` (R137): `u` is `A`. -/
  | declen (u : U64)
  /-- `LOG10POW2` (R142): `e` is `C`. -/
  | log10pow2 (e : Word32)
  /-- `LOG10POW5` (R146): `e` is `C`. -/
  | log10pow5 (e : Word32)
  /-- `EXACTINT` (R161): `mant` is `A`, `exp` is `C`. -/
  | exactint (mant : U64) (exp : Word32)
  /-- `INTERVAL` (R181): `mant` is `A`, `exp` is `C`. -/
  | interval (mant : U64) (exp : Word32)
  /-- `SHORTEST` (R196): `vr` is `A`, `vp` is `BL`, `vm` is `BH`, `e10` is `C`, and the flags. -/
  | shortest (vr vp vm : U64) (e10 : Word32) (acc vrtz vmtz : Bool)
  /-- `F2D` (R198): `mant` is `A`, `exp` is `C`. -/
  | f2d (mant : U64) (exp : Word32)
  /-- `FMT` (R217): `m` is `A`, `e` is `C`, and the flag `NEG`. -/
  | fmt (m : U64) (e : Word32) (neg : Bool)
  /-- `CONVERT` (R220): `mant` is `A`, `exp` is `C`, and the flag `NEG`. -/
  | convert (mant : U64) (exp : Word32) (neg : Bool)
  deriving DecidableEq, Repr

/-- The name of an instruction's operation. -/
def Instr.mnemonic : Instr → Mnemonic
  | .nop => .nop
  | .pow5bits _ => .pow5bits
  | .pow5rd _ => .pow5rd
  | .pow5invrd _ => .pow5invrd
  | .mulshift _ _ _ => .mulshift
  | .pow5factor _ => .pow5factor
  | .mulpow5 _ _ => .mulpow5
  | .mulpow2 _ _ => .mulpow2
  | .declen _ => .declen
  | .log10pow2 _ => .log10pow2
  | .log10pow5 _ => .log10pow5
  | .exactint _ _ => .exactint
  | .interval _ _ => .interval
  | .shortest _ _ _ _ _ _ _ => .shortest
  | .f2d _ _ => .f2d
  | .fmt _ _ _ => .fmt
  | .convert _ _ _ => .convert

/-! ### Assembler lines (R83) -/

/-- The keys of `KEY=VALUE` operands. -/
inductive AsmKey where
  | a | b | bl | bh | c
  deriving DecidableEq, Repr

/-- The bare flag words. -/
inductive AsmFlag where
  | neg | acc | vrtz | vmtz
  deriving DecidableEq, Repr

/-- One operand of an assembler line. -/
inductive AsmOperand where
  | key (k : AsmKey) (v : Int)
  | flag (f : AsmFlag)
  deriving DecidableEq, Repr

/-- One assembler line: a mnemonic and its operands. -/
structure AsmLine where
  mnemonic : Mnemonic
  operands : List AsmOperand
  deriving DecidableEq, Repr

end Sys2Proof
end

