-- ==== Sys2Proof/WellFormed.lean ====
section
/-! DEFINITION. The checks on raw syntax: which commands are legal (spec/30_encoding.md R73, R79, R80)
and which assembler lines an assembler accepts (R83). A term of `Instr` needs no check: each operand
has the width of its field by its type. -/

namespace Sys2Proof

/-- The seventeen defined `OP` values (R74, R79). -/
def definedOps : List (BitVec 8) :=
  [0x00, 0x01, 0x02, 0x03] ++
  [0x10, 0x11, 0x12, 0x13, 0x14, 0x15, 0x16] ++
  [0x20] ++
  [0x30, 0x31, 0x32] ++
  [0x40, 0x41]

/-- `OP` is one of the defined values (R79, R80). -/
def Command.opDefined (c : Command) : Bool := definedOps.contains c.op

/-- `RSV` must be zero in every command (R73). -/
def Command.rsvZero (c : Command) : Bool := c.rsv == 0

/-- A command that passes both decode checks of R236. -/
def Command.wellFormed (c : Command) : Bool := c.opDefined && c.rsvZero

/-! ### Assembler lines (R83) -/

/-- The operations that read `C` as two's complement (R76). -/
def Mnemonic.signedC : Mnemonic → Bool
  | .mulshift | .log10pow2 | .log10pow5 | .shortest | .fmt => true
  | .nop | .pow5bits | .pow5rd | .pow5invrd | .pow5factor | .mulpow5 | .mulpow2 | .declen
  | .exactint | .interval | .f2d | .convert => false

/-- The width of the field a key sets (R71, R77). -/
def AsmKey.width : AsmKey → Nat
  | .a | .bl | .bh => 64
  | .b => 128
  | .c => 32

/-- A value fits the field of its key (R83). Only the `C` of a signed operation may be negative, and
then it is at least `-2^31`; log 13 on the upper end. -/
def AsmOperand.fits (m : Mnemonic) : AsmOperand → Bool
  | .flag _ => true
  | .key k v =>
    decide (v < 2 ^ k.width) &&
      (decide (0 ≤ v) || (k == .c && m.signedC && decide (-2 ^ 31 ≤ v)))

/-- The fields a key sets: `B=` sets `BH` and `BL` together (R83). -/
def AsmKey.fieldsSet : AsmKey → List AsmKey
  | .a => [.a]
  | .b => [.bl, .bh]
  | .bl => [.bl]
  | .bh => [.bh]
  | .c => [.c]

/-- The fields an operand sets, as keys and flags. -/
def AsmOperand.sets : AsmOperand → List (AsmKey ⊕ AsmFlag)
  | .key k _ => k.fieldsSet.map .inl
  | .flag f => [.inr f]

/-- No field is written twice (DESIGN CHOICE, log 13: R83 does not say what a second value does). -/
def AsmLine.noFieldTwice (l : AsmLine) : Bool :=
  decide ((l.operands.flatMap AsmOperand.sets).Nodup)

/-- The lines an assembler accepts. -/
def AsmLine.wellFormed (l : AsmLine) : Bool :=
  l.operands.all (AsmOperand.fits l.mnemonic) && l.noFieldTwice

end Sys2Proof
end

