-- ==== Sys2Proof/Decode.lean ====
section
/-! DEFINITION. Decoding and encoding of command words (spec/30_encoding.md). A command is one
256-bit word, so a decoder never has to find a length (R70), and no byte order enters (spec/20_memory.md
R53, R54). -/

namespace Sys2Proof

/-! ### The fields of a command word (R71) -/

/-- The fields of `CW[255:0]`. -/
def Command.ofWord (w : CommandWord) : Command where
  op   := w.extractLsb' 0 8
  neg  := w.getLsbD 8
  acc  := w.getLsbD 9
  vrtz := w.getLsbD 10
  vmtz := w.getLsbD 11
  rsv  := w.extractLsb' 12 20
  c    := w.extractLsb' 32 32
  a    := w.extractLsb' 64 64
  bl   := w.extractLsb' 128 64
  bh   := w.extractLsb' 192 64

/-- The control word `CW[31:0]`, its most significant field first (R9, R71). -/
def Command.controlWord (c : Command) : Word32 :=
  c.rsv ++ BitVec.ofBool c.vmtz ++ BitVec.ofBool c.vrtz ++ BitVec.ofBool c.acc ++ BitVec.ofBool c.neg ++ c.op

/-- The command word with these fields. -/
def Command.toWord (c : Command) : CommandWord :=
  c.bh ++ c.bl ++ c.a ++ c.c ++ c.controlWord

/-! ### Operation codes (R74, R79) -/

/-- The `OP` value of an operation. -/
def Mnemonic.opcode : Mnemonic → BitVec 8
  | .nop        => 0x00
  | .pow5bits   => 0x01
  | .pow5rd     => 0x02
  | .pow5invrd  => 0x03
  | .mulshift   => 0x10
  | .pow5factor => 0x11
  | .mulpow5    => 0x12
  | .mulpow2    => 0x13
  | .declen     => 0x14
  | .log10pow2  => 0x15
  | .log10pow5  => 0x16
  | .exactint   => 0x20
  | .interval   => 0x30
  | .shortest   => 0x31
  | .f2d        => 0x32
  | .fmt        => 0x40
  | .convert    => 0x41

/-- The operation an `OP` value selects; the other 239 values select none (R72, R80). -/
def Mnemonic.ofOpcode (op : BitVec 8) : Option Mnemonic :=
  match op.toNat with
  | 0x00 => some .nop
  | 0x01 => some .pow5bits
  | 0x02 => some .pow5rd
  | 0x03 => some .pow5invrd
  | 0x10 => some .mulshift
  | 0x11 => some .pow5factor
  | 0x12 => some .mulpow5
  | 0x13 => some .mulpow2
  | 0x14 => some .declen
  | 0x15 => some .log10pow2
  | 0x16 => some .log10pow5
  | 0x20 => some .exactint
  | 0x30 => some .interval
  | 0x31 => some .shortest
  | 0x32 => some .f2d
  | 0x40 => some .fmt
  | 0x41 => some .convert
  | _    => none

/-- `OP` of an instruction, the value `STATUS.FOP` records when it faults. -/
def Instr.opcode (i : Instr) : BitVec 8 := i.mnemonic.opcode

/-! ### The decoder -/

/-- Why a command word is no instruction (R236). -/
inductive DecodeReject where
  /-- `OP` is not defined (R80). -/
  | illegalOp
  /-- `OP` is defined and `RSV ≠ 0` (R73). -/
  | reservedBits
  deriving DecidableEq, Repr

/-- The operands each operation reads (R74, R77, R78); every other field is ignored. -/
def Command.instr (c : Command) : Mnemonic → Instr
  | .nop        => .nop
  | .pow5bits   => .pow5bits c.c
  | .pow5rd     => .pow5rd c.c
  | .pow5invrd  => .pow5invrd c.c
  | .mulshift   => .mulshift c.a (c.bh ++ c.bl) c.c
  | .pow5factor => .pow5factor c.a
  | .mulpow5    => .mulpow5 c.a c.c
  | .mulpow2    => .mulpow2 c.a c.c
  | .declen     => .declen c.a
  | .log10pow2  => .log10pow2 c.c
  | .log10pow5  => .log10pow5 c.c
  | .exactint   => .exactint c.a c.c
  | .interval   => .interval c.a c.c
  | .shortest   => .shortest c.a c.bl c.bh c.c c.acc c.vrtz c.vmtz
  | .f2d        => .f2d c.a c.c
  | .fmt        => .fmt c.a c.c c.neg
  | .convert    => .convert c.a c.c c.neg

/-- The decode checks in their order (R236): an illegal `OP` is reported even when `RSV ≠ 0`. -/
def Command.decode (c : Command) : Except DecodeReject Instr :=
  match Mnemonic.ofOpcode c.op with
  | none => .error .illegalOp
  | some m => if c.rsv = 0 then .ok (c.instr m) else .error .reservedBits

/-- The decoder, total on command words. -/
def decode (w : CommandWord) : Except DecodeReject Instr := (Command.ofWord w).decode

/-! ### The encoder: a field the operation does not read is 0 (R83 "A field not written is 0") -/

/-- A command with an operation and every other field 0. -/
def Command.bare (m : Mnemonic) : Command :=
  { op := m.opcode, neg := false, acc := false, vrtz := false, vmtz := false,
    rsv := 0, c := 0, a := 0, bl := 0, bh := 0 }

/-- The fields of an instruction. -/
def Instr.toCommand : Instr → Command
  | .nop => Command.bare .nop
  | .pow5bits e => { Command.bare .pow5bits with c := e }
  | .pow5rd i => { Command.bare .pow5rd with c := i }
  | .pow5invrd q => { Command.bare .pow5invrd with c := q }
  | .mulshift m u sh =>
    { Command.bare .mulshift with a := m, bl := u.extractLsb' 0 64, bh := u.extractLsb' 64 64, c := sh }
  | .pow5factor v => { Command.bare .pow5factor with a := v }
  | .mulpow5 v p => { Command.bare .mulpow5 with a := v, c := p }
  | .mulpow2 v p => { Command.bare .mulpow2 with a := v, c := p }
  | .declen u => { Command.bare .declen with a := u }
  | .log10pow2 e => { Command.bare .log10pow2 with c := e }
  | .log10pow5 e => { Command.bare .log10pow5 with c := e }
  | .exactint mant exp => { Command.bare .exactint with a := mant, c := exp }
  | .interval mant exp => { Command.bare .interval with a := mant, c := exp }
  | .shortest vr vp vm e10 acc vrtz vmtz =>
    { Command.bare .shortest with a := vr, bl := vp, bh := vm, c := e10, acc := acc, vrtz := vrtz, vmtz := vmtz }
  | .f2d mant exp => { Command.bare .f2d with a := mant, c := exp }
  | .fmt m e neg => { Command.bare .fmt with a := m, c := e, neg := neg }
  | .convert mant exp neg => { Command.bare .convert with a := mant, c := exp, neg := neg }

/-- The command word of an instruction. -/
def encode (i : Instr) : CommandWord := i.toCommand.toWord

/-! ### The words of spec/opcode_table.json -/

/-- The command word of a table row: its low `nbits` bits are `w`, every other bit is 0. -/
def tableWord (nbits w : Nat) : CommandWord := BitVec.ofNat 256 (w % 2 ^ nbits)

/-- What the decoder reads from a word of the opcode table. -/
def decodeTableWord (nbits w : Nat) : Option Instr := (decode (tableWord nbits w)).toOption

end Sys2Proof
end

