-- ==== Sys2Proof/Machine/State.lean ====
section
/-! DEFINITION. The state of the RYU64 core as plain data (spec/10_state.md), the reasons a step could
stop, and the state right after reset (spec/70_reset_and_hazards.md R260, R261). -/

namespace Sys2Proof.Machine

/-- The causes of `STATUS.CAUSE` (spec/60_exceptions.md R231); the codes 12 to 15 are never written,
so they have no constructor. -/
inductive Cause where
  /-- Code 0: no fault has occurred since reset. -/
  | none
  /-- Code 1, any command whose `OP` is not defined. -/
  | illegalOp
  /-- Code 2, a defined `OP` with `RSV ≠ 0`. -/
  | reservedBits
  /-- Code 3, `MULSHIFT`. -/
  | shiftRange
  /-- Code 4, `POW5FACTOR`, `MULPOW5`. -/
  | domainZero
  /-- Code 5, `DECLEN`. -/
  | declenRange
  /-- Code 6, `LOG10POW2`, `LOG10POW5`. -/
  | logRange
  /-- Code 7, `POW5BITS`, `POW5RD`, `POW5INVRD`. -/
  | indexRange
  /-- Code 8, `EXACTINT`, `INTERVAL`, `F2D`, `CONVERT`. -/
  | inputDomain
  /-- Code 9, `SHORTEST`, `FMT`. -/
  | expRange
  /-- Code 10, `FMT`. -/
  | mantRange
  /-- Code 11, `SHORTEST`. -/
  | nontermination
  deriving DecidableEq, Repr

/-- The hidden unit state (R29). -/
inductive UnitMode where
  | ready | faulted
  deriving DecidableEq, Repr

/-- The fields of `STATUS` (R27). Bits 3:2 are hardwired 0 and have no storage: `Status.word` puts
them back. -/
structure Status where
  fault  : Bool := false
  rvalid : Bool := false
  cause  : Cause := .none
  fop    : BitVec 8 := 0
  deriving DecidableEq, Repr

/-- The fields of `RF` (R24). Bits 7:6 are hardwired 0 and have no storage: `ResultFlags.word` puts
them back. -/
structure ResultFlags where
  bool    : Bool := false
  exact   : Bool := false
  accept  : Bool := false
  vrTz    : Bool := false
  vmTz    : Bool := false
  general : Bool := false
  deriving DecidableEq, Repr

/-- The accepted command that has not completed yet, and the rising edges left until it does (R40). -/
structure InFlight where
  cmd       : CommandWord
  remaining : Nat
  deriving DecidableEq, Repr

/-- The levels of the host's input pins at one rising edge of `clk` (R39). -/
structure PortInput where
  rst      : Bool := false
  cmdValid : Bool := false
  cmd      : CommandWord := 0
  deriving DecidableEq, Repr

/-- The machine. Field by field in INVENTORY.md, with the rule that names it. -/
structure State where
  /-- `V0` (R22). -/
  v0 : U64
  /-- `V1` (R22). -/
  v1 : U64
  /-- `V2` (R22). -/
  v2 : U64
  /-- `RE`, two's complement (R23). -/
  re : Word32
  /-- `RF` (R24). -/
  rf : ResultFlags
  /-- `OB[0..23]`, in emission order (R25; 20_memory.md R56). -/
  ob : Vector Byte 24
  /-- `OBLEN` (R25). -/
  oblen : BitVec 5
  /-- `STATUS` (R27). -/
  status : Status
  /-- `MODE` (R29). -/
  mode : UnitMode
  /-- The command in flight, at most one (R40). -/
  inFlight : Option InFlight
  /-- The level of the port `cmd_ready` (R39, R40). -/
  cmdReady : Bool
  /-- The level of the port `rsp_valid` (R39, R40). -/
  rspValid : Bool
  /-- The host's inputs at the coming rising edges, the next one first (log 5). -/
  host : List PortInput
  /-- The number of the next fault entry: the model's own counter for free values (log 2). -/
  noValueTick : Nat
  deriving DecidableEq, Repr

/-- The faults that would STOP the machine. There is none: the spec's only exception is the fault of
60_exceptions.md R230, its entry (R232) and all that follows it (R233) are described, and both are
NEXT states of the model. -/
inductive Fault
  deriving DecidableEq, Repr

/-- Why an instruction has no meaning. -/
inductive Refusal where
  /-- Raised by `exec` alone, for an instruction with no meaning yet. Safe. No arm raises it. -/
  | notModelled (mnemonic : String)
  deriving DecidableEq, Repr

/-- The machine in the first cycle after `rst` fell (R260, R261). `V0` to `OBLEN` have no value there:
their zeros are a DESIGN CHOICE (log 1), unsafe. The host's inputs are those of an idle host (log 5). -/
def State.reset : State where
  v0 := 0
  v1 := 0
  v2 := 0
  re := 0
  rf := {}
  ob := Vector.replicate 24 0
  oblen := 0
  status := {}
  mode := .ready
  inFlight := .none
  cmdReady := true
  rspValid := false
  host := []
  noValueTick := 0

end Sys2Proof.Machine
end

