-- ==== Sys2Proof/Machine/Operands.lean ====
section
/-! DEFINITION. How operands are read and how results are placed in fields (spec/00_scope.md R7, R10;
spec/30_encoding.md R76, R77, R78). The pure functions of the block work on exact `Nat` and `Int`;
these readings are the only way in and out of bit fields. -/

namespace Sys2Proof.Machine

/-- `u32(C)` (R10, R76). -/
def u32 (c : Word32) : Nat := c.toNat

/-- `s32(C)`: two's complement (R10, R76). -/
def s32 (c : Word32) : Int := if c.getLsbD 31 then (c.toNat : Int) - 2 ^ 32 else c.toNat

/-- A `u64` operand: `A`, `BL` or `BH` (R7). -/
def u64 (a : U64) : Nat := a.toNat

/-- The 128-bit operand `B` (R7, R77). -/
def u128 (b : U128) : Nat := b.toNat

/-- `zext_64(v)` for `0 ≤ v < 2^64`, and `trunc_64(v)` for any `v ≥ 0` (R10). -/
def zext64 (v : Nat) : U64 := BitVec.ofNat 64 v

/-- `sext_64(v)`: `v mod 2^64` (R10). -/
def sext64 (v : Int) : U64 := BitVec.ofInt 64 v

/-- `sext_32(v)`: `v mod 2^32` (R10). -/
def sext32 (v : Int) : Word32 := BitVec.ofInt 32 v

/-- `trunc_64(v)` as an integer (R10). -/
def trunc64 (v : Nat) : Nat := v % 2 ^ 64

/-- `v` fits an `i32` (R7, R194). -/
def fitsI32 (v : Int) : Bool := decide (-2 ^ 31 ≤ v) && decide (v ≤ 2 ^ 31 - 1)

/-- `U[63:0]` of a table entry (R53, R102). -/
def lowHalf (u : Nat) : U64 := BitVec.ofNat 64 u

/-- `U[127:64]` of a table entry (R53, R102). -/
def highHalf (u : Nat) : U64 := BitVec.ofNat 64 (u / 2 ^ 64)

/-- `[c]` of R11. -/
def iverson (c : Bool) : Nat := if c then 1 else 0

end Sys2Proof.Machine
end

