-- ==== Sys2Proof/Machine/Flags.lean ====
section
/-! DEFINITION. The flag register `RF` and the status register `STATUS` (spec/10_state.md R24, R27,
R28): their views as words, the codes of the causes (spec/60_exceptions.md R231), and the flags each
family writes. A flag a command does not produce is written 0 (R24, R26). -/

namespace Sys2Proof.Machine

/-! ### The words a host reads -/

/-- `RF[7:0]`; bits 7:6 are hardwired 0 (R24). -/
def ResultFlags.word (f : ResultFlags) : BitVec 8 :=
  0#2 ++ BitVec.ofBool f.general ++ BitVec.ofBool f.vmTz ++ BitVec.ofBool f.vrTz
    ++ BitVec.ofBool f.accept ++ BitVec.ofBool f.exact ++ BitVec.ofBool f.bool

/-- The code of a cause (R231). -/
def Cause.code : Cause → BitVec 4
  | .none           => 0
  | .illegalOp      => 1
  | .reservedBits   => 2
  | .shiftRange     => 3
  | .domainZero     => 4
  | .declenRange    => 5
  | .logRange       => 6
  | .indexRange     => 7
  | .inputDomain    => 8
  | .expRange       => 9
  | .mantRange      => 10
  | .nontermination => 11

/-- `STATUS[15:0]`; bits 3:2 are hardwired 0 (R27). -/
def Status.word (st : Status) : BitVec 16 :=
  st.fop ++ st.cause.code ++ 0#2 ++ BitVec.ofBool st.rvalid ++ BitVec.ofBool st.fault

/-! ### The flags of a completed command -/

/-- `RF <- 0`. -/
def noFlags : ResultFlags := {}

/-- `RF.BOOL` alone, of `MULPOW5` and `MULPOW2` (R131, R133). -/
def boolFlag (b : Bool) : ResultFlags := { bool := b }

/-- `RF.EXACT` alone, of `EXACTINT` (R161). -/
def exactFlag (b : Bool) : ResultFlags := { exact := b }

/-- `RF.ACCEPT`, `RF.VR_TZ` and `RF.VM_TZ`, of `INTERVAL` (R181). -/
def intervalFlags (accept vrTz vmTz : Bool) : ResultFlags :=
  { accept := accept, vrTz := vrTz, vmTz := vmTz }

/-- `RF.GENERAL` alone, of `SHORTEST` and `F2D` (R196, R198). -/
def generalFlag (b : Bool) : ResultFlags := { general := b }

/-- `RF.EXACT` and `RF.GENERAL`, of `CONVERT` (R220). -/
def convertFlags (exact general : Bool) : ResultFlags := { exact := exact, general := general }

/-- `RF` with six given values in bits 5:0: the free content after a fault (R232). -/
def flagsOfBits (b : BitVec 6) : ResultFlags :=
  { bool := b.getLsbD 0, exact := b.getLsbD 1, accept := b.getLsbD 2,
    vrTz := b.getLsbD 3, vmTz := b.getLsbD 4, general := b.getLsbD 5 }

/-! ### The changes of `STATUS`, the only ones there are (R28) -/

/-- A completed command sets `RVALID` and changes nothing else (R26, R28). -/
def Status.completed (st : Status) : Status := { st with rvalid := true }

/-- `STATUS` after fault entry (R232). -/
def Status.faulted (c : Cause) (op : BitVec 8) : Status :=
  { fault := true, rvalid := false, cause := c, fop := op }

/-- `STATUS` after reset (R260). -/
def Status.cleared : Status := {}

end Sys2Proof.Machine
end

