-- ==== Sys2Proof/Machine/Ops.lean ====
section
/-! DEFINITION. The operations every command shares: completing with results (spec/10_state.md R26),
taking a fault (spec/60_exceptions.md R232), the discarding of commands in `FAULTED` (R233), and reset
(spec/70_reset_and_hazards.md R260), the only way out of `FAULTED`: no return instruction exists (R240). -/

namespace Sys2Proof.Machine

/-- What a completed command writes. A register it does not produce is 0, and `bytes` is empty unless
it formats (R26). -/
structure Results where
  v0    : U64 := 0
  v1    : U64 := 0
  v2    : U64 := 0
  re    : Word32 := 0
  rf    : ResultFlags := noFlags
  bytes : List Byte := []
  deriving DecidableEq, Repr

/-- `OB[k] <- bytes[k] if k < len(bytes) else 0x00` for `k` in 0..23 (R217). -/
def outputBuffer (bytes : List Byte) : Vector Byte 24 :=
  ⟨((List.range 24).map fun k => bytes.getD k 0).toArray, by simp⟩

/-- `OBLEN <- len(bytes)` (R217). -/
def outputLength (bytes : List Byte) : BitVec 5 := BitVec.ofNat 5 bytes.length

/-- Completion (R26): every result register is written and `RVALID` is set. -/
def writeResults (r : Results) (s : State) : State :=
  { s with
    v0 := r.v0, v1 := r.v1, v2 := r.v2, re := r.re, rf := r.rf,
    ob := outputBuffer r.bytes, oblen := outputLength r.bytes,
    status := s.status.completed }

/-- The result registers with "no value": free values (R232, 93 I-U2; log 2). -/
def forgetResults (s : State) : State :=
  { s with
    v0 := Config.noValueV0 s.noValueTick
    v1 := Config.noValueV1 s.noValueTick
    v2 := Config.noValueV2 s.noValueTick
    re := Config.noValueRE s.noValueTick
    rf := flagsOfBits (Config.noValueRF s.noValueTick)
    ob := Config.noValueOB s.noValueTick
    oblen := Config.noValueOBLEN s.noValueTick
    noValueTick := s.noValueTick + 1 }

/-- Fault entry: `raise Fault(c)` of a command whose `OP` field is `op` (R232). Nothing else is saved,
and no control is transferred (R240). -/
def faultEntry (c : Cause) (op : BitVec 8) (s : State) : State :=
  { forgetResults s with status := Status.faulted c op, mode := .faulted }

/-- The effect of a command in the unit state of `s`: in `FAULTED` it is discarded with no check and
no effect (R233, R241); in `READY` it completes with its results or faults with the one cause its
checks report (R235). -/
def finish (op : BitVec 8) (r : Except Cause Results) (s : State) : Host.Outcome State Fault Refusal :=
  match s.mode with
  | .faulted => .next s
  | .ready =>
    match r with
    | .ok res => .next (writeResults res s)
    | .error c => .next (faultEntry c op s)

/-- Reset, at a rising edge with `rst = 1` (R260). The command in flight is abandoned; the result
registers keep their content, which has no value because `RVALID = 0`. -/
def applyReset (s : State) : State :=
  { s with
    status := Status.cleared, mode := .ready, inFlight := none, cmdReady := false, rspValid := false }

end Sys2Proof.Machine
end

