-- ==== Sys2Proof/Machine/Rom.lean ====
section
/-! DEFINITION. The two power-of-five ROMs and their shift function (spec/10_state.md R30 to R36). Their
contents are constants of the build given by formula, not state (R41): nothing writes them (R36). -/

namespace Sys2Proof.Machine

/-- `⌈a / b⌉` for `b > 0` (R11). -/
def ceilDiv (a b : Nat) : Nat := (a + b - 1) / b

/-- `pow5_bits(i) = ⌈i · log2(5)⌉` (R31): 0 at 0, and the bit length of `5^i` from 1 on. -/
def pow5Bits (i : Nat) : Nat := if i = 0 then 0 else Nat.log2 (5 ^ i) + 1

/-- `Pow5Rom[i] = ⌊5^i · 2^(POW5_BITS − pow5_bits(i))⌋` (R32); the exponent may be negative. -/
def pow5Rom (i : Nat) : Nat :=
  if pow5Bits i ≤ Config.pow5EntryBits then 5 ^ i * 2 ^ (Config.pow5EntryBits - pow5Bits i)
  else 5 ^ i / 2 ^ (pow5Bits i - Config.pow5EntryBits)

/-- `Pow5InvRom[q] = ⌈2^(pow5_bits(q) − 1 + POW5_INV_BITS) / 5^q⌉` (R34). At `q = 0` the exponent is
`0 − 1 + 122 = 121`. -/
def pow5InvRom (q : Nat) : Nat := ceilDiv (2 ^ (pow5Bits q + Config.pow5InvBits - 1)) (5 ^ q)

end Sys2Proof.Machine
end

