-- ==== Sys2Proof/Machine/Primitives.lean ====
section
/-! DEFINITION. The fixed-precision primitives (spec/41_primitives.md): each first as a pure function
on exact integers, then as the command that exposes it. The functions are total here; outside the
domain the spec gives one only its command is defined, and the command faults (log 9). -/

namespace Sys2Proof.Machine

/-! ### mulShift: the 64×128-bit multiply-shift unit -/

/-- `mulShift(m, U, s) = trunc_64(⌊(m · U) / 2^s⌋)` (R120). -/
def mulShift (m u s : Nat) : Nat := trunc64 (m * u / 2 ^ s)

/-- The middle sum of the two lanes, `P_hi[63:0] + P_lo[127:64]` (R121). -/
def mulShiftMid (m u : Nat) : Nat := m * (u / 2 ^ 64) % 2 ^ 64 + m * (u % 2 ^ 64) / 2 ^ 64

/-- `sum` of R121: the high half of `P_hi` with the carry of the middle sum, above its low 64 bits. -/
def mulShiftSum (m u : Nat) : Nat :=
  (m * (u / 2 ^ 64) / 2 ^ 64 + mulShiftMid m u / 2 ^ 64) * 2 ^ 64 + mulShiftMid m u % 2 ^ 64

/-- `mulShift` by the two-lane structure (R121). The model computes with R120. -/
def mulShiftLanes (m u s : Nat) : Nat := trunc64 (mulShiftSum m u / 2 ^ (s - 64))

/-! ### Divisibility detectors -/

/-- How often 5 divides `v`, up to `fuel` times. -/
def pow5FactorAux : Nat → Nat → Nat
  | 0, _ => 0
  | fuel + 1, v => if v % 5 = 0 then pow5FactorAux fuel (v / 5) + 1 else 0

/-- `pow5_factor(v)` for a `u64` `v ≠ 0` (R126): its value is at most 27. It is undefined at 0 (R127):
no command and no internal use reads it there (log 9). -/
def pow5Factor (v : Nat) : Nat := pow5FactorAux 27 v

/-- `multiple_of_pow5(v, p) = [pow5_factor(v) ≥ p]` for `v ≠ 0` (R130). -/
def multipleOfPow5 (v p : Nat) : Bool := decide (p ≤ pow5Factor v)

/-- How often 2 divides `v`, up to `fuel` times. -/
def tzAux : Nat → Nat → Nat
  | 0, _ => 0
  | fuel + 1, v => if v % 2 = 0 then tzAux fuel (v / 2) + 1 else 0

/-- `tz(v)`, the trailing zero bits of a `u64`; `tz(0) = 64` (R13). -/
def tz (v : Nat) : Nat := tzAux 64 v

/-- `multiple_of_pow2(v, p) = [tz(v) ≥ p]` (R132). -/
def multipleOfPow2 (v p : Nat) : Bool := decide (p ≤ tz v)

/-! ### Decimal helpers -/

/-- The decimal digits of `u` put in front of `acc`, the most significant first; `fuel` bounds their
number. -/
def decDigitsAux : Nat → Nat → List Nat → List Nat
  | 0, _, acc => acc
  | fuel + 1, u, acc => if u < 10 then u :: acc else decDigitsAux fuel (u / 10) (u % 10 :: acc)

/-- The decimal digits of a `u64`, the most significant first (a `u64` has at most 20). -/
def decDigits (u : Nat) : List Nat := decDigitsAux 20 u []

/-- `digits(u)`, with `digits(0) = 1` (R13), and so `decimal_length(u)` for `u < 10^17` (R136). -/
def decimalLength (u : Nat) : Nat := (decDigits u).length

/-- The source's cascade of comparisons with `10^1 .. 10^16` (R138). The model computes with R136. -/
def decimalLengthCascade (u : Nat) : Nat :=
  1 + ((List.range 16).filter fun k => decide (10 ^ (k + 1) ≤ u)).length

/-- The greatest `q ≤ n` with `p q`, or 0 if there is none. -/
def greatestUpTo (p : Nat → Bool) : Nat → Nat
  | 0 => 0
  | n + 1 => if p (n + 1) then n + 1 else greatestUpTo p n

/-- `log10_pow2(e)` for `e ≥ 0`: the greatest `q` with `10^q ≤ 2^e` (R140). -/
def log10Pow2Nat (e : Nat) : Nat := greatestUpTo (fun q => decide (10 ^ q ≤ 2 ^ e)) e

/-- `log10_pow2(e) = ⌊e · log10(2)⌋` (R140). -/
def log10Pow2 (e : Int) : Int :=
  if 0 ≤ e then log10Pow2Nat e.toNat else -((log10Pow2Nat (-e).toNat : Int) + 1)

/-- `log10_pow5(e)` for `e ≥ 0`: the greatest `q` with `10^q ≤ 5^e` (R145). -/
def log10Pow5Nat (e : Nat) : Nat := greatestUpTo (fun q => decide (10 ^ q ≤ 5 ^ e)) e

/-- `log10_pow5(e) = ⌊e · log10(5)⌋` (R145). -/
def log10Pow5 (e : Int) : Int :=
  if 0 ≤ e then log10Pow5Nat e.toNat else -((log10Pow5Nat (-e).toNat : Int) + 1)

/-! ### The commands' checks and results -/

/-- The results of `MULSHIFT` (R124). -/
def mulshiftResult (m u : Nat) (sh : Int) : Except Cause Results :=
  if sh < Config.shiftMin ∨ sh > Config.shiftMax then .error .shiftRange
  else .ok { v0 := zext64 (mulShift m u sh.toNat) }

/-- The results of `POW5FACTOR` (R128). -/
def pow5factorResult (v : Nat) : Except Cause Results :=
  if v = 0 then .error .domainZero else .ok { v0 := zext64 (pow5Factor v) }

/-- The results of `MULPOW5` (R131): `v = 0` faults for every `p`. -/
def mulpow5Result (v p : Nat) : Except Cause Results :=
  if v = 0 then .error .domainZero else .ok { rf := boolFlag (multipleOfPow5 v p) }

/-- The results of `MULPOW2` (R133): no check beyond decode. -/
def mulpow2Result (v p : Nat) : Except Cause Results :=
  .ok { rf := boolFlag (multipleOfPow2 v p) }

/-- The results of `DECLEN` (R137). -/
def declenResult (u : Nat) : Except Cause Results :=
  if u ≥ Config.declenLimit then .error .declenRange else .ok { v0 := zext64 (decimalLength u) }

/-- `|e| > 1650`, the check of both logarithms (R142, R146). -/
def outsideLogRange (e : Int) : Bool := decide (e < -Config.logRange) || decide (e > Config.logRange)

/-- The results of `LOG10POW2` (R142). -/
def log10pow2Result (e : Int) : Except Cause Results :=
  if outsideLogRange e then .error .logRange else .ok { v0 := sext64 (log10Pow2 e) }

/-- The results of `LOG10POW5` (R146). -/
def log10pow5Result (e : Int) : Except Cause Results :=
  if outsideLogRange e then .error .logRange else .ok { v0 := sext64 (log10Pow5 e) }

/-! ### The commands -/

/-- `MULSHIFT` (R124). -/
def execMulshift (m : U64) (u : U128) (sh : Word32) (s : State) : Host.Outcome State Fault Refusal :=
  finish (Mnemonic.opcode .mulshift) (mulshiftResult (u64 m) (u128 u) (s32 sh)) s

/-- `POW5FACTOR` (R128). -/
def execPow5factor (v : U64) (s : State) : Host.Outcome State Fault Refusal :=
  finish (Mnemonic.opcode .pow5factor) (pow5factorResult (u64 v)) s

/-- `MULPOW5` (R131). -/
def execMulpow5 (v : U64) (p : Word32) (s : State) : Host.Outcome State Fault Refusal :=
  finish (Mnemonic.opcode .mulpow5) (mulpow5Result (u64 v) (u32 p)) s

/-- `MULPOW2` (R133). -/
def execMulpow2 (v : U64) (p : Word32) (s : State) : Host.Outcome State Fault Refusal :=
  finish (Mnemonic.opcode .mulpow2) (mulpow2Result (u64 v) (u32 p)) s

/-- `DECLEN` (R137). -/
def execDeclen (u : U64) (s : State) : Host.Outcome State Fault Refusal :=
  finish (Mnemonic.opcode .declen) (declenResult (u64 u)) s

/-- `LOG10POW2` (R142). -/
def execLog10pow2 (e : Word32) (s : State) : Host.Outcome State Fault Refusal :=
  finish (Mnemonic.opcode .log10pow2) (log10pow2Result (s32 e)) s

/-- `LOG10POW5` (R146). -/
def execLog10pow5 (e : Word32) (s : State) : Host.Outcome State Fault Refusal :=
  finish (Mnemonic.opcode .log10pow5) (log10pow5Result (s32 e)) s

end Sys2Proof.Machine
end

