-- ==== Sys2Proof/Machine/ExactInt.lean ====
section
/-! DEFINITION. The input domain of the conversions (spec/43_shortest.md R170) and the exact-integer
fast path (spec/42_exact_int.md R160, R161). -/

namespace Sys2Proof.Machine

/-- `(mant, exp)` are the fields of a finite, non-zero binary64 (R170); subnormals are in (R5). -/
def inConvDomain (mant exp : Nat) : Bool :=
  !(decide (mant ≥ 2 ^ Config.mantissaBits) || decide (exp ≥ 2 ^ Config.expFieldBits - 1)
    || (mant == 0 && exp == 0))

/-- Check `ConvDomain(mant, exp)`, before a conversion command's own computation (R170). -/
def convCheck (mant exp : Nat) (r : Except Cause Results) : Except Cause Results :=
  if inConvDomain mant exp then r else .error .inputDomain

/-- `while m mod 10 == 0: m <- m / 10; d_e <- d_e + 1` (R160), at most `fuel` times: a `u64` other than
0 has at most 19 trailing decimal zeros (log 10). -/
def stripZeros : Nat → Nat → Nat → Nat × Nat
  | 0, m, d => (m, d)
  | fuel + 1, m, d => if m % 10 = 0 then stripZeros fuel (m / 10) (d + 1) else (m, d)

/-- `exact_int(mant, exp)` (R160): `none` is `NotExact`, `some (m, e)` is `Exact(m, e)`. -/
def exactInt (mant exp : Nat) : Option (Nat × Nat) :=
  let e : Int := (exp : Int) - Config.bias
  if e > Config.mantissaBits then none
  else
    let shift : Nat := (Config.mantissaBits - e).toNat
    let full : Nat := mant ||| 1 <<< Config.mantissaBits
    let m : Nat := full / 2 ^ shift
    if m * 2 ^ shift ≠ full then none
    else some (stripZeros 20 m 0)

/-- The results of `EXACTINT` (R161): on `NotExact` `V0` and `RE` are 0. -/
def exactintResult (mant exp : Nat) : Except Cause Results :=
  convCheck mant exp <|
    match exactInt mant exp with
    | some (m, e) => .ok { v0 := zext64 m, re := sext32 e, rf := exactFlag true }
    | none => .ok { rf := exactFlag false }

/-- `EXACTINT` (R161). -/
def execExactint (mant : U64) (exp : Word32) (s : State) : Host.Outcome State Fault Refusal :=
  finish (Mnemonic.opcode .exactint) (exactintResult (u64 mant) (u32 exp)) s

end Sys2Proof.Machine
end

