-- ==== Sys2Proof/Machine/Interval.lean ====
section
/-! DEFINITION. The decimal interval boundary unit: Steps 1 to 3 of the shortest-decimal core
(spec/43_shortest.md R171 to R181). -/

namespace Sys2Proof.Machine

/-- Step 1: the binary mantissa `m2` (R171). -/
def mantissa2 (mant exp : Nat) : Nat :=
  if exp = 0 then mant else 1 <<< Config.mantissaBits ||| mant

/-- Step 1: the binary exponent `e2`, which includes the `−2` of two extra low bits (R171). -/
def exponent2 (exp : Nat) : Int :=
  if exp = 0 then 1 - Config.bias - Config.mantissaBits - 2
  else (exp : Int) - Config.bias - Config.mantissaBits - 2

/-- Step 1: `accept_bounds`, true iff `m2` is even (R172). -/
def acceptBounds (mant exp : Nat) : Bool := mantissa2 mant exp % 2 == 0

/-- Step 2: `mm_shift`, 0 only for a power of two whose predecessor has the smaller exponent (R173). -/
def mmShift (mant exp : Nat) : Nat := iverson (mant != 0 || decide (exp ≤ 1))

/-- Step 2: `mv = 4 · m2` (R173). -/
def mvOf (mant exp : Nat) : Nat := 4 * mantissa2 mant exp

/-- Step 2: the upper end `mp = mv + 2` (R173). -/
def mpOf (mant exp : Nat) : Nat := mvOf mant exp + 2

/-- Step 2: the lower end `mm = mv − 1 − mm_shift` (R173). -/
def mmOf (mant exp : Nat) : Nat := mvOf mant exp - 1 - mmShift mant exp

/-- What Step 3 scales by: the quotient `q` (which steers the trailing-zero rules), the decimal exponent
`e10`, the multiplier and the shift of its `mulShift` calls. -/
structure Scaling where
  q   : Nat
  e10 : Int
  mul : Nat
  sh  : Nat
  deriving DecidableEq, Repr

/-- Step 3, positive branch (R174), for `e2 = n ≥ 0`. -/
def scalingPos (n : Nat) : Scaling :=
  let q := log10Pow2Nat n - iverson (decide (n > 3))
  let k : Int := Config.pow5InvBits + pow5Bits q - 1
  let i : Int := -(n : Int) + q + k
  { q := q, e10 := q, mul := pow5InvRom q, sh := i.toNat }

/-- Step 3, negative branch (R177), for `e2 = −n < 0`. -/
def scalingNeg (n : Nat) : Scaling :=
  let q := log10Pow5Nat n - iverson (decide (n > 1))
  let i := n - q
  let k : Int := (pow5Bits i : Int) - Config.pow5EntryBits
  let j : Int := q - k
  { q := q, e10 := (q : Int) - n, mul := pow5Rom i, sh := j.toNat }

/-- Step 3: the branch is chosen by the sign of `e2` alone, and `e2 = 0` takes the positive one (R180). -/
def scalingOf (e2 : Int) : Scaling :=
  if 0 ≤ e2 then scalingPos e2.toNat else scalingNeg (-e2).toNat

/-- What the trailing-zero rules decide: the two flags, and whether `vp` is decremented. -/
structure TrailingZeros where
  vrTz  : Bool := false
  vmTz  : Bool := false
  decVp : Bool := false
  deriving DecidableEq, Repr

/-- Positive branch, trailing-zero rules (R176, R184). -/
def trailingZerosPos (mant exp q : Nat) : TrailingZeros :=
  if q ≤ Config.qTzPos then
    if mvOf mant exp % 5 = 0 then { vrTz := multipleOfPow5 (mvOf mant exp) q }
    else if acceptBounds mant exp then { vmTz := multipleOfPow5 (mmOf mant exp) q }
    else { decVp := multipleOfPow5 (mpOf mant exp) q }
  else {}

/-- Negative branch, trailing-zero rules (R179). -/
def trailingZerosNeg (mant exp q : Nat) : TrailingZeros :=
  if q ≤ 1 then
    if acceptBounds mant exp then { vrTz := true, vmTz := mmShift mant exp == 1 }
    else { vrTz := true, decVp := true }
  else if q < Config.qTzNeg then { vrTz := multipleOfPow2 (mvOf mant exp) (q - 1) }
  else {}

/-- The trailing-zero rules of the branch that `e2` takes. -/
def trailingZerosOf (mant exp : Nat) : TrailingZeros :=
  let q := (scalingOf (exponent2 exp)).q
  if 0 ≤ exponent2 exp then trailingZerosPos mant exp q else trailingZerosNeg mant exp q

/-- The result of `interval(mant, exp)` (R180). -/
structure IntervalResult where
  vr     : Nat
  vp     : Nat
  vm     : Nat
  e10    : Int
  accept : Bool
  vrTz   : Bool
  vmTz   : Bool
  deriving DecidableEq, Repr

/-- `interval(mant, exp)`: Steps 1 to 3 (R180), with the scaled values of R175 and R178. The decrement
of `vp` never wraps (R182). -/
def interval (mant exp : Nat) : IntervalResult :=
  let sc := scalingOf (exponent2 exp)
  let tzs := trailingZerosOf mant exp
  { vr := mulShift (mvOf mant exp) sc.mul sc.sh
    vp := mulShift (mpOf mant exp) sc.mul sc.sh - iverson tzs.decVp
    vm := mulShift (mmOf mant exp) sc.mul sc.sh
    e10 := sc.e10
    accept := acceptBounds mant exp
    vrTz := tzs.vrTz
    vmTz := tzs.vmTz }

/-- The results of `INTERVAL` (R181). -/
def intervalResult (mant exp : Nat) : Except Cause Results :=
  convCheck mant exp <|
    let r := interval mant exp
    .ok { v0 := zext64 r.vr, v1 := zext64 r.vp, v2 := zext64 r.vm, re := sext32 r.e10,
          rf := intervalFlags r.accept r.vrTz r.vmTz }

/-- `INTERVAL` (R181). -/
def execInterval (mant : U64) (exp : Word32) (s : State) : Host.Outcome State Fault Refusal :=
  finish (Mnemonic.opcode .interval) (intervalResult (u64 mant) (u32 exp)) s

end Sys2Proof.Machine
end

