-- ==== Sys2Proof/Machine/Shortest.lean ====
section
/-! DEFINITION. The digit-extraction and shortest-path selector: Step 4 of the shortest-decimal core, and
its composition with the interval unit (spec/43_shortest.md R185 to R198). -/

namespace Sys2Proof.Machine

/-- The boundary comparator `DecadeSep(vp, vm, d)` (R186). -/
def decadeSep (vp vm d : Nat) : Bool := decide (vp / d > vm / d)

/-! ### The general path -/

/-- What the general path's loops carry. -/
structure GeneralLoop where
  vr      : Nat
  vp      : Nat
  vm      : Nat
  vrTz    : Bool
  vmTz    : Bool
  last    : Nat
  removed : Nat
  deriving DecidableEq, Repr

/-- One iteration of the first loop (R187): the digits tested are those removed, and `vr_tz` uses the
previous `last` (90_conflicts.md C10). -/
def GeneralLoop.removeDigit (g : GeneralLoop) : GeneralLoop where
  vr := g.vr / 10
  vp := g.vp / 10
  vm := g.vm / 10
  vrTz := g.vrTz && g.last == 0
  vmTz := g.vmTz && g.vm % 10 == 0
  last := g.vr % 10
  removed := g.removed + 1

/-- One iteration of the second loop (R188): the same bookkeeping on `vr` and `last`, and `vm_tz` is
left alone. -/
def GeneralLoop.removeZero (g : GeneralLoop) : GeneralLoop :=
  { g.removeDigit with vmTz := g.vmTz }

/-- The first loop, at most `fuel` times: `vp < 2^64` has at most 20 digits (R195; log 10). -/
def generalLoop : Nat → GeneralLoop → GeneralLoop
  | 0, g => g
  | fuel + 1, g => if decadeSep g.vp g.vm 10 then generalLoop fuel g.removeDigit else g

/-- The second loop, at most `fuel` times: `vm ≠ 0` has at most 19 trailing zeros (R195; log 10). -/
def zeroLoop : Nat → GeneralLoop → GeneralLoop
  | 0, g => g
  | fuel + 1, g => if g.vm % 10 = 0 then zeroLoop fuel g.removeZero else g

/-- The tie correction (R189). -/
def GeneralLoop.tieCorrect (g : GeneralLoop) : GeneralLoop :=
  if g.vrTz && g.last == 5 && g.vr % 2 == 0 then { g with last := 4 } else g

/-- The output of the general path rounds up (R190). -/
def GeneralLoop.roundsUp (g : GeneralLoop) (accept : Bool) : Bool :=
  (g.vr == g.vm && (!accept || !g.vmTz)) || decide (g.last ≥ 5)

/-- The general path's loops (R187, R188): the second loop runs only if `vm_tz` is still 1, and faults
with `vm = 0`, where it would not end. -/
def generalLoops (vr vp vm : Nat) (vrTz vmTz : Bool) : Except Cause GeneralLoop :=
  let g := generalLoop 20 { vr := vr, vp := vp, vm := vm, vrTz := vrTz, vmTz := vmTz, last := 0, removed := 0 }
  if g.vmTz then
    if g.vm = 0 then .error .nontermination else .ok (zeroLoop 20 g)
  else .ok g

/-- The digits `out` and the removal count of a path. -/
structure PathResult where
  out     : Nat
  removed : Nat
  deriving DecidableEq, Repr

/-- The general path (R187 to R190). -/
def generalPath (vr vp vm : Nat) (accept vrTz vmTz : Bool) : Except Cause PathResult :=
  match generalLoops vr vp vm vrTz vmTz with
  | .error c => .error c
  | .ok g =>
    let h := g.tieCorrect
    .ok { out := if h.roundsUp accept then trunc64 (h.vr + 1) else h.vr, removed := h.removed }

/-! ### The common path -/

/-- What the common path's steps carry. -/
structure CommonLoop where
  vr      : Nat
  vp      : Nat
  vm      : Nat
  roundUp : Bool
  removed : Nat
  deriving DecidableEq, Repr

/-- The removal of `n` digits at once, `d = 10^n`: the 100-step (R191) and the loop's body (R192). -/
def CommonLoop.remove (c : CommonLoop) (d n : Nat) : CommonLoop where
  vr := c.vr / d
  vp := c.vp / d
  vm := c.vm / d
  roundUp := decide (c.vr % d ≥ d / 2)
  removed := c.removed + n

/-- The 100-step, one conditional step before the loop (R191). -/
def CommonLoop.hundredStep (c : CommonLoop) : CommonLoop :=
  if decadeSep c.vp c.vm 100 then c.remove 100 2 else c

/-- The loop, at most `fuel` times (R192; log 10). -/
def commonLoop : Nat → CommonLoop → CommonLoop
  | 0, c => c
  | fuel + 1, c => if decadeSep c.vp c.vm 10 then commonLoop fuel (c.remove 10 1) else c

/-- The common path (R191 to R193). -/
def commonPath (vr vp vm : Nat) : PathResult :=
  let start : CommonLoop := { vr := vr, vp := vp, vm := vm, roundUp := false, removed := 0 }
  let c := commonLoop 20 start.hundredStep
  { out := if c.vr == c.vm || c.roundUp then trunc64 (c.vr + 1) else c.vr, removed := c.removed }

/-! ### Step 4 as a whole -/

/-- The result of `shortest` (R195): the decimal pair, the removal count and the path taken. -/
structure ShortestResult where
  m       : Nat
  e       : Int
  removed : Nat
  general : Bool
  deriving DecidableEq, Repr

/-- `shortest(vr, vp, vm, e10, accept_bounds, vr_tz, vm_tz)` (R185, R194, R195). -/
def shortest (iv : IntervalResult) : Except Cause ShortestResult :=
  let general := iv.vrTz || iv.vmTz
  let path :=
    if general then generalPath iv.vr iv.vp iv.vm iv.accept iv.vrTz iv.vmTz
    else .ok (commonPath iv.vr iv.vp iv.vm)
  match path with
  | .error c => .error c
  | .ok p =>
    let e := iv.e10 + p.removed
    if fitsI32 e then .ok { m := p.out, e := e, removed := p.removed, general := general }
    else .error .expRange

/-- `f2d(mant, exp) = shortest(interval(mant, exp))` (R197). -/
def f2d (mant exp : Nat) : Except Cause ShortestResult := shortest (interval mant exp)

/-- What `SHORTEST` and `F2D` write of a result of Step 4 (R196, R198). -/
def shortestResults (r : Except Cause ShortestResult) : Except Cause Results :=
  match r with
  | .error c => .error c
  | .ok r => .ok { v0 := zext64 r.m, v1 := zext64 r.removed, re := sext32 r.e, rf := generalFlag r.general }

/-- `SHORTEST` (R196). The operands are not checked for `vm ≤ vr ≤ vp`. -/
def execShortest (vr vp vm : U64) (e10 : Word32) (acc vrtz vmtz : Bool) (s : State) :
    Host.Outcome State Fault Refusal :=
  finish (Mnemonic.opcode .shortest)
    (shortestResults (shortest
      { vr := u64 vr, vp := u64 vp, vm := u64 vm, e10 := s32 e10, accept := acc, vrTz := vrtz, vmTz := vmtz })) s

/-- `F2D` (R198). In its domain `f2d` raises no fault (R197, R238; log 12). -/
def execF2d (mant : U64) (exp : Word32) (s : State) : Host.Outcome State Fault Refusal :=
  finish (Mnemonic.opcode .f2d)
    (convCheck (u64 mant) (u32 exp) (shortestResults (f2d (u64 mant) (u32 exp)))) s

end Sys2Proof.Machine
end

