-- ==== Sys2Proof/Machine/Format.lean ====
section
/-! DEFINITION. The decimal-pair formatter and the conversion pipeline (spec/44_format.md R210 to R220),
with the byte codes of spec/20_memory.md R57. -/

namespace Sys2Proof.Machine

/-! ### Byte codes (R57) -/

/-- The code of a decimal digit. -/
def digitByte (d : Nat) : Byte := BitVec.ofNat 8 (0x30 + d)
/-- `'.'` -/
def dotByte : Byte := 0x2E
/-- `'+'` -/
def plusByte : Byte := 0x2B
/-- `'-'` -/
def minusByte : Byte := 0x2D
/-- `'e'` -/
def expByte : Byte := 0x65

/-! ### The formatter -/

/-- The exponent written, `x = e + decimal_length(m) − 1` (R211). -/
def shownExponent (m : Nat) (e : Int) : Int := e + decimalLength m - 1

/-- The sign byte: `'-'` if negative, and never `'+'` (R212). -/
def signBytes (negative : Bool) : List Byte := if negative then [minusByte] else []

/-- The mantissa's digits, with a `.` after the first iff there are two or more (R212, R213). -/
def mantissaBytes (m : Nat) : List Byte :=
  match (decDigits m).map digitByte with
  | [] => []
  | [c] => [c]
  | c :: rest => c :: dotByte :: rest

/-- `'e'`, the exponent's sign, and its magnitude in three digits if `|x| ≥ 100`, in two otherwise
(R212, R214). -/
def exponentBytes (x : Int) : List Byte :=
  expByte :: (if x < 0 then minusByte else plusByte) ::
    (if x.natAbs ≥ 100 then
      [digitByte (x.natAbs / 100), digitByte (x.natAbs / 10 % 10), digitByte (x.natAbs % 10)]
    else [digitByte (x.natAbs / 10), digitByte (x.natAbs % 10)])

/-- `fmt(m, e, negative)` (R210, R212). -/
def fmt (m : Nat) (e : Int) (negative : Bool) : List Byte :=
  signBytes negative ++ mantissaBytes m ++ exponentBytes (shownExponent m e)

/-- The results of `FMT` (R217): `MANT_RANGE` is checked first. -/
def fmtResult (m : Nat) (e : Int) (negative : Bool) : Except Cause Results :=
  if m = 0 ∨ m ≥ Config.declenLimit then .error .mantRange
  else if (shownExponent m e).natAbs > 999 then .error .expRange
  else .ok { bytes := fmt m e negative }

/-- `FMT` (R217). -/
def execFmt (m : U64) (e : Word32) (neg : Bool) (s : State) : Host.Outcome State Fault Refusal :=
  finish (Mnemonic.opcode .fmt) (fmtResult (u64 m) (s32 e) neg) s

/-! ### The conversion pipeline -/

/-- A conversion's decimal pair, removal count and flags (R219). -/
structure Conversion where
  m       : Nat
  e       : Int
  removed : Nat
  exact   : Bool
  general : Bool
  deriving DecidableEq, Repr

/-- The pair of `convert(mant, exp, negative)` (R219): the fast path first, then the full search. -/
def conversion (mant exp : Nat) : Except Cause Conversion :=
  match exactInt mant exp with
  | some (m, e) => .ok { m := m, e := e, removed := 0, exact := true, general := false }
  | none =>
    match f2d mant exp with
    | .error c => .error c
    | .ok r => .ok { m := r.m, e := r.e, removed := r.removed, exact := false, general := r.general }

/-- What `CONVERT` writes (R220); `fmt` cannot fault here (R219). -/
def convertResults (r : Except Cause Conversion) (negative : Bool) : Except Cause Results :=
  match r with
  | .error c => .error c
  | .ok r =>
    .ok { v0 := zext64 r.m, v1 := zext64 r.removed, re := sext32 r.e,
          rf := convertFlags r.exact r.general, bytes := fmt r.m r.e negative }

/-- `CONVERT` (R220). In its domain it raises no fault (R219, R238; log 12). -/
def execConvert (mant : U64) (exp : Word32) (neg : Bool) (s : State) : Host.Outcome State Fault Refusal :=
  finish (Mnemonic.opcode .convert)
    (convCheck (u64 mant) (u32 exp) (convertResults (conversion (u64 mant) (u32 exp)) neg)) s

end Sys2Proof.Machine
end

