-- ==== Sys2Proof/Machine/Tables.lean ====
section
/-! DEFINITION. The control and table operations (spec/40_control_and_tables.md R100 to R103). -/

namespace Sys2Proof.Machine

/-- `NOP` (R100): no effect on any state, not even `RVALID`; in `FAULTED` it is discarded, which is
the same. -/
def execNop (s : State) : Host.Outcome State Fault Refusal := .next s

/-- The results of `POW5BITS` (R101). -/
def pow5bitsResult (e : Nat) : Except Cause Results :=
  if e > Config.pow5TableSize - 1 then .error .indexRange
  else .ok { v0 := zext64 (pow5Bits e) }

/-- The results of `POW5RD` (R102). -/
def pow5rdResult (i : Nat) : Except Cause Results :=
  if i > Config.pow5TableSize - 1 then .error .indexRange
  else .ok { v0 := lowHalf (pow5Rom i), v1 := highHalf (pow5Rom i) }

/-- The results of `POW5INVRD` (R103). -/
def pow5invrdResult (q : Nat) : Except Cause Results :=
  if q > Config.pow5InvTableSize - 1 then .error .indexRange
  else .ok { v0 := lowHalf (pow5InvRom q), v1 := highHalf (pow5InvRom q) }

/-- `POW5BITS` (R101). -/
def execPow5bits (e : Word32) (s : State) : Host.Outcome State Fault Refusal :=
  finish (Mnemonic.opcode .pow5bits) (pow5bitsResult (u32 e)) s

/-- `POW5RD` (R102). -/
def execPow5rd (i : Word32) (s : State) : Host.Outcome State Fault Refusal :=
  finish (Mnemonic.opcode .pow5rd) (pow5rdResult (u32 i)) s

/-- `POW5INVRD` (R103). -/
def execPow5invrd (q : Word32) (s : State) : Host.Outcome State Fault Refusal :=
  finish (Mnemonic.opcode .pow5invrd) (pow5invrdResult (u32 q)) s

end Sys2Proof.Machine
end

