-- ==== Sys2Proof/Machine/Dispatch.lean ====
section
/-! DEFINITION. The dispatch: one arm per constructor of Instr, each one direct call of its meaning. -/

namespace Sys2Proof.Machine

def exec (i : Instr) (s : State) : Host.Outcome State Fault Refusal :=
  match i with
  -- spec/40_control_and_tables.md
  | .nop => Sys2Proof.Machine.execNop s
  | .pow5bits e => Sys2Proof.Machine.execPow5bits e s
  | .pow5rd k => Sys2Proof.Machine.execPow5rd k s
  | .pow5invrd q => Sys2Proof.Machine.execPow5invrd q s
  -- spec/41_primitives.md
  | .mulshift m u sh => Sys2Proof.Machine.execMulshift m u sh s
  | .pow5factor v => Sys2Proof.Machine.execPow5factor v s
  | .mulpow5 v p => Sys2Proof.Machine.execMulpow5 v p s
  | .mulpow2 v p => Sys2Proof.Machine.execMulpow2 v p s
  | .declen u => Sys2Proof.Machine.execDeclen u s
  | .log10pow2 e => Sys2Proof.Machine.execLog10pow2 e s
  | .log10pow5 e => Sys2Proof.Machine.execLog10pow5 e s
  -- spec/42_exact_int.md
  | .exactint mant exp => Sys2Proof.Machine.execExactint mant exp s
  -- spec/43_shortest.md
  | .interval mant exp => Sys2Proof.Machine.execInterval mant exp s
  | .shortest vr vp vm e10 acc vrtz vmtz => Sys2Proof.Machine.execShortest vr vp vm e10 acc vrtz vmtz s
  | .f2d mant exp => Sys2Proof.Machine.execF2d mant exp s
  -- spec/44_format.md
  | .fmt m e neg => Sys2Proof.Machine.execFmt m e neg s
  | .convert mant exp neg => Sys2Proof.Machine.execConvert mant exp neg s

end Sys2Proof.Machine
end

