-- ==== Sys2Proof/Machine/Port.lean ====
section
/-! DEFINITION. The command port and the clock (spec/10_state.md R39, R40; spec/60_exceptions.md R232,
R233; spec/70_reset_and_hazards.md R260, R265, R266). One step of the machine is one rising edge of
`clk`: the inputs are their levels at that edge, and the state after it is what the outputs show in the
cycle that follows (log 3). -/

namespace Sys2Proof.Machine

/-! ### The host's inputs -/

/-- The inputs of a host that does nothing: `rst = 0`, `cmd_valid = 0` (log 5). -/
def idleInput : PortInput := {}

/-- The levels of the input pins at the coming edge; a host with nothing listed is idle (log 5). -/
def State.nextInput (s : State) : PortInput := s.host.headD idleInput

/-- The inputs after that edge. -/
def State.passInput (s : State) : State := { s with host := s.host.tail }

/-! ### A command's effect -/

/-- The cause a decode check reports (R236). -/
def rejectCause : DecodeReject → Cause
  | .illegalOp => .illegalOp
  | .reservedBits => .reservedBits

/-- The whole effect of a command word (R236): its instruction's, or the fault of a failed decode check,
with the word's own `OP` field in `FOP`. In `FAULTED` neither has one (R233). -/
def runCommand (cw : CommandWord) (s : State) : Host.Outcome State Fault Refusal :=
  match decode cw with
  | .ok i => exec i s
  | .error r => finish (Command.ofWord cw).op (.error (rejectCause r)) s

/-- The end of a command: `rsp_valid` pulses, and the port takes commands again (R39, R40). -/
def respond (s : State) : State := { s with inFlight := none, cmdReady := true, rspValid := true }

/-- A command completes: its effect and its `rsp_valid` in the same cycle (R40, R232, R233). -/
def completeCommand (cw : CommandWord) (s : State) : Host.Outcome State Fault Refusal :=
  match runCommand cw s with
  | .next t => .next (respond t)
  | .fault f => .fault f
  | .refused r => .refused r

/-! ### The clock edge -/

/-- A command stays in flight, with `n` edges to go; the result registers keep their values (R40, R266). -/
def waitFor (cw : CommandWord) (n : Nat) (s : State) : State :=
  { s with inFlight := some { cmd := cw, remaining := n }, cmdReady := false, rspValid := false }

/-- A cycle with no command: `cmd_ready = 1`, and every other piece of state survives (R247). The first
edge with `rst = 0` after a reset raises `cmd_ready` (R260; log 3). -/
def idleCycle (s : State) : State := { s with cmdReady := true, rspValid := false }

/-- A command whose completion is `n` edges after this one. -/
def advance (cw : CommandWord) (n : Nat) (s : State) : Host.Outcome State Fault Refusal :=
  if n = 0 then completeCommand cw s else .next (waitFor cw n s)

/-- A rising edge with `rst = 0` and the inputs `pin`. A command in flight is counted down. Otherwise one
is accepted iff `cmd_valid = 1` and `cmd_ready = 1` (R40, R265), and completes `LATENCY_CYCLES` later. -/
def clockEdge (pin : PortInput) (s : State) : Host.Outcome State Fault Refusal :=
  match s.inFlight with
  | some f => advance f.cmd (f.remaining - 1) s
  | none =>
    if s.cmdReady && pin.cmdValid then advance pin.cmd (Config.latencyCycles pin.cmd - 1) s
    else .next (idleCycle s)

/-- One rising edge of `clk`: reset if `rst = 1` (R260), the command port's work otherwise. -/
def cycle (s : State) : Host.Outcome State Fault Refusal :=
  if s.nextInput.rst then .next (applyReset s.passInput)
  else clockEdge s.nextInput s.passInput

/-- `s` with the command word `cw` accepted and in the last cycle of its latency, and no reset at the
coming edge: the very next step completes it (log 6). -/
def loadCommand (cw : CommandWord) (s : State) : State :=
  { s with
    inFlight := some { cmd := cw, remaining := 1 }, cmdReady := false, rspValid := false
    host := idleInput :: s.host }

end Sys2Proof.Machine
end

