-- ==== Sys2Proof/Machine/Step.lean ====
section
/-! DEFINITION. The step of the machine: one rising edge of `clk` (spec/10_state.md R39, R40). -/

namespace Sys2Proof.Machine

/-- One step: one rising edge of `clk` (`cycle`, in Port.lean). -/
def step (s : State) : Host.Outcome State Fault Refusal := cycle s

/-- `s` with the opcode table's word placed where the next step runs it (`loadCommand`, log 6). -/
def State.withFetchWord (s : State) (nbits w : Nat) : State := loadCommand (tableWord nbits w) s

end Sys2Proof.Machine
end

