-- ==== Sys2Proof/Machine/Assembler.lean ====
section
/-! DEFINITION. The assembler of RYU64-CMD (spec/30_encoding.md R83 to R85): from a line of text to a
command word, and the spelling of a command word in hexadecimal. No pseudo-instruction exists (R84).
The hardware runs none of this. -/

namespace Sys2Proof.Machine

/-! ### A line of syntax to a command word (R83) -/

/-- The fields of a command with one operand's field set. -/
def setOperand (c : Command) : AsmOperand → Command
  | .key .a v => { c with a := BitVec.ofInt 64 v }
  | .key .b v => { c with bl := BitVec.ofInt 64 v, bh := BitVec.ofInt 64 (v / 2 ^ 64) }
  | .key .bl v => { c with bl := BitVec.ofInt 64 v }
  | .key .bh v => { c with bh := BitVec.ofInt 64 v }
  | .key .c v => { c with c := BitVec.ofInt 32 v }
  | .flag .neg => { c with neg := true }
  | .flag .acc => { c with acc := true }
  | .flag .vrtz => { c with vrtz := true }
  | .flag .vmtz => { c with vmtz := true }

/-- The command word of a line; a line that is not well formed is refused (R83). -/
def assembleLine (l : AsmLine) : Option CommandWord :=
  if l.wellFormed then some (l.operands.foldl setOperand (Command.bare l.mnemonic)).toWord else none

/-! ### Text to a line -/

/-- The spelling of a mnemonic (R74). -/
def mnemonicName : Mnemonic → String
  | .nop => "NOP" | .pow5bits => "POW5BITS" | .pow5rd => "POW5RD" | .pow5invrd => "POW5INVRD"
  | .mulshift => "MULSHIFT" | .pow5factor => "POW5FACTOR" | .mulpow5 => "MULPOW5" | .mulpow2 => "MULPOW2"
  | .declen => "DECLEN" | .log10pow2 => "LOG10POW2" | .log10pow5 => "LOG10POW5"
  | .exactint => "EXACTINT" | .interval => "INTERVAL" | .shortest => "SHORTEST" | .f2d => "F2D"
  | .fmt => "FMT" | .convert => "CONVERT"

/-- The seventeen mnemonics. -/
def allMnemonics : List Mnemonic :=
  [.nop, .pow5bits, .pow5rd, .pow5invrd] ++
  [.mulshift, .pow5factor, .mulpow5, .mulpow2, .declen, .log10pow2, .log10pow5] ++
  [.exactint, .interval, .shortest, .f2d, .fmt, .convert]

/-- The mnemonic a word spells. -/
def parseMnemonic (w : List Char) : Option Mnemonic :=
  allMnemonics.find? fun m => (mnemonicName m).toList == w

/-- The value of a digit character in base 16. -/
def digitValue (ch : Char) : Option Nat :=
  let n := ch.toNat
  if 48 ≤ n ∧ n ≤ 57 then some (n - 48)
  else if 97 ≤ n ∧ n ≤ 102 then some (n - 87)
  else if 65 ≤ n ∧ n ≤ 70 then some (n - 55)
  else none

/-- The value of a digit string in `base`, read on from `acc`. -/
def parseDigitsFrom (base : Nat) : Nat → List Char → Option Nat
  | acc, [] => some acc
  | acc, ch :: rest =>
    match digitValue ch with
    | some d => if d < base then parseDigitsFrom base (acc * base + d) rest else none
    | none => none

/-- The value of a digit string, which is not empty. -/
def parseDigits (base : Nat) : List Char → Option Nat
  | [] => none
  | cs => parseDigitsFrom base 0 cs

/-- A decimal integer, optionally negative, or a `0x` hexadecimal integer (R83). DESIGN CHOICE (log 13): a
minus sign before zero gives 0, on every key of every operation. R83 allows the sign for the `C` of a signed
operation and refuses a negative value elsewhere, and does not settle `-0` there. -/
def parseValue : List Char → Option Int
  | '-' :: ds => (parseDigits 10 ds).map fun n => -(n : Int)
  | '0' :: 'x' :: hs => (parseDigits 16 hs).map Int.ofNat
  | ds => (parseDigits 10 ds).map Int.ofNat

/-- The key a word spells. -/
def parseKey (w : List Char) : Option AsmKey :=
  if w = ['A'] then some .a
  else if w = ['B'] then some .b
  else if w = ['B', 'L'] then some .bl
  else if w = ['B', 'H'] then some .bh
  else if w = ['C'] then some .c
  else none

/-- The flag a word spells. -/
def parseFlag (w : List Char) : Option AsmFlag :=
  if w = "NEG".toList then some .neg
  else if w = "ACC".toList then some .acc
  else if w = "VRTZ".toList then some .vrtz
  else if w = "VMTZ".toList then some .vmtz
  else none

/-- A text without the spaces around it. -/
def trimSpaces (cs : List Char) : List Char :=
  ((cs.dropWhile (· == ' ')).reverse.dropWhile (· == ' ')).reverse

/-- The parts of a text between the characters `sep`. -/
def splitAt (sep : Char) : List Char → List (List Char)
  | [] => [[]]
  | ch :: rest =>
    if ch = sep then [] :: splitAt sep rest
    else
      match splitAt sep rest with
      | [] => [[ch]]
      | p :: ps => (ch :: p) :: ps

/-- One operand: `KEY=VALUE` or a bare flag word (R83). -/
def parseOperand (cs : List Char) : Option AsmOperand :=
  match splitAt '=' cs with
  | [w] => (parseFlag w).map .flag
  | [k, v] =>
    match parseKey k, parseValue v with
    | some k, some v => some (.key k v)
    | _, _ => none
  | _ => none

/-- The comma-separated operands; there may be none. -/
def parseOperands (cs : List Char) : Option (List AsmOperand) :=
  if cs = [] then some [] else ((splitAt ',' cs).map fun p => parseOperand (trimSpaces p)).mapM id

/-- A mnemonic followed by its operands (R83). -/
def parseLine (cs : List Char) : Option AsmLine :=
  let cs := trimSpaces cs
  match parseMnemonic (cs.takeWhile (· != ' ')), parseOperands (trimSpaces (cs.dropWhile (· != ' '))) with
  | some m, some ops => some { mnemonic := m, operands := ops }
  | _, _ => none

/-- The command word of a line of text, if an assembler accepts it (R83). -/
def assemble (text : String) : Option CommandWord := (parseLine text.toList).bind assembleLine

/-! ### The spelling of a command word (R85) -/

/-- `n` hexadecimal digits of a value, most significant first, in front of `acc`. -/
def hexDigits : Nat → Nat → List Char → List Char
  | 0, _, acc => acc
  | n + 1, v, acc => hexDigits n (v / 16) (Nat.digitChar (v % 16) :: acc)

/-- `BH_BL_A_C_CTL`: 16, 16, 16, 8 and 8 digits, most significant first (R85). -/
def spellWord (w : CommandWord) : List Char :=
  let c := Command.ofWord w
  hexDigits 16 c.bh.toNat [] ++ '_' :: hexDigits 16 c.bl.toNat [] ++ '_' :: hexDigits 16 c.a.toNat [] ++
    '_' :: hexDigits 8 c.c.toNat [] ++ '_' :: hexDigits 8 c.controlWord.toNat []

end Sys2Proof.Machine
end

