-- ==== Sys2Proof/Machine/Outputs.lean ====
section
/-! DEFINITION. What a host sees: the output ports (spec/10_state.md R39), the results it may read
(spec/70_reset_and_hazards.md R266). Reading has no side effect (R60): each of these is a function of the
state alone. -/

namespace Sys2Proof.Machine

/-- The port `ob`: byte `OB[k]` on `ob[8k+7:8k]` (R39, R56). -/
def packBytes : List Byte → Nat
  | [] => 0
  | b :: rest => b.toNat + 2 ^ 8 * packBytes rest

/-- The levels of the output ports, each of its own width (R39). -/
structure OutputPorts where
  cmdReady : Bool
  rspValid : Bool
  status   : BitVec 16
  v0       : U64
  v1       : U64
  v2       : U64
  re       : Word32
  rf       : BitVec 8
  ob       : BitVec 192
  oblen    : BitVec 5
  deriving DecidableEq, Repr

/-- The output ports of a state (R39). -/
def State.outputs (s : State) : OutputPorts where
  cmdReady := s.cmdReady
  rspValid := s.rspValid
  status := s.status.word
  v0 := s.v0
  v1 := s.v1
  v2 := s.v2
  re := s.re
  rf := s.rf.word
  ob := BitVec.ofNat 192 (packBytes s.ob.toList)
  oblen := s.oblen

/-- `RVALID = 1` and `FAULT = 0`: the result registers hold the results of the last completed command
(R266). Otherwise they have no value. -/
def State.resultsValid (s : State) : Bool := s.status.rvalid && !s.status.fault

/-- The formatted tail `OB[0..OBLEN−1]`, in emission order, which the host appends to its own buffer
(R56, R66, R218). -/
def State.formattedTail (s : State) : List Byte := s.ob.toList.take s.oblen.toNat

/-- What a host that follows R266 reads: nothing while the results have no value. -/
def State.hostResults (s : State) : Option (U64 × U64 × U64 × Word32 × BitVec 8 × List Byte) :=
  if s.resultsValid then some (s.v0, s.v1, s.v2, s.re, s.rf.word, s.formattedTail) else none

end Sys2Proof.Machine
end

