-- ==== Sys2Proof/Safety.lean ====
section
/-! DEFINITION. What claims about the machine are stated in: the operands on which an instruction
completes (spec/60_exceptions.md R237), the registers a command writes, and the invariants of the
state. -/

namespace Sys2Proof.Machine

/-! ### Where an instruction completes -/

/-- The domain of `exact_int`, `interval` and `f2d` (R170), in bounds on the operands. -/
abbrev FiniteNonZero (mant : U64) (exp : Word32) : Prop :=
  mant.toNat < 2 ^ 52 ∧ exp.toNat < 2047 ∧ ¬ (mant.toNat = 0 ∧ exp.toNat = 0)

/-- The domain of the formatter (R210), with `n` the number of digits of `m`: `1 ≤ m < 10^17` and
`|e + n − 1| ≤ 999`. -/
abbrev Formattable (m : Nat) (e : Int) : Prop :=
  1 ≤ m ∧ m < 10 ^ 17 ∧ (shownExponent m e).natAbs ≤ 999

/-- Every command word with the operation code `op` and `RSV = 0` is the instruction `i` makes of its
fields (R71, R72, R79). -/
def Selects (op : BitVec 8) (i : Command → Instr) : Prop :=
  ∀ cw : CommandWord, cw.extractLsb' 0 8 = op → cw.extractLsb' 12 20 = 0 →
    decode cw = .ok (i (Command.ofWord cw))

/-- The causes an operation's own checks can report: the tables of R231 and R237. -/
def operationCauses : Mnemonic → List Cause
  | .nop | .mulpow2 => []
  | .pow5bits | .pow5rd | .pow5invrd => [.indexRange]
  | .mulshift => [.shiftRange]
  | .pow5factor | .mulpow5 => [.domainZero]
  | .declen => [.declenRange]
  | .log10pow2 | .log10pow5 => [.logRange]
  | .exactint | .interval | .f2d | .convert => [.inputDomain]
  | .shortest => [.nontermination, .expRange]
  | .fmt => [.mantRange, .expRange]

/-! ### What the loops of Step 4 do -/

/-- How many digits the loop `while DecadeSep(vp, vm, 10)` removes (R186, R187, R192): the first count at
which one more removal would collapse `vp` and `vm`. -/
def FirstCollapse (vp vm r : Nat) : Prop :=
  vp / 10 ^ (r + 1) ≤ vm / 10 ^ (r + 1) ∧ ∀ j < r, vm / 10 ^ (j + 1) < vp / 10 ^ (j + 1)

/-! ### What a command may change -/

/-- The result registers agree (R26). -/
abbrev State.sameResults (s t : State) : Prop :=
  t.v0 = s.v0 ∧ t.v1 = s.v1 ∧ t.v2 = s.v2 ∧ t.re = s.re ∧ t.rf = s.rf ∧ t.ob = s.ob ∧ t.oblen = s.oblen

/-- The command port and the host's inputs agree: no command's effect touches them. -/
abbrev State.samePort (s t : State) : Prop :=
  t.inFlight = s.inFlight ∧ t.cmdReady = s.cmdReady ∧ t.rspValid = s.rspValid ∧ t.host = s.host

/-- `t` is `s` after a command that completed with the results `r` (R26, R28): every result register is
written, `OB` is 0 from the formatted bytes on, `OBLEN` is their number, `RVALID` is set, and nothing
else changes. -/
structure State.CompletedWith (s t : State) (r : Results) : Prop where
  v0     : t.v0 = r.v0
  v1     : t.v1 = r.v1
  v2     : t.v2 = r.v2
  re     : t.re = r.re
  rf     : t.rf = r.rf
  ob     : ∀ (k : Nat) (h : k < 24), t.ob[k] = r.bytes.getD k 0
  oblen  : t.oblen.toNat = r.bytes.length
  status : t.status = { s.status with rvalid := true }
  mode   : t.mode = s.mode
  port   : s.samePort t
  tick   : t.noValueTick = s.noValueTick

/-- `t` is `s` after the fault entry of a command with `OP = op` (R232, R234): `STATUS` and `MODE` are
written and the port and the host's inputs are unchanged. The result registers have no value, so
nothing is said of them. -/
structure State.FaultedBy (s t : State) (c : Cause) (op : BitVec 8) : Prop where
  fault  : t.status.fault = true
  rvalid : t.status.rvalid = false
  cause  : t.status.cause = c
  fop    : t.status.fop = op
  mode   : t.mode = .faulted
  port   : s.samePort t

/-! ### What an input stands for -/

/-- The value of the binary64 with the fields `(mant, exp)`, `exp < 2047` (R171): `v = m2 · 2^(e2 + 2)`. -/
def inputValue (mant exp : Nat) : ℚ :=
  if exp = 0 then (mant : ℚ) * 2 ^ (-1074 : ℤ)
  else ((2 ^ 52 + mant : ℕ) : ℚ) * 2 ^ ((exp : ℤ) - 1075)

/-- The two commands agree on every field their operation reads: the table of 30_encoding.md R74. -/
def Command.sameReadFields (m : Mnemonic) (c d : Command) : Prop :=
  match m with
  | .nop => True
  | .pow5bits | .pow5rd | .pow5invrd | .log10pow2 | .log10pow5 => c.c = d.c
  | .mulshift => c.a = d.a ∧ c.bl = d.bl ∧ c.bh = d.bh ∧ c.c = d.c
  | .pow5factor | .declen => c.a = d.a
  | .mulpow5 | .mulpow2 | .exactint | .interval | .f2d => c.a = d.a ∧ c.c = d.c
  | .shortest =>
    c.a = d.a ∧ c.bl = d.bl ∧ c.bh = d.bh ∧ c.c = d.c ∧ c.acc = d.acc ∧ c.vrtz = d.vrtz ∧ c.vmtz = d.vmtz
  | .fmt | .convert => c.a = d.a ∧ c.c = d.c ∧ c.neg = d.neg

/-! ### Invariants -/

/-- `MODE` and `STATUS` agree (R27, R29): `FAULT = [MODE = FAULTED]`; `CAUSE` and `FOP` are 0 while
`FAULT = 0`; after a fault there is a cause, and no results. -/
def State.statusConsistent (s : State) : Prop :=
  (s.status.fault = true ↔ s.mode = .faulted) ∧
  (s.status.fault = false → s.status.cause = .none ∧ s.status.fop = 0) ∧
  (s.status.fault = true → s.status.cause ≠ .none ∧ s.status.rvalid = false)

/-- The command port's invariant (R40): with a command in flight, `cmd_ready` and `rsp_valid` are 0,
and the edges left are at least one and fewer than its latency. -/
def State.portConsistent (s : State) : Prop :=
  ∀ f, s.inFlight = some f →
    s.cmdReady = false ∧ s.rspValid = false ∧ 1 ≤ f.remaining ∧ f.remaining < Config.latencyCycles f.cmd

/-- The output buffer's invariant while it holds a value (R25): `OBLEN ≤ 24`, and the bytes from
`OBLEN` on read 0. -/
def State.bufferConsistent (s : State) : Prop :=
  s.status.rvalid = true →
    s.oblen.toNat ≤ 24 ∧ ∀ (k : Nat) (h : k < 24), s.oblen.toNat ≤ k → s.ob[k] = 0

/-- All of them. -/
structure State.Consistent (s : State) : Prop where
  status : s.statusConsistent
  port   : s.portConsistent
  buffer : s.bufferConsistent

/-- A safe run's states: consistent and never faulted. -/
def State.Safe (s : State) : Prop := s.Consistent ∧ s.mode = .ready

end Sys2Proof.Machine
end

