-- ==== Sys2Proof/Certificates/Slice0/Obligations.lean ====
section
/-! DEFINITION. The statements about the model, in the order of the spec's files. Each docstring names the
rules it formalises; in a `Results` literal a field that is not named is 0. `s.mode = .ready` is the
one condition on the state: a command's checks read its operands alone (spec/60_exceptions.md R230).
A rule the spec marks `[derived]` is its own inference, and a clock convention of log 3 is the model's
choice: the docstring says so, and the statement's basis is then 'derived'. -/

section

open Sys2Proof Sys2Proof.Machine

/-! ### Command words (spec/30_encoding.md) -/

/-- The decoder undoes the encoder, for every instruction and every operand (R71, R74). -/
def Obligations.DecodeEncodeRoundTrip : Prop :=
  ∀ i : Instr, decode (encode i) = .ok i

/-- R71: where each field of `CMD256` lies. The widths of the fields make the sum unique. -/
def Obligations.CommandWordIsTheSumOfItsFields : Prop :=
  ∀ cw : CommandWord,
    let c := Command.ofWord cw
    cw.toNat = c.op.toNat + 2 ^ 8 * c.neg.toNat + 2 ^ 9 * c.acc.toNat + 2 ^ 10 * c.vrtz.toNat +
      2 ^ 11 * c.vmtz.toNat + 2 ^ 12 * c.rsv.toNat + 2 ^ 32 * c.c.toNat + 2 ^ 64 * c.a.toNat +
      2 ^ 128 * c.bl.toNat + 2 ^ 192 * c.bh.toNat ∧
    (c.rsv ≠ 0 → ∀ i, decode cw ≠ .ok i)

/-- R79: the seventeen operation codes, and the mask under which a command word selects one. -/
def Obligations.MaskedControlWordSelectsOperation : Prop :=
  (∀ op : BitVec 8, (∃ m : Mnemonic, m.opcode = op) ↔
    op.toNat ≤ 0x03 ∨ 0x10 ≤ op.toNat ∧ op.toNat ≤ 0x16 ∨ op.toNat = 0x20 ∨
      0x30 ≤ op.toNat ∧ op.toNat ≤ 0x32 ∨ 0x40 ≤ op.toNat ∧ op.toNat ≤ 0x41) ∧
  (∀ m m' : Mnemonic, m.opcode = m'.opcode → m = m') ∧
  ∀ (cw : CommandWord) (m : Mnemonic),
    (∃ i : Instr, decode cw = .ok i ∧ i.mnemonic = m) ↔
      cw.extractLsb' 0 32 &&& 0xFFFFF0FF#32 = m.opcode.setWidth 32

/-- R80 and R73, in the order of R236: an undefined `OP` faults whatever the other fields hold, and a defined
one with `RSV ≠ 0` faults. -/
def Obligations.DecodeChecksFault : Prop :=
  ∀ (cw : CommandWord) (s : State), s.mode = .ready →
    let op := cw.extractLsb' 0 8
    (0x04 ≤ op.toNat ∧ op.toNat ≤ 0x0F ∨ 0x17 ≤ op.toNat ∧ op.toNat ≤ 0x1F ∨
        0x21 ≤ op.toNat ∧ op.toNat ≤ 0x2F ∨ 0x33 ≤ op.toNat ∧ op.toNat ≤ 0x3F ∨ 0x42 ≤ op.toNat →
      ∃ t, runCommand cw s = .next t ∧ s.FaultedBy t .illegalOp op) ∧
    ((∃ m : Mnemonic, m.opcode = op) → cw.extractLsb' 12 20 ≠ 0 →
      ∃ t, runCommand cw s = .next t ∧ s.FaultedBy t .reservedBits op)

/-- R74: two commands that agree on every field their operation reads have the same effect. -/
def Obligations.UnreadFieldsHaveNoEffect : Prop :=
  ∀ (m : Mnemonic) (c d : Command) (s : State), c.op = m.opcode → d.op = m.opcode → c.rsv = 0 → d.rsv = 0 →
    Command.sameReadFields m c d → runCommand c.toWord s = runCommand d.toWord s

/-- R77, R78: the operand `B`, its halves in `SHORTEST`, and the flag bits. -/
def Obligations.OperandBAndFlagsAreAssembled : Prop :=
  ∀ c : Command, c.rsv = 0 →
    (c.op = 0x10 → ∃ u : U128, decode c.toWord = .ok (.mulshift c.a u c.c) ∧
      u.toNat = c.bh.toNat * 2 ^ 64 + c.bl.toNat) ∧
    (c.op = 0x31 → decode c.toWord = .ok (.shortest c.a c.bl c.bh c.c c.acc c.vrtz c.vmtz)) ∧
    (c.op = 0x40 → decode c.toWord = .ok (.fmt c.a c.c c.neg)) ∧
    (c.op = 0x41 → decode c.toWord = .ok (.convert c.a c.c c.neg))

/-- Words written out from R71 and R79. The MULSHIFT, SHORTEST and FMT words are rows of
spec/95_test_vectors.md; the CONVERT word is its row of pi with `NEG` set. -/
def Obligations.SpelledWordsDecode : Prop :=
  decode 0x0000000000000005000000000000000700000000000000030000004000000010#256 =
    .ok (.mulshift 3 0x50000000000000007 64) ∧
  decode 0x0040000000000006004000000000000a00400000000000080000000000000a31#256 =
    .ok (.shortest 18014398509481992 18014398509481994 18014398509481990 0 true false true) ∧
  decode 0x00000000000000000000000000000000000000000000013afffffffe00000040#256 =
    .ok (.fmt 314 (-2) false) ∧
  decode 0x00000000000000000000000000000000000921fb54442d180000040000000141#256 =
    .ok (.convert 0x921fb54442d18 1024 true) ∧
  decode 0x0000000000000000000000000000000000000000000000010000000000000004#256 = .error .illegalOp ∧
  decode 0x0000000000000000000000000000000000000000000000010000000080000001#256 = .error .reservedBits

/-- R83: a line is refused exactly if a value does not fit or a field is given twice; an accepted line
assembles to its mnemonic's command, with every operand read back, and the fields and flags not written 0. Two
things are the model's choice (log 13): a field given twice is refused, and the `C` of a signed operation fits
from `-2^31` to below `2^32`. -/
def Obligations.AssembledLineDecodesToItsMnemonic : Prop :=
  ∀ l : AsmLine,
    (assembleLine l = none ↔ l.wellFormed = false) ∧
    ∀ w, assembleLine l = some w →
      let c := Command.ofWord w
      let given := fun k => ∃ v, AsmOperand.key k v ∈ l.operands
      (∃ i : Instr, decode w = .ok i ∧ i.mnemonic = l.mnemonic) ∧
      (c.neg = true ↔ AsmOperand.flag .neg ∈ l.operands) ∧ (c.acc = true ↔ AsmOperand.flag .acc ∈ l.operands) ∧
      (c.vrtz = true ↔ AsmOperand.flag .vrtz ∈ l.operands) ∧
      (c.vmtz = true ↔ AsmOperand.flag .vmtz ∈ l.operands) ∧
      (∀ v, AsmOperand.key .a v ∈ l.operands → (c.a.toNat : Int) = v) ∧ (¬ given .a → c.a = 0) ∧
      (∀ v, AsmOperand.key .b v ∈ l.operands → (c.bh.toNat * 2 ^ 64 + c.bl.toNat : Int) = v) ∧
      (∀ v, AsmOperand.key .bl v ∈ l.operands → (c.bl.toNat : Int) = v) ∧
      (¬ given .b → ¬ given .bl → c.bl = 0) ∧
      (∀ v, AsmOperand.key .bh v ∈ l.operands → (c.bh.toNat : Int) = v) ∧
      (¬ given .b → ¬ given .bh → c.bh = 0) ∧
      (∀ v, AsmOperand.key .c v ∈ l.operands →
        (c.c.toNat : Int) = v ∨ v < 0 ∧ c.c.toInt = v ∧ l.mnemonic.signedC = true) ∧
      (¬ given .c → c.c = 0)

/-! ### Control and tables (spec/40_control_and_tables.md) -/

/-- R100, R81: `NOP` completes with no effect on any state, in every mode; only its decode can fault. -/
def Obligations.NopChangesNothing : Prop :=
  Selects 0x00 (fun _ => .nop) ∧
  (∀ s : State, exec .nop s = .next s) ∧
  ∀ (cw : CommandWord) (s : State), s.mode = .ready → cw.extractLsb' 0 8 = 0x00 → cw.extractLsb' 12 20 ≠ 0 →
    ∃ t, runCommand cw s = .next t ∧ s.FaultedBy t .reservedBits 0x00

/-- R101 (with R31): `V0` is `pow5_bits(e)`, the bit length of `5^e` for `e ≥ 1`. -/
def Obligations.Pow5bitsGivesTheBitLength : Prop :=
  Selects 0x01 (fun c => .pow5bits c.c) ∧
  ∀ (e : Word32) (s : State), s.mode = .ready →
    (e.toNat ≤ 325 → ∃ (t : State) (n : Nat), exec (.pow5bits e) s = .next t ∧
      s.CompletedWith t { v0 := BitVec.ofNat 64 n } ∧ n < 2 ^ 10 ∧
      (e.toNat = 0 ∧ n = 0 ∨ 1 ≤ e.toNat ∧ 2 ^ (n - 1) < 5 ^ e.toNat ∧ 5 ^ e.toNat < 2 ^ n)) ∧
    (325 < e.toNat → ∃ t, exec (.pow5bits e) s = .next t ∧ s.FaultedBy t .indexRange 0x01)

/-- R102 (with R32): `V1:V0` is the entry `u = ⌊5^i · 2^(121 − n)⌋`, `n = pow5_bits(i)`. -/
def Obligations.Pow5rdReadsTheTable : Prop :=
  Selects 0x02 (fun c => .pow5rd c.c) ∧
  ∀ (i : Word32) (s : State), s.mode = .ready →
    (i.toNat ≤ 325 → ∃ (t : State) (n u : Nat), exec (.pow5rd i) s = .next t ∧
      s.CompletedWith t { v0 := BitVec.ofNat 64 (u % 2 ^ 64), v1 := BitVec.ofNat 64 (u / 2 ^ 64) } ∧
      u < 2 ^ 128 ∧
      (i.toNat = 0 ∧ n = 0 ∨ 1 ≤ i.toNat ∧ 2 ^ (n - 1) < 5 ^ i.toNat ∧ 5 ^ i.toNat < 2 ^ n) ∧
      u * 2 ^ n ≤ 5 ^ i.toNat * 2 ^ 121 ∧ 5 ^ i.toNat * 2 ^ 121 < (u + 1) * 2 ^ n) ∧
    (326 ≤ i.toNat → ∃ t, exec (.pow5rd i) s = .next t ∧ s.FaultedBy t .indexRange 0x02)

/-- R103 (with R34): `V1:V0` is the entry `u = ⌈2^(n − 1 + 122) / 5^q⌉`, `n = pow5_bits(q)`. -/
def Obligations.Pow5invrdReadsTheTable : Prop :=
  Selects 0x03 (fun c => .pow5invrd c.c) ∧
  ∀ (q : Word32) (s : State), s.mode = .ready →
    (q.toNat ≤ 291 → ∃ (t : State) (n u : Nat), exec (.pow5invrd q) s = .next t ∧
      s.CompletedWith t { v0 := BitVec.ofNat 64 (u % 2 ^ 64), v1 := BitVec.ofNat 64 (u / 2 ^ 64) } ∧
      u < 2 ^ 128 ∧
      (q.toNat = 0 ∧ n = 0 ∨ 1 ≤ q.toNat ∧ 2 ^ (n - 1) < 5 ^ q.toNat ∧ 5 ^ q.toNat < 2 ^ n) ∧
      2 ^ (n + 121) ≤ u * 5 ^ q.toNat ∧ u * 5 ^ q.toNat < 2 ^ (n + 121) + 5 ^ q.toNat) ∧
    (292 ≤ q.toNat → ∃ t, exec (.pow5invrd q) s = .next t ∧ s.FaultedBy t .indexRange 0x03)

/-- R33 (inferred in the spec from R32): the contract of `Pow5Rom`, cleared of denominators by `2^121`. -/
def Obligations.Pow5RomContract : Prop :=
  ∀ i, i ≤ 325 →
    pow5Rom i * 2 ^ pow5Bits i ≤ 5 ^ i * 2 ^ 121 ∧
    (i ≤ 52 → pow5Rom i * 2 ^ pow5Bits i = 5 ^ i * 2 ^ 121) ∧
    (53 ≤ i → 5 ^ i * 2 ^ 121 - pow5Rom i * 2 ^ pow5Bits i < 2 ^ pow5Bits i)

/-- R35 (inferred in the spec from R31 to R34): the ranges of the tables, and the headroom they leave. -/
def Obligations.TableEntriesLeaveHeadroom : Prop :=
  (∀ q, q ≤ 291 → 2 ^ 121 ≤ pow5InvRom q ∧ pow5InvRom q ≤ 2 ^ 122) ∧
  pow5InvRom 0 = 2 ^ 121 ∧ pow5Rom 0 = 2 ^ 121 ∧
  (∀ i, 1 ≤ i → i ≤ 325 → 2 ^ 120 ≤ pow5Rom i ∧ pow5Rom i < 2 ^ 121) ∧
  (∀ i m, i ≤ 325 → m < 2 ^ 64 → pow5Rom i < 2 ^ (128 - 6) ∧ m * pow5Rom i < 2 ^ 192) ∧
  ∀ q m, q ≤ 291 → m < 2 ^ 64 → pow5InvRom q < 2 ^ (128 - 6) ∧ m * pow5InvRom q < 2 ^ 192

/-! ### Primitives (spec/41_primitives.md) -/

/-- R124 (with R120): the low 64 bits of `⌊m · U / 2^s⌋`, for `64 ≤ s ≤ 127`; every other shift faults. -/
def Obligations.MulshiftMultipliesAndShifts : Prop :=
  Selects 0x10 (fun c => .mulshift c.a (c.bh ++ c.bl) c.c) ∧
  ∀ (m : U64) (u : U128) (sh : Word32) (s : State), s.mode = .ready →
    (∀ k : Nat, sh.toInt = k → 64 ≤ k → k ≤ 127 → ∃ t, exec (.mulshift m u sh) s = .next t ∧
      s.CompletedWith t { v0 := BitVec.ofNat 64 (m.toNat * u.toNat / 2 ^ k) }) ∧
    (sh.toInt < 64 ∨ 127 < sh.toInt →
      ∃ t, exec (.mulshift m u sh) s = .next t ∧ s.FaultedBy t .shiftRange 0x10)

/-- R121, R122 (inferred in the spec from R120): the two-lane structure computes `mulShift`, and its carry
never overflows. -/
def Obligations.LanesComputeMulShift : Prop :=
  ∀ m u sh, m < 2 ^ 64 → u < 2 ^ 128 → 64 ≤ sh → sh ≤ 127 →
    mulShiftSum m u = m * u / 2 ^ 64 ∧ mulShiftMid m u < 2 ^ 65 ∧ mulShiftSum m u < 2 ^ 128 ∧
    mulShiftLanes m u sh = mulShift m u sh

/-- R128 (with R126): the greatest `n` with `5^n` dividing `v`; 0 faults. -/
def Obligations.Pow5factorGivesTheGreatestPower : Prop :=
  Selects 0x11 (fun c => .pow5factor c.a) ∧
  ∀ (v : U64) (s : State), s.mode = .ready →
    (v ≠ 0 → ∃ (t : State) (n : Nat), exec (.pow5factor v) s = .next t ∧
      s.CompletedWith t { v0 := BitVec.ofNat 64 n } ∧ n ≤ 27 ∧ 5 ^ n ∣ v.toNat ∧ ¬ 5 ^ (n + 1) ∣ v.toNat) ∧
    (v = 0 → ∃ t, exec (.pow5factor v) s = .next t ∧ s.FaultedBy t .domainZero 0x11)

/-- R131 (with R130): `RF.BOOL` says whether `5^p` divides `v`; `v = 0` faults for every `p`. -/
def Obligations.Mulpow5TestsDivisibility : Prop :=
  Selects 0x12 (fun c => .mulpow5 c.a c.c) ∧
  ∀ (v : U64) (p : Word32) (s : State), s.mode = .ready →
    (v ≠ 0 → ∃ (t : State) (b : Bool), exec (.mulpow5 v p) s = .next t ∧
      s.CompletedWith t { rf := { bool := b } } ∧ (b = true ↔ 5 ^ p.toNat ∣ v.toNat)) ∧
    (v = 0 → ∃ t, exec (.mulpow5 v p) s = .next t ∧ s.FaultedBy t .domainZero 0x12)

/-- R133 (with R132): `RF.BOOL` says whether `v` has at least `p` trailing zero bits, of which 0 has 64. -/
def Obligations.Mulpow2TestsTrailingZeros : Prop :=
  Selects 0x13 (fun c => .mulpow2 c.a c.c) ∧
  ∀ (v : U64) (p : Word32) (s : State), s.mode = .ready →
    ∃ (t : State) (b : Bool), exec (.mulpow2 v p) s = .next t ∧ s.CompletedWith t { rf := { bool := b } } ∧
      (b = true ↔ p.toNat ≤ 64 ∧ 2 ^ p.toNat ∣ v.toNat)

/-- R137 (with R136): the number of decimal digits of `u`, 1 for 0. -/
def Obligations.DeclenCountsDigits : Prop :=
  Selects 0x14 (fun c => .declen c.a) ∧
  ∀ (u : U64) (s : State), s.mode = .ready →
    (u.toNat < 10 ^ 17 → ∃ (t : State) (n : Nat), exec (.declen u) s = .next t ∧
      s.CompletedWith t { v0 := BitVec.ofNat 64 n } ∧ 1 ≤ n ∧ n ≤ 17 ∧ u.toNat < 10 ^ n ∧
      (u = 0 ∧ n = 1 ∨ 10 ^ (n - 1) ≤ u.toNat)) ∧
    (10 ^ 17 ≤ u.toNat → ∃ t, exec (.declen u) s = .next t ∧ s.FaultedBy t .declenRange 0x14)

/-- R138 (inferred in the spec from R136): the cascade of comparisons with `10^1 .. 10^16` is the number of
digits. -/
def Obligations.CascadeIsTheDecimalLength : Prop :=
  ∀ u, u < 10 ^ 17 → decimalLengthCascade u = decimalLength u

/-- R142 (with R140): `V0` is the floor of `e · log10(2)`, sign extended, for `|e| ≤ 1650`. -/
def Obligations.Log10pow2GivesTheFloor : Prop :=
  Selects 0x15 (fun c => .log10pow2 c.c) ∧
  ∀ (e : Word32) (s : State), s.mode = .ready →
    (-1650 ≤ e.toInt → e.toInt ≤ 1650 → ∃ (t : State) (q : Nat), exec (.log10pow2 e) s = .next t ∧
      s.CompletedWith t { v0 := BitVec.ofInt 64 (if 0 ≤ e.toInt then (q : Int) else -(q + 1)) } ∧
      10 ^ q ≤ 2 ^ e.toInt.natAbs ∧ 2 ^ e.toInt.natAbs < 10 ^ (q + 1)) ∧
    (e.toInt < -1650 ∨ 1650 < e.toInt → ∃ t, exec (.log10pow2 e) s = .next t ∧ s.FaultedBy t .logRange 0x15)

/-- R146 (with R145): `V0` is the floor of `e · log10(5)`, sign extended, for `|e| ≤ 1650`. -/
def Obligations.Log10pow5GivesTheFloor : Prop :=
  Selects 0x16 (fun c => .log10pow5 c.c) ∧
  ∀ (e : Word32) (s : State), s.mode = .ready →
    (-1650 ≤ e.toInt → e.toInt ≤ 1650 → ∃ (t : State) (q : Nat), exec (.log10pow5 e) s = .next t ∧
      s.CompletedWith t { v0 := BitVec.ofInt 64 (if 0 ≤ e.toInt then (q : Int) else -(q + 1)) } ∧
      10 ^ q ≤ 5 ^ e.toInt.natAbs ∧ 5 ^ e.toInt.natAbs < 10 ^ (q + 1)) ∧
    (e.toInt < -1650 ∨ 1650 < e.toInt → ∃ t, exec (.log10pow5 e) s = .next t ∧ s.FaultedBy t .logRange 0x16)

/-- R31, R140, R145: the integer forms of the logarithms and of `pow5_bits`, which the spec infers, are the
real formulas it starts from. -/
def Obligations.IntegerLogarithmsAreRealFloors : Prop :=
  (∀ i : Nat, (pow5Bits i : Int) = ⌈(i : ℝ) * Real.logb 2 5⌉) ∧ pow5Bits 0 = 0 ∧
  (∀ i n : Nat, 1 ≤ i → (pow5Bits i = n ↔ 2 ^ (n - 1) < 5 ^ i ∧ 5 ^ i < 2 ^ n)) ∧
  ∀ e : Int, -1650 ≤ e → e ≤ 1650 →
    log10Pow2 e = ⌊(e : ℝ) * Real.logb 10 2⌋ ∧ log10Pow5 e = ⌊(e : ℝ) * Real.logb 10 5⌋ ∧
    (0 ≤ e → 0 ≤ log10Pow2 e ∧ 0 ≤ log10Pow5 e ∧
      ∀ q : Nat, ((q : Int) ≤ log10Pow2 e ↔ 10 ^ q ≤ 2 ^ e.toNat) ∧ ((q : Int) ≤ log10Pow5 e ↔ 10 ^ q ≤ 5 ^ e.toNat)) ∧
    (e < 0 → log10Pow2 e = -(log10Pow2 (-e) + 1) ∧ log10Pow5 e = -(log10Pow5 (-e) + 1))

/-! ### Exact integers (spec/42_exact_int.md) -/

/-- R161, through R162, which the spec infers from R160: `EXACTINT` finds exactly the integers below `2^53`,
as `m · 10^d` with no trailing zero in `m`; every other input of the domain gives zeros, and an input
outside it faults. -/
def Obligations.ExactintFindsIntegersBelow2Pow53 : Prop :=
  Selects 0x20 (fun c => .exactint c.a c.c) ∧
  ∀ (mant : U64) (exp : Word32) (s : State), s.mode = .ready →
    (FiniteNonZero mant exp →
      (∀ N : Nat, 1 ≤ N → N < 2 ^ 53 → inputValue mant.toNat exp.toNat = N →
        ∃ (t : State) (m d : Nat), exec (.exactint mant exp) s = .next t ∧
          s.CompletedWith t { v0 := BitVec.ofNat 64 m, re := BitVec.ofNat 32 d, rf := { exact := true } } ∧
          m * 10 ^ d = N ∧ m % 10 ≠ 0) ∧
      ((∀ N : Nat, 1 ≤ N → N < 2 ^ 53 → inputValue mant.toNat exp.toNat ≠ N) →
        ∃ t, exec (.exactint mant exp) s = .next t ∧ s.CompletedWith t {})) ∧
    (¬ FiniteNonZero mant exp → ∃ t, exec (.exactint mant exp) s = .next t ∧ s.FaultedBy t .inputDomain 0x20)

/-! ### The shortest-decimal core (spec/43_shortest.md) -/

/-- R170: `ConvDomain` is applied by the four conversion commands. -/
def Obligations.ConversionsCheckTheirDomain : Prop :=
  ∀ (mant : U64) (exp : Word32) (neg : Bool) (s : State), s.mode = .ready →
    2 ^ 52 ≤ mant.toNat ∨ 2047 ≤ exp.toNat ∨ mant.toNat = 0 ∧ exp.toNat = 0 →
    (∃ t, exec (.exactint mant exp) s = .next t ∧ s.FaultedBy t .inputDomain 0x20) ∧
    (∃ t, exec (.interval mant exp) s = .next t ∧ s.FaultedBy t .inputDomain 0x30) ∧
    (∃ t, exec (.f2d mant exp) s = .next t ∧ s.FaultedBy t .inputDomain 0x32) ∧
    ∃ t, exec (.convert mant exp neg) s = .next t ∧ s.FaultedBy t .inputDomain 0x41

/-- R174 to R176: `INTERVAL` where `e2 = n ≥ 0`. No scaled value needs more than 64 bits (R125, inferred in
the spec). -/
def Obligations.IntervalOnThePositiveBranch : Prop :=
  Selects 0x30 (fun c => .interval c.a c.c) ∧
  ∀ (mant : U64) (exp : Word32) (s : State), s.mode = .ready → FiniteNonZero mant exp → 1077 ≤ exp.toNat →
    let n := exp.toNat - 1077
    let mv := 4 * (2 ^ 52 + mant.toNat)
    let mm := mv - 1 - (if mant.toNat = 0 then 0 else 1)
    let accept := decide (mant.toNat % 2 = 0)
    ∃ (t : State) (L : Nat), 10 ^ L ≤ 2 ^ n ∧ 2 ^ n < 10 ^ (L + 1) ∧
      let q := L - (if n > 3 then 1 else 0)
      let sh := q + (122 + pow5Bits q - 1) - n
      let u := pow5InvRom q
      let vrTz := decide (q ≤ 21 ∧ mv % 5 = 0 ∧ 5 ^ q ∣ mv)
      let vmTz := decide (q ≤ 21 ∧ mv % 5 ≠ 0 ∧ accept = true ∧ 5 ^ q ∣ mm)
      let less := if q ≤ 21 ∧ mv % 5 ≠ 0 ∧ accept = false ∧ 5 ^ q ∣ mv + 2 then 1 else 0
      (mv + 2) * u / 2 ^ sh < 2 ^ 64 ∧
      exec (.interval mant exp) s = .next t ∧
      s.CompletedWith t
        { v0 := BitVec.ofNat 64 (mv * u / 2 ^ sh), v1 := BitVec.ofNat 64 ((mv + 2) * u / 2 ^ sh - less)
          v2 := BitVec.ofNat 64 (mm * u / 2 ^ sh), re := BitVec.ofInt 32 q
          rf := { accept := accept, vrTz := vrTz, vmTz := vmTz } }

/-- R177 to R179: `INTERVAL` where `e2 = −n < 0`, subnormal inputs included. That `q < n` and that no scaled
value needs more than 64 bits are inferences of the spec (R182, R125). -/
def Obligations.IntervalOnTheNegativeBranch : Prop :=
  ∀ (mant : U64) (exp : Word32) (s : State), s.mode = .ready → FiniteNonZero mant exp → exp.toNat < 1077 →
    let n := if exp.toNat = 0 then 1076 else 1077 - exp.toNat
    let m2 := if exp.toNat = 0 then mant.toNat else 2 ^ 52 + mant.toNat
    let mv := 4 * m2
    let mmShift := if mant.toNat ≠ 0 ∨ exp.toNat ≤ 1 then 1 else 0
    let mm := mv - 1 - mmShift
    let accept := decide (m2 % 2 = 0)
    ∃ (t : State) (L : Nat), 10 ^ L ≤ 5 ^ n ∧ 5 ^ n < 10 ^ (L + 1) ∧
      let q := L - (if n > 1 then 1 else 0)
      let i := n - q
      let sh := q + 121 - pow5Bits i
      let u := pow5Rom i
      let vrTz := decide (q ≤ 1 ∨ q < 63 ∧ 2 ^ (q - 1) ∣ mv)
      let vmTz := decide (q ≤ 1 ∧ accept = true ∧ mmShift = 1)
      let less := if q ≤ 1 ∧ accept = false then 1 else 0
      q < n ∧ (mv + 2) * u / 2 ^ sh < 2 ^ 64 ∧
      exec (.interval mant exp) s = .next t ∧
      s.CompletedWith t
        { v0 := BitVec.ofNat 64 (mv * u / 2 ^ sh), v1 := BitVec.ofNat 64 ((mv + 2) * u / 2 ^ sh - less)
          v2 := BitVec.ofNat 64 (mm * u / 2 ^ sh), re := BitVec.ofInt 32 ((q : Int) - n)
          rf := { accept := accept, vrTz := vrTz, vmTz := vmTz } }

/-- R182, an inference of the spec (its ranges, but for the largest `vp`): the interval is in order, its
decrements never wrap, and every table index and shift is in range. -/
def Obligations.IntervalStaysInRange : Prop :=
  ∀ (mant : U64) (exp : Word32) (s : State), s.mode = .ready → FiniteNonZero mant exp →
    (∃ t, exec (.interval mant exp) s = .next t ∧
      1 ≤ t.v2.toNat ∧ t.v2.toNat ≤ t.v0.toNat ∧ t.v0.toNat ≤ t.v1.toNat ∧ t.v2.toNat < t.v1.toNat ∧
      t.v1.toNat < 2 ^ 62 ∧ -325 ≤ t.re.toInt ∧ t.re.toInt ≤ 290) ∧
    let e2 := exponent2 exp.toNat
    let sc := scalingOf e2
    (-1076 : Int) ≤ e2 ∧ e2 ≤ 969 ∧
    (0 ≤ e2 → sc.q ≤ 290 ∧ 115 ≤ sc.sh ∧ sc.sh ≤ 121 ∧ sc.mul = pow5InvRom sc.q) ∧
    (e2 < 0 → sc.q ≤ 751 ∧ 114 ≤ sc.sh ∧ sc.sh ≤ 118 ∧
      ∃ i : Nat, (i : Int) = -e2 - sc.q ∧ 1 ≤ i ∧ i ≤ 325 ∧ sc.mul = pow5Rom i)

/-- R183, an inference of the spec, where the table entry is exact: `vr` is the floor of the input's value
over `10^e10`. -/
def Obligations.IntervalFloorsTheValueExactly : Prop :=
  ∀ (mant : U64) (exp : Word32) (s : State), s.mode = .ready → FiniteNonZero mant exp →
    908 ≤ exp.toNat → exp.toNat ≤ 1083 →
    ∃ t, exec (.interval mant exp) s = .next t ∧
      (t.v0.toNat : Int) = ⌊inputValue mant.toNat exp.toNat / 10 ^ t.re.toInt⌋

/-- R188: with `VMTZ` set and `vm = 0` the second loop would not end, and the command faults instead. -/
def Obligations.ShortestFaultsInsteadOfLooping : Prop :=
  ∀ (vr vp : U64) (e10 : Word32) (acc vrtz : Bool) (s : State), s.mode = .ready →
    ∃ t, exec (.shortest vr vp 0 e10 acc vrtz true) s = .next t ∧ s.FaultedBy t .nontermination 0x31

/-- R191 to R194, R196: `SHORTEST` on the common path, for every operand. The 100-step and the loop together
remove digits up to the first collapse, and `round_up` is that of the last digit removed. -/
def Obligations.ShortestOnTheCommonPath : Prop :=
  Selects 0x31 (fun c => .shortest c.a c.bl c.bh c.c c.acc c.vrtz c.vmtz) ∧
  ∀ (vr vp vm : U64) (e10 : Word32) (acc : Bool) (s : State), s.mode = .ready →
    ∃ r ≤ 19, FirstCollapse vp.toNat vm.toNat r ∧
      let up := vr.toNat / 10 ^ r = vm.toNat / 10 ^ r ∨ 1 ≤ r ∧ 5 ≤ vr.toNat / 10 ^ (r - 1) % 10
      (e10.toInt + r ≤ 2 ^ 31 - 1 → ∃ t, exec (.shortest vr vp vm e10 acc false false) s = .next t ∧
        s.CompletedWith t
          { v0 := BitVec.ofNat 64 (vr.toNat / 10 ^ r + if up then 1 else 0), v1 := BitVec.ofNat 64 r
            re := BitVec.ofInt 32 (e10.toInt + r) }) ∧
      (2 ^ 31 - 1 < e10.toInt + r →
        ∃ t, exec (.shortest vr vp vm e10 acc false false) s = .next t ∧ s.FaultedBy t .expRange 0x31)

/-- R187 to R190, R194, R196: `SHORTEST` on the general path, for every operand that does not loop. The first
loop removes `r1` digits; if all those removed from `vm` are 0 and `VMTZ` is set, the second goes on to
the end of `vm`'s trailing zeros. -/
def Obligations.ShortestOnTheGeneralPath : Prop :=
  ∀ (vr vp vm : U64) (e10 : Word32) (acc vrtz vmtz : Bool) (s : State), s.mode = .ready →
    (vrtz || vmtz) = true → ¬ (vmtz = true ∧ vm = 0) →
    ∃ r1 r : Nat, FirstCollapse vp.toNat vm.toNat r1 ∧ r ≤ 19 ∧
      let low := vmtz = true ∧ 10 ^ r1 ∣ vm.toNat
      (low → r1 ≤ r ∧ 10 ^ r ∣ vm.toNat ∧ ¬ 10 ^ (r + 1) ∣ vm.toNat) ∧ (¬ low → r = r1) ∧
      let last := if r = 0 then 0 else vr.toNat / 10 ^ (r - 1) % 10
      let exactHalf := vrtz = true ∧ (r = 0 ∨ 10 ^ (r - 1) ∣ vr.toNat)
      let tie := exactHalf ∧ last = 5 ∧ vr.toNat / 10 ^ r % 2 = 0
      let up := vr.toNat / 10 ^ r = vm.toNat / 10 ^ r ∧ (acc = false ∨ ¬ low) ∨ 5 ≤ last ∧ ¬ tie
      (e10.toInt + r ≤ 2 ^ 31 - 1 → ∃ t, exec (.shortest vr vp vm e10 acc vrtz vmtz) s = .next t ∧
        ∃ b : Bool, (b = true ↔ up) ∧ s.CompletedWith t
          { v0 := BitVec.ofNat 64 (vr.toNat / 10 ^ r + b.toNat), v1 := BitVec.ofNat 64 r
            re := BitVec.ofInt 32 (e10.toInt + r), rf := { general := true } }) ∧
      (2 ^ 31 - 1 < e10.toInt + r →
        ∃ t, exec (.shortest vr vp vm e10 acc vrtz vmtz) s = .next t ∧ s.FaultedBy t .expRange 0x31)

/-- R197, R198 (and R196's last sentence): `F2D` is `INTERVAL` fed to `SHORTEST`, with no fault on the domain. -/
def Obligations.F2dIsShortestOfInterval : Prop :=
  Selects 0x32 (fun c => .f2d c.a c.c) ∧
  ∀ (mant : U64) (exp : Word32) (s : State), s.mode = .ready →
    (FiniteNonZero mant exp →
      ∃ a b c, exec (.interval mant exp) s = .next a ∧
        exec (.shortest a.v0 a.v1 a.v2 a.re a.rf.accept a.rf.vrTz a.rf.vmTz) a = .next b ∧
        exec (.f2d mant exp) s = .next c ∧ b.sameResults c ∧
        s.CompletedWith c { v0 := b.v0, v1 := b.v1, re := b.re, rf := { general := a.rf.vrTz || a.rf.vmTz } }) ∧
    (¬ FiniteNonZero mant exp → ∃ t, exec (.f2d mant exp) s = .next t ∧ s.FaultedBy t .inputDomain 0x32)

/-- R199 without the absence of trailing zeros, and R205, an inference of the spec: the decimal `F2D` gives is
positive and has at most seventeen digits, after at most eighteen removals; 1.0 takes eighteen. The lower bound
of `RE` is one less than that of R197. -/
def Obligations.F2dGivesSeventeenDigits : Prop :=
  (∀ (mant : U64) (exp : Word32) (s : State), s.mode = .ready → FiniteNonZero mant exp →
    ∃ t, exec (.f2d mant exp) s = .next t ∧ t.status = { s.status with rvalid := true } ∧
      1 ≤ t.v0.toNat ∧ t.v0.toNat < 10 ^ 17 ∧ t.v1.toNat ≤ 18 ∧ -325 ≤ t.re.toInt ∧ t.re.toInt ≤ 308) ∧
  ∀ s : State, s.mode = .ready → ∃ t, exec (.f2d 0 1023) s = .next t ∧ t.v0 = 1 ∧ t.v1 = 18 ∧ t.re = 0

/-- R163, an inference of the spec: the fast path is a strict optimisation. Where `EXACTINT` finds the input,
`F2D` finds the same pair, and `CONVERT` gives the bytes `F2D` and `FMT` give on every input. -/
def Obligations.ExactPathAgreesWithTheFullSearch : Prop :=
  ∀ (mant : U64) (exp : Word32) (neg : Bool) (s : State), s.mode = .ready → FiniteNonZero mant exp →
    ∃ a b f c, exec (.exactint mant exp) s = .next a ∧ exec (.f2d mant exp) s = .next b ∧
      exec (.fmt b.v0 b.re neg) b = .next f ∧ exec (.convert mant exp neg) s = .next c ∧
      (a.rf.exact = true → a.v0 = b.v0 ∧ a.re = b.re) ∧
      f.status.fault = s.status.fault ∧ f.status.rvalid = true ∧
      c.v0 = b.v0 ∧ c.re = b.re ∧ c.ob = f.ob ∧ c.oblen = f.oblen

/-! ### The formatter (spec/44_format.md) -/

/-- R217, with R210 to R212: the checks of `FMT` in order, and the bytes. The byte codes are R57's, which the
spec takes from general knowledge (log 8). -/
def Obligations.FmtWritesScientificNotation : Prop :=
  Selects 0x40 (fun c => .fmt c.a c.c c.neg) ∧
  ∀ (m : U64) (e : Word32) (neg : Bool) (s : State), s.mode = .ready →
    let digit : Nat → Byte := fun d => BitVec.ofNat 8 (0x30 + d)
    let ds := (Nat.digits 10 m.toNat).reverse.map digit
    let x : Int := e.toInt + ds.length - 1
    (m = 0 ∨ 10 ^ 17 ≤ m.toNat → ∃ t, exec (.fmt m e neg) s = .next t ∧ s.FaultedBy t .mantRange 0x40) ∧
    (m ≠ 0 → m.toNat < 10 ^ 17 → 999 < x.natAbs →
      ∃ t, exec (.fmt m e neg) s = .next t ∧ s.FaultedBy t .expRange 0x40) ∧
    (m ≠ 0 → m.toNat < 10 ^ 17 → x.natAbs ≤ 999 → ∃ t, exec (.fmt m e neg) s = .next t ∧
      s.CompletedWith t
        { bytes :=
            (if neg then [0x2D] else []) ++
            (if ds.length = 1 then ds else ds.take 1 ++ [0x2E] ++ ds.drop 1) ++
            [0x65, if x < 0 then 0x2D else 0x2B] ++
            (if 100 ≤ x.natAbs then
              [digit (x.natAbs / 100), digit (x.natAbs / 10 % 10), digit (x.natAbs % 10)]
            else [digit (x.natAbs / 10), digit (x.natAbs % 10)]) })

/-- R216, and R215, an inference of the spec: the length of the output, which the buffer always holds, and its
alphabet. The byte codes are R57's, which the spec takes from general knowledge (log 8). -/
def Obligations.FmtLengthAndAlphabet : Prop :=
  ∀ (m : U64) (e : Word32) (neg : Bool) (s : State), s.mode = .ready → Formattable m.toNat e.toInt →
    let n := (Nat.digits 10 m.toNat).length
    ∃ t, exec (.fmt m e neg) s = .next t ∧
      t.oblen.toNat = neg.toNat + n + (if 2 ≤ n then 1 else 0) + 2 +
        (if 100 ≤ (e.toInt + n - 1).natAbs then 3 else 2) ∧
      5 ≤ t.oblen.toNat ∧ t.oblen.toNat ≤ 24 ∧ t.formattedTail.length = t.oblen.toNat ∧
      ∀ b ∈ t.formattedTail,
        0x30 ≤ b.toNat ∧ b.toNat ≤ 0x39 ∨ b = 0x2E ∨ b = 0x2B ∨ b = 0x2D ∨ b = 0x65

/-- R213, and R223's first sentence without its condition, both inferred in the spec: the bytes name the pair
and the sign. -/
def Obligations.FmtIsInjective : Prop :=
  ∀ (m m' : U64) (e e' : Word32) (neg neg' : Bool) (s s' : State), s.mode = .ready → s'.mode = .ready →
    Formattable m.toNat e.toInt → Formattable m'.toNat e'.toInt →
    ∃ t t', exec (.fmt m e neg) s = .next t ∧ exec (.fmt m' e' neg') s' = .next t' ∧
      (t.formattedTail = t'.formattedTail → m = m' ∧ e = e' ∧ neg = neg')

/-- R219, R220: `CONVERT` is `EXACTINT`, or `F2D` where that declines, and then `FMT`, which cannot fault
here. -/
def Obligations.ConvertIsThePipeline : Prop :=
  Selects 0x41 (fun c => .convert c.a c.c c.neg) ∧
  ∀ (mant : U64) (exp : Word32) (neg : Bool) (s : State), s.mode = .ready →
    (FiniteNonZero mant exp →
      ∃ t a, exec (.convert mant exp neg) s = .next t ∧ exec (.exactint mant exp) s = .next a ∧
        (a.rf.exact = true → ∃ f, exec (.fmt a.v0 a.re neg) a = .next f ∧ f.status.rvalid = true ∧
          s.CompletedWith t { v0 := a.v0, re := a.re, rf := { exact := true }, bytes := f.formattedTail }) ∧
        (a.rf.exact = false → ∃ b f, exec (.f2d mant exp) s = .next b ∧
          exec (.fmt b.v0 b.re neg) b = .next f ∧ f.status.rvalid = true ∧
          s.CompletedWith t
            { v0 := b.v0, v1 := b.v1, re := b.re, rf := { general := b.rf.general }, bytes := f.formattedTail })) ∧
    (¬ FiniteNonZero mant exp → ∃ t, exec (.convert mant exp neg) s = .next t ∧ s.FaultedBy t .inputDomain 0x41)

/-! ### Results, status and faults (spec/10_state.md, spec/60_exceptions.md) -/

/-- R26's last sentence, and R230: a command's outcome depends on its operands alone. Two `READY` states
either both complete, with the same result registers, or both fault, with the same cause. -/
def Obligations.OutcomeDependsOnOperandsAlone : Prop :=
  ∀ (i : Instr) (s s' : State), i ≠ .nop → s.mode = .ready → s'.mode = .ready →
    (∃ t t', exec i s = .next t ∧ exec i s' = .next t' ∧ t.sameResults t' ∧
      t.status = { s.status with rvalid := true } ∧ t'.status = { s'.status with rvalid := true } ∧
      t.mode = .ready ∧ t'.mode = .ready) ∨
    ∃ t t' c, exec i s = .next t ∧ exec i s' = .next t' ∧ s.FaultedBy t c i.opcode ∧ s'.FaultedBy t' c i.opcode

/-- R231, R237: which causes an operation's checks report. -/
def Obligations.OperationsReportTheirOwnCauses : Prop :=
  ∀ (i : Instr) (s t : State), s.mode = .ready → exec i s = .next t → t.mode = .faulted →
    t.status.cause ∈ operationCauses i.mnemonic

/-- R232 (what it fixes): every command word that takes the unit to `FAULTED` writes `FAULT`, a cause, its own
`OP` field and `RVALID = 0`, and nothing of the port. -/
def Obligations.FaultEntryRecordsTheCommand : Prop :=
  ∀ (cw : CommandWord) (s t : State), s.mode = .ready → runCommand cw s = .next t → t.mode = .faulted →
    t.status.fault = true ∧ t.status.rvalid = false ∧ t.status.cause ≠ .none ∧
    t.status.fop = cw.extractLsb' 0 8 ∧ s.samePort t

/-- R233, R241, R268: in `FAULTED` a command is discarded unchecked: `rsp_valid` pulses, and neither the
results, `STATUS` nor `MODE` change, on any edge without reset. -/
def Obligations.FaultedDiscardsCommands : Prop :=
  ∀ s : State, s.mode = .faulted →
    (∀ cw : CommandWord, ∃ t, completeCommand cw s = .next t ∧ t.rspValid = true ∧ s.sameResults t ∧
      t.status = s.status ∧ t.mode = s.mode) ∧
    (s.nextInput.rst = false → ∃ t, step s = .next t ∧ s.sameResults t ∧ t.status = s.status ∧
      t.mode = .faulted)

/-- R28: the only changes of `STATUS` there are. -/
def Obligations.StatusChangesOnlyByItsRules : Prop :=
  (∀ s t : State, step s = .next t →
    t.status = s.status ∨
    (s.mode = .ready ∧ t.mode = .ready ∧ t.rspValid = true ∧ t.status = { s.status with rvalid := true }) ∨
    (s.mode = .ready ∧ t.mode = .faulted ∧ t.rspValid = true ∧ ∃ c op, c ≠ .none ∧
      t.status = { fault := true, rvalid := false, cause := c, fop := op }) ∨
    (s.nextInput.rst = true ∧ t.mode = .ready ∧
      t.status = { fault := false, rvalid := false, cause := .none, fop := 0 })) ∧
  ∀ (i : Instr) (s t : State), i ≠ .nop → s.mode = .ready → exec i s = .next t → t.mode = .ready →
    t.status = { s.status with rvalid := true }

/-- R24, R27, R56: the words a host reads, with their hardwired bits, and the lanes of the port `ob`. -/
def Obligations.OutputPortsShowTheRegisters : Prop :=
  ∀ s : State,
    let o := s.outputs
    o.status.getLsbD 0 = s.status.fault ∧ o.status.getLsbD 1 = s.status.rvalid ∧
    o.status.extractLsb' 2 2 = 0 ∧ o.status.extractLsb' 4 4 = s.status.cause.code ∧
    o.status.extractLsb' 8 8 = s.status.fop ∧
    o.rf.getLsbD 0 = s.rf.bool ∧ o.rf.getLsbD 1 = s.rf.exact ∧ o.rf.getLsbD 2 = s.rf.accept ∧
    o.rf.getLsbD 3 = s.rf.vrTz ∧ o.rf.getLsbD 4 = s.rf.vmTz ∧ o.rf.getLsbD 5 = s.rf.general ∧
    o.rf.extractLsb' 6 2 = 0 ∧
    ∀ (k : Nat) (h : k < 24), o.ob.extractLsb' (8 * k) 8 = s.ob[k]

/-- R231: the codes of the causes. -/
def Obligations.CauseCodesAreTheTable : Prop :=
  [Cause.none, .illegalOp, .reservedBits, .shiftRange, .domainZero, .declenRange, .logRange, .indexRange,
    .inputDomain, .expRange, .mantRange, .nontermination].map (fun c => c.code.toNat) = List.range 12 ∧
  ∀ c d : Cause, c.code = d.code → c = d

/-! ### The clock, the port and reset (spec/10_state.md R40, spec/70_reset_and_hazards.md) -/

/-- A step at the last edge of a command's latency runs the instruction its word decodes to, after the inputs
of that edge are passed, and answers on the port (log 3). -/
def Obligations.StepRunsTheDecodedInstruction : Prop :=
  ∀ (s : State) (cw : CommandWord) (i : Instr), decode cw = .ok i → s.nextInput.rst = false →
    s.inFlight = some { cmd := cw, remaining := 1 } →
    ∃ t, exec i { s with host := s.host.tail } = .next t ∧
      step s = .next { t with inFlight := none, cmdReady := true, rspValid := true }

/-- R40, in the model's clock (log 3): an accepted command's whole effect happens at once, `LATENCY_CYCLES`
edges from acceptance on, whatever the host does meanwhile short of reset; before that the results and
`STATUS` keep their values and `cmd_ready` is 0. -/
def Obligations.AcceptedCommandCompletesAfterItsLatency : Prop :=
  ∀ (s : State) (cw : CommandWord) (rest : List PortInput), s.inFlight = none → s.cmdReady = true →
    s.host = { rst := false, cmdValid := true, cmd := cw } :: rest →
    (∀ p ∈ rest.take (Config.latencyCycles cw - 1), p.rst = false) →
    (∃ t, runCommand cw s = .next t ∧
      core.run (Config.latencyCycles cw) s =
        .next { t with inFlight := none, cmdReady := true, rspValid := true
                       host := s.host.drop (Config.latencyCycles cw) }) ∧
    ∀ k, 1 ≤ k → k < Config.latencyCycles cw →
      core.run k s =
        .next { s with inFlight := some { cmd := cw, remaining := Config.latencyCycles cw - k }
                       cmdReady := false, rspValid := false, host := s.host.drop k }

/-- R265: a command word presented while `cmd_ready = 0` is not accepted: it changes nothing. -/
def Obligations.UnreadyPortIgnoresCommands : Prop :=
  ∀ (s : State) (p q : PortInput) (rest : List PortInput), s.cmdReady = false → p.rst = false → q.rst = false →
    step { s with host := p :: rest } = step { s with host := q :: rest }

/-- R247: with no command in flight and none presented, all state survives. The levels after the edge,
`cmd_ready = 1` (also from 0 after a reset) and `rsp_valid = 0`, are the model's clock convention (log 3). -/
def Obligations.IdleCyclesKeepTheState : Prop :=
  ∀ s : State, s.inFlight = none → s.nextInput.rst = false → s.nextInput.cmdValid = false →
    step s = .next { s with host := s.host.tail, cmdReady := true, rspValid := false }

/-- R260 (`cmd_ready` in the model's clock, log 3): reset clears `STATUS` and `MODE` from any state, abandons
the command in flight, and leaves the content of the result registers. -/
def Obligations.ResetClearsStatusFromAnyState : Prop :=
  ∀ s : State, s.nextInput.rst = true →
    ∃ t, step s = .next t ∧ t.status.word = 0 ∧ t.mode = .ready ∧ t.inFlight = none ∧ t.cmdReady = false ∧
      t.rspValid = false ∧ s.sameResults t ∧ t.host = s.host.tail ∧
      (t.nextInput.rst = false → ∃ u, step t = .next u ∧ u.cmdReady = true ∧ u.rspValid = false ∧
        u.status.word = 0 ∧ u.mode = .ready ∧ u.inFlight = none ∧ t.sameResults u)

/-- R261 (the values the spec gives), and the invariants hold there. -/
def Obligations.ResetStateIsConsistent : Prop :=
  State.reset.status.word = 0 ∧ State.reset.mode = .ready ∧ State.reset.rf.word.extractLsb' 6 2 = 0 ∧
  State.reset.cmdReady = true ∧ State.reset.rspValid = false ∧ State.reset.inFlight = none ∧
  State.reset.Consistent

/-- Every step answers a next state: no command stops the machine (R233, and R271, an inference of the spec). -/
def Obligations.StepAlwaysAnswersANextState : Prop :=
  ∀ s : State, ∃ t, step s = .next t

/-- R27, R29: `MODE` and `STATUS` stay in agreement. -/
def Obligations.StepKeepsStatusConsistent : Prop :=
  ∀ s t : State, s.statusConsistent → step s = .next t → t.statusConsistent

/-- R40: at most one command is in flight, `cmd_ready` is 0 meanwhile, and its end draws nearer. -/
def Obligations.StepKeepsPortConsistent : Prop :=
  ∀ s t : State, s.portConsistent → step s = .next t → t.portConsistent

/-- R25, R59, R215: while the results have a value, `OBLEN ≤ 24` and the bytes from `OBLEN` on read 0. -/
def Obligations.StepKeepsBufferConsistent : Prop :=
  ∀ s t : State, s.bufferConsistent → step s = .next t → t.bufferConsistent

end
end

