-- ==== Sys2Proof/Laws/Decode.lean ====
section
/-! SUPPORT. The fields of a command word and its encoding (30_encoding.md R71), and the operation
codes (R79). -/

namespace Sys2Proof

/-! ### Fields of a concatenation -/

theorem extractLsb'_append_low {n m : Nat} (x : BitVec n) (y : BitVec m) :
    (x ++ y).extractLsb' 0 m = y := by
  apply BitVec.eq_of_getLsbD_eq
  intro i hi
  simp [BitVec.getLsbD_append, hi]

theorem extractLsb'_append_high {n m k len : Nat} (x : BitVec n) (y : BitVec m) (h : m ≤ k) :
    (x ++ y).extractLsb' k len = x.extractLsb' (k - m) len := by
  apply BitVec.eq_of_getLsbD_eq
  intro i hi
  simp [BitVec.getLsbD_append, hi, show ¬ k + i < m by omega, show k + i - m = k - m + i by omega]

theorem extractLsb'_whole {n : Nat} (x : BitVec n) : x.extractLsb' 0 n = x := by
  apply BitVec.eq_of_getLsbD_eq
  intro i hi
  simp [hi]

theorem getLsbD_append_low {n m k : Nat} (x : BitVec n) (y : BitVec m) (h : k < m) :
    (x ++ y).getLsbD k = y.getLsbD k := by
  simp [BitVec.getLsbD_append, h]

theorem getLsbD_append_high {n m k : Nat} (x : BitVec n) (y : BitVec m) (h : m ≤ k) :
    (x ++ y).getLsbD k = x.getLsbD (k - m) := by
  simp [BitVec.getLsbD_append, show ¬ k < m by omega]

theorem getLsbD_ofBool_zero (b : Bool) : (BitVec.ofBool b).getLsbD 0 = b := by
  cases b <;> rfl

/-- The control word of a command word is that of its fields. -/
theorem Command.toWord_controlWord (c : Command) : c.toWord.extractLsb' 0 32 = c.controlWord :=
  extractLsb'_append_low _ _

/-- The operation code in the control word. -/
theorem Command.controlWord_op (c : Command) : c.controlWord.extractLsb' 0 8 = c.op :=
  extractLsb'_append_low _ _

/-- The flags in the control word, from the least significant on. -/
theorem Command.controlWord_neg (c : Command) : c.controlWord.getLsbD 8 = c.neg :=
  (getLsbD_append_high _ _ (by omega)).trans <|
    (getLsbD_append_low _ _ (by omega)).trans (getLsbD_ofBool_zero _)

theorem Command.controlWord_acc (c : Command) : c.controlWord.getLsbD 9 = c.acc :=
  (getLsbD_append_high _ _ (by omega)).trans <| (getLsbD_append_high _ _ (by omega)).trans <|
    (getLsbD_append_low _ _ (by omega)).trans (getLsbD_ofBool_zero _)

theorem Command.controlWord_vrtz (c : Command) : c.controlWord.getLsbD 10 = c.vrtz :=
  (getLsbD_append_high _ _ (by omega)).trans <| (getLsbD_append_high _ _ (by omega)).trans <|
    (getLsbD_append_high _ _ (by omega)).trans <|
    (getLsbD_append_low _ _ (by omega)).trans (getLsbD_ofBool_zero _)

theorem Command.controlWord_vmtz (c : Command) : c.controlWord.getLsbD 11 = c.vmtz :=
  (getLsbD_append_high _ _ (by omega)).trans <| (getLsbD_append_high _ _ (by omega)).trans <|
    (getLsbD_append_high _ _ (by omega)).trans <| (getLsbD_append_high _ _ (by omega)).trans <|
    (getLsbD_append_low _ _ (by omega)).trans (getLsbD_ofBool_zero _)

/-- The reserved field in the control word. -/
theorem Command.controlWord_rsv (c : Command) : c.controlWord.extractLsb' 12 20 = c.rsv :=
  (extractLsb'_append_high _ _ (by omega)).trans <| (extractLsb'_append_high _ _ (by omega)).trans <|
    (extractLsb'_append_high _ _ (by omega)).trans <| (extractLsb'_append_high _ _ (by omega)).trans <|
    (extractLsb'_append_high _ _ (by omega)).trans (extractLsb'_whole _)

/-- A bit of the control word is that bit of the command word. -/
theorem Command.toWord_lowBit (c : Command) {k : Nat} (h : k < 32) :
    c.toWord.getLsbD k = c.controlWord.getLsbD k :=
  getLsbD_append_low _ _ h

/-- A field of the control word is that field of the command word. -/
theorem Command.toWord_lowField (c : Command) (k len : Nat) (h : k + len ≤ 32) :
    c.toWord.extractLsb' k len = c.controlWord.extractLsb' k len := by
  apply BitVec.eq_of_getLsbD_eq
  intro i hi
  rw [BitVec.getLsbD_extractLsb', BitVec.getLsbD_extractLsb', c.toWord_lowBit (by omega)]

/-- Reading the fields of a word written from fields gives them back (R71): no bit of a field is
dropped. -/
theorem Command.ofWord_toWord (c : Command) : Command.ofWord c.toWord = c := by
  have hc : c.toWord.extractLsb' 32 32 = c.c :=
    (extractLsb'_append_high _ _ (by omega)).trans (extractLsb'_append_low _ _)
  have ha : c.toWord.extractLsb' 64 64 = c.a :=
    (extractLsb'_append_high _ _ (by omega)).trans <| (extractLsb'_append_high _ _ (by omega)).trans
      (extractLsb'_append_low _ _)
  have hl : c.toWord.extractLsb' 128 64 = c.bl :=
    (extractLsb'_append_high _ _ (by omega)).trans <| (extractLsb'_append_high _ _ (by omega)).trans <|
      (extractLsb'_append_high _ _ (by omega)).trans (extractLsb'_append_low _ _)
  have hh : c.toWord.extractLsb' 192 64 = c.bh :=
    (extractLsb'_append_high _ _ (by omega)).trans <| (extractLsb'_append_high _ _ (by omega)).trans <|
      (extractLsb'_append_high _ _ (by omega)).trans <| (extractLsb'_append_high _ _ (by omega)).trans
      (extractLsb'_whole _)
  have hop := (c.toWord_lowField 0 8 (by omega)).trans c.controlWord_op
  have hrsv := (c.toWord_lowField 12 20 (by omega)).trans c.controlWord_rsv
  have hneg := (c.toWord_lowBit (k := 8) (by omega)).trans c.controlWord_neg
  have hacc := (c.toWord_lowBit (k := 9) (by omega)).trans c.controlWord_acc
  have hvr := (c.toWord_lowBit (k := 10) (by omega)).trans c.controlWord_vrtz
  have hvm := (c.toWord_lowBit (k := 11) (by omega)).trans c.controlWord_vmtz
  unfold Command.ofWord
  rw [hc, ha, hl, hh, hop, hrsv, hneg, hacc, hvr, hvm]

/-- The decoder on a word written from fields. -/
theorem decode_toWord (c : Command) : decode c.toWord = c.decode := by
  unfold decode
  rw [Command.ofWord_toWord]

/-! ### Operation codes -/

/-- An operation's own code selects it. -/
theorem Mnemonic.ofOpcode_opcode (m : Mnemonic) : Mnemonic.ofOpcode m.opcode = some m := by
  cases m <;> rfl

/-- Only an operation's own code selects it (R72, R79). -/
theorem Mnemonic.opcode_of_ofOpcode {op : BitVec 8} {m : Mnemonic} (h : Mnemonic.ofOpcode op = some m) :
    op = m.opcode := by
  have key : ∀ op : BitVec 8, (Mnemonic.ofOpcode op).all (fun m => op == m.opcode) = true := by
    decide +kernel
  have := key op
  rw [h] at this
  simpa using this

/-- Decoding a command with a defined `OP` and `RSV = 0`. -/
theorem Command.decode_ok {c : Command} {m : Mnemonic} (hop : c.op = m.opcode) (hrsv : c.rsv = 0) :
    c.decode = .ok (c.instr m) := by
  simp [Command.decode, hop, Mnemonic.ofOpcode_opcode, hrsv]

/-- Decoding a command word whose `OP` field is an operation's code and whose `RSV` is 0. -/
theorem decode_of_op {cw : CommandWord} (m : Mnemonic) (hop : cw.extractLsb' 0 8 = m.opcode)
    (hrsv : cw.extractLsb' 12 20 = 0) : decode cw = .ok ((Command.ofWord cw).instr m) :=
  Command.decode_ok (c := Command.ofWord cw) hop hrsv

end Sys2Proof
end

