-- ==== Sys2Proof/Machine/HostBus.lean ====
section
/-! DEFINITION. How a host's bus reaches the block, under the open parameter `HOST_MAP` (spec/00_scope.md
R8; spec/20_memory.md R53, R61; log 7): a read gives a byte lane of a port, and a write drives a byte lane
of the command port. A wider transfer is several of them, so no bus width is fixed. The result and status
ports cannot be written (spec/10_state.md R22 to R27). -/

namespace Sys2Proof.Machine

/-! ### Reading -/

/-- The width of an output port (R39). -/
def outputWidth : OutputPort → Nat
  | .cmdReady => 1
  | .rspValid => 1
  | .status => 16
  | .v0 => 64
  | .v1 => 64
  | .v2 => 64
  | .re => 32
  | .rf => 8
  | .ob => 192
  | .oblen => 5

/-- The level of an output port as an unsigned number. -/
def OutputPorts.value (o : OutputPorts) : OutputPort → Nat
  | .cmdReady => o.cmdReady.toNat
  | .rspValid => o.rspValid.toNat
  | .status => o.status.toNat
  | .v0 => o.v0.toNat
  | .v1 => o.v1.toNat
  | .v2 => o.v2.toNat
  | .re => o.re.toNat
  | .rf => o.rf.toNat
  | .ob => o.ob.toNat
  | .oblen => o.oblen.toNat

/-- How many bits of a lane show the level of its port: none of an input port, which gives no level out,
and none beyond a port's width. -/
def shownBits (b : PortByte) : Nat :=
  match b.port with
  | .input _ => 0
  | .output p => min 8 (outputWidth p - 8 * b.lane)

/-- The eight bits of a port from bit `8k` on. -/
def State.laneBits (s : State) (b : PortByte) : Byte :=
  match b.port with
  | .input _ => 0
  | .output p => BitVec.ofNat 8 (s.outputs.value p / 2 ^ (8 * b.lane))

/-- The byte a host reads on a lane of a port. DESIGN CHOICE (log 7): the bits above the port's width, in
its last lane or in a lane past its end, and every bit read on the command port, are free values fixed for
a build (`Config.laneFill`). The spec leaves lanes to `HOST_MAP` and does not say what they read as. -/
def State.portByte (s : State) (b : PortByte) : Byte :=
  let shown : Byte := (BitVec.allOnes (shownBits b)).setWidth 8
  s.laneBits b &&& shown ||| Config.laneFill b &&& ~~~shown

/-- The byte a host reads at an address of its own map, if the map places a port there (R53, R61). -/
def State.hostReadByte (s : State) (addr : Nat) : Option Byte :=
  (Config.hostMap addr).map s.portByte

/-! ### Writing -/

/-- The eight bits of lane 0 of a command word. -/
def laneMask : CommandWord := (BitVec.allOnes 8).setWidth 256

/-- `w` with the byte `b` on the lane `k`; a lane past the end of the word is no part of it. -/
def setWordLane (w : CommandWord) (k : Nat) (b : Byte) : CommandWord :=
  w &&& ~~~(laneMask <<< (8 * k)) ||| b.setWidth 256 <<< (8 * k)

/-- The levels of the input pins with a byte driven on one lane. `cmd_valid` is bit 0 of its one lane. A lane
of an output port drives nothing: the host cannot write it (R22 to R27). -/
def PortInput.drive (pin : PortInput) (l : PortByte) (b : Byte) : PortInput :=
  match l.port with
  | .input .cmd => { pin with cmd := setWordLane pin.cmd l.lane b }
  | .input .cmdValid => if l.lane = 0 then { pin with cmdValid := b.getLsbD 0 } else pin
  | .output _ => pin

/-- A bus write of one byte changes the levels of the command port at the coming edge, if the map places
one of its lanes there. Nothing in the block changes until that edge. -/
def State.hostWriteByte (s : State) (addr : Nat) (b : Byte) : State :=
  match Config.hostMap addr with
  | some l => { s with host := s.nextInput.drive l b :: s.host.tail }
  | none => s

/-- A bus transfer of several bytes before one edge, in order: of two bytes on one lane the later stays
(DESIGN CHOICE, log 7). -/
def State.hostWrite (s : State) (bytes : List (Nat × Byte)) : State :=
  bytes.foldl (fun s ab => s.hostWriteByte ab.1 ab.2) s

end Sys2Proof.Machine
end

