-- ==== Sys2Proof/Laws/HostBus.lean ====
section
/-! SUPPORT. What a host's bus sees and drives (spec/00_scope.md R8, spec/20_memory.md R53). -/

namespace Sys2Proof.Machine

/-- A bit of a lane that the port has is that bit of the port; every other bit is free (log 7). -/
theorem portByte_getLsbD (s : State) (b : PortByte) (i : Nat) (hi : i < 8) :
    (s.portByte b).getLsbD i =
      if i < shownBits b then (s.laneBits b).getLsbD i else (Config.laneFill b).getLsbD i := by
  unfold State.portByte
  by_cases h : i < shownBits b <;> simp [hi, h]

/-- A shown bit of an output port's lane is that bit of the port. -/
theorem portByte_shows_output (s : State) (p : OutputPort) (k i : Nat) (hi : i < 8)
    (h : 8 * k + i < outputWidth p) :
    (s.portByte { port := .output p, lane := k }).getLsbD i = (s.outputs.value p).testBit (8 * k + i) := by
  have hs : i < shownBits { port := .output p, lane := k } := by
    simp only [shownBits]
    omega
  rw [portByte_getLsbD s _ i hi, if_pos hs]
  rw [State.laneBits, BitVec.getLsbD_ofNat, Nat.testBit_div_two_pow, Nat.add_comm]
  simp [hi]

@[simp] theorem laneMask_getLsbD (i : Nat) : laneMask.getLsbD i = decide (i < 8) := by
  rw [laneMask, BitVec.getLsbD_setWidth, BitVec.getLsbD_allOnes]
  by_cases h : i < 8 <;> simp [h]
  omega

/-- Writing a lane of the command word sets its eight bits and keeps every other bit. -/
theorem setWordLane_getLsbD (w : CommandWord) (k : Nat) (b : Byte) (j : Nat) (hj : j < 256) :
    (setWordLane w k b).getLsbD j =
      if 8 * k ≤ j ∧ j < 8 * k + 8 then b.getLsbD (j - 8 * k) else w.getLsbD j := by
  rw [setWordLane, BitVec.getLsbD_or, BitVec.getLsbD_and, BitVec.getLsbD_not, BitVec.getLsbD_shiftLeft,
    BitVec.getLsbD_shiftLeft, BitVec.getLsbD_setWidth, laneMask_getLsbD]
  by_cases h1 : j < 8 * k
  · simp [hj, h1, show ¬ 8 * k ≤ j by omega]
  · by_cases h2 : j < 8 * k + 8
    · simp [hj, h1, h2, show 8 * k ≤ j by omega, show j - 8 * k < 8 by omega, show j - 8 * k < 256 by omega]
    · have h3 : b.getLsbD (j - 8 * k) = false := BitVec.getLsbD_of_ge _ _ (by omega)
      simp [hj, h1, h2, show ¬ j - 8 * k < 8 by omega, h3]

@[simp] theorem drive_rst (pin : PortInput) (l : PortByte) (b : Byte) : (pin.drive l b).rst = pin.rst := by
  unfold PortInput.drive
  split <;> (try split) <;> rfl

/-- Driving a lane of `cmd` changes `cmd` alone. -/
@[simp] theorem drive_cmd (pin : PortInput) (k : Nat) (b : Byte) :
    pin.drive { port := .input .cmd, lane := k } b = { pin with cmd := setWordLane pin.cmd k b } := rfl

/-- Driving `cmd_valid` changes `cmd_valid` alone. -/
@[simp] theorem drive_cmdValid (pin : PortInput) (b : Byte) :
    pin.drive { port := .input .cmdValid, lane := 0 } b = { pin with cmdValid := b.getLsbD 0 } := rfl

/-- The host cannot write an output port (R22 to R27). -/
@[simp] theorem drive_output (pin : PortInput) (p : OutputPort) (k : Nat) (b : Byte) :
    pin.drive { port := .output p, lane := k } b = pin := rfl

/-- A bus transfer changes nothing but the input levels at the coming edge. -/
theorem hostWrite_frame (s : State) (bytes : List (Nat × Byte)) :
    ∃ hs, s.hostWrite bytes = { s with host := hs } ∧ hs.tail = s.host.tail := by
  unfold State.hostWrite
  induction bytes generalizing s with
  | nil => exact ⟨s.host, rfl, rfl⟩
  | cons ab rest ih =>
    obtain ⟨hs, e, ht⟩ := ih (s.hostWriteByte ab.1 ab.2)
    refine ⟨hs, ?_, ht.trans ?_⟩
    · rw [List.foldl_cons, e]
      unfold State.hostWriteByte
      split <;> rfl
    · unfold State.hostWriteByte
      split <;> rfl

end Sys2Proof.Machine
end

