-- ==== Sys2Proof/Laws/Loops.lean ====
section
/-! SUPPORT. What the loops of Step 4 and of the exact-integer path compute, in closed form, and that
their fuel is enough for `u64` values (43_shortest.md R187, R188, R192, R195; 42_exact_int.md R160). -/

namespace Sys2Proof.Machine

theorem div_pow_succ (v r : Nat) : v / 10 ^ (r + 1) = v / 10 / 10 ^ r := by
  rw [pow_succ', Nat.div_div_eq_div_mul]

theorem pow_succ_dvd_iff (v r : Nat) : 10 ^ (r + 1) ∣ v ↔ v % 10 = 0 ∧ 10 ^ r ∣ v / 10 := by
  constructor
  · intro h
    have h10 : 10 ∣ v := dvd_trans (by simp [pow_succ']) h
    obtain ⟨w, rfl⟩ := h10
    rw [pow_succ', Nat.mul_dvd_mul_iff_left (by omega)] at h
    simpa using h
  · rintro ⟨h1, h2⟩
    obtain ⟨w, rfl⟩ := Nat.dvd_of_mod_eq_zero h1
    rw [Nat.mul_div_cancel_left _ (by omega)] at h2
    rw [pow_succ']
    exact Nat.mul_dvd_mul_left 10 h2

/-! ### The common path's loop -/

theorem firstCollapse_unique {vp vm r r' : Nat} (h : FirstCollapse vp vm r) (h' : FirstCollapse vp vm r') :
    r = r' := by
  rcases Nat.lt_trichotomy r r' with hlt | rfl | hlt
  · have := h'.2 r hlt
    have := h.1
    omega
  · rfl
  · have := h.2 r' hlt
    have := h'.1
    omega

theorem firstCollapse_zero {vp vm : Nat} (h : ¬ vp / 10 > vm / 10) : FirstCollapse vp vm 0 :=
  ⟨by simpa using h, by simp⟩

theorem firstCollapse_succ {vp vm r : Nat} (h : vp / 10 > vm / 10) (hr : FirstCollapse (vp / 10) (vm / 10) r) :
    FirstCollapse vp vm (r + 1) := by
  refine ⟨by rw [div_pow_succ, div_pow_succ vm]; exact hr.1, fun j hj => ?_⟩
  cases j with
  | zero => simpa using h
  | succ j =>
    rw [div_pow_succ, div_pow_succ vp]
    exact hr.2 j (by omega)

/-- The common path's loop (R192): it removes digits up to the first collapse, and `round_up` reflects
the last removal only. -/
theorem commonLoop_spec (fuel : Nat) (c : CommonLoop) (h : c.vp < 10 ^ fuel) :
    ∃ r, FirstCollapse c.vp c.vm r ∧ commonLoop fuel c =
      { vr := c.vr / 10 ^ r, vp := c.vp / 10 ^ r, vm := c.vm / 10 ^ r, removed := c.removed + r,
        roundUp := if r = 0 then c.roundUp else decide (c.vr / 10 ^ (r - 1) % 10 ≥ 5) } := by
  induction fuel generalizing c with
  | zero =>
    refine ⟨0, firstCollapse_zero ?_, by simp [commonLoop]⟩
    simp at h
    simp [h]
  | succ fuel ih =>
    unfold commonLoop
    by_cases hs : c.vp / 10 > c.vm / 10
    · have hlt : (c.remove 10 1).vp < 10 ^ fuel := by
        rw [pow_succ] at h
        simp only [CommonLoop.remove]
        omega
      obtain ⟨r, hr, he⟩ := ih (c.remove 10 1) hlt
      refine ⟨r + 1, firstCollapse_succ hs hr, ?_⟩
      simp only [decadeSep, hs, decide_true, if_true]
      rw [he]
      simp only [CommonLoop.remove, div_pow_succ, CommonLoop.mk.injEq, true_and]
      refine ⟨?_, by omega⟩
      cases r with
      | zero => simp
      | succ r => simp [div_pow_succ]
    · refine ⟨0, firstCollapse_zero hs, ?_⟩
      simp [decadeSep, hs]

/-! ### The general path's loops -/

/-- The first loop (R187): it removes digits up to the first collapse. `vm_tz` stays 1 iff the digits
removed from `vm` are all 0, and `vr_tz` iff those removed from `vr`, the newest excepted, are. -/
theorem generalLoop_spec (fuel : Nat) (g : GeneralLoop) (h : g.vp < 10 ^ fuel) :
    ∃ r, FirstCollapse g.vp g.vm r ∧ generalLoop fuel g =
      { vr := g.vr / 10 ^ r, vp := g.vp / 10 ^ r, vm := g.vm / 10 ^ r, removed := g.removed + r,
        vmTz := g.vmTz && decide (10 ^ r ∣ g.vm)
        vrTz := if r = 0 then g.vrTz else g.vrTz && g.last == 0 && decide (10 ^ (r - 1) ∣ g.vr)
        last := if r = 0 then g.last else g.vr / 10 ^ (r - 1) % 10 } := by
  induction fuel generalizing g with
  | zero =>
    refine ⟨0, firstCollapse_zero ?_, by simp [generalLoop]⟩
    simp at h
    simp [h]
  | succ fuel ih =>
    unfold generalLoop
    by_cases hs : g.vp / 10 > g.vm / 10
    · have hlt : g.removeDigit.vp < 10 ^ fuel := by
        rw [pow_succ] at h
        simp only [GeneralLoop.removeDigit]
        omega
      obtain ⟨r, hr, he⟩ := ih g.removeDigit hlt
      refine ⟨r + 1, firstCollapse_succ hs hr, ?_⟩
      simp only [decadeSep, hs, decide_true, if_true]
      rw [he]
      simp only [GeneralLoop.removeDigit, div_pow_succ, GeneralLoop.mk.injEq, true_and, pow_succ_dvd_iff]
      refine ⟨?_, ?_, ?_, by omega⟩
      · cases r with
        | zero => simp
        | succ r =>
          simp only [Nat.succ_ne_zero, if_false, Nat.add_sub_cancel, pow_succ_dvd_iff, Bool.decide_and]
          cases hd : decide (g.vr % 10 = 0) <;> simp_all
      · by_cases h1 : g.vm % 10 = 0 <;> by_cases h2 : 10 ^ r ∣ g.vm / 10 <;> simp [h1, h2]
      · cases r with
        | zero => simp
        | succ r => simp [div_pow_succ]
    · refine ⟨0, firstCollapse_zero hs, ?_⟩
      simp [decadeSep, hs]

/-- The second loop (R188): it removes the trailing zeros of `vm ≠ 0`, with the same bookkeeping. -/
theorem zeroLoop_spec (fuel : Nat) (g : GeneralLoop) (h0 : g.vm ≠ 0) (h : g.vm < 10 ^ fuel) :
    ∃ r, 10 ^ r ∣ g.vm ∧ g.vm / 10 ^ r % 10 ≠ 0 ∧ zeroLoop fuel g =
      { vr := g.vr / 10 ^ r, vp := g.vp / 10 ^ r, vm := g.vm / 10 ^ r, removed := g.removed + r,
        vmTz := g.vmTz
        vrTz := if r = 0 then g.vrTz else g.vrTz && g.last == 0 && decide (10 ^ (r - 1) ∣ g.vr)
        last := if r = 0 then g.last else g.vr / 10 ^ (r - 1) % 10 } := by
  induction fuel generalizing g with
  | zero => simp at h; omega
  | succ fuel ih =>
    unfold zeroLoop
    by_cases hz : g.vm % 10 = 0
    · have hne : g.removeZero.vm ≠ 0 := by
        simp only [GeneralLoop.removeZero, GeneralLoop.removeDigit]
        omega
      have hlt : g.removeZero.vm < 10 ^ fuel := by
        rw [pow_succ] at h
        simp only [GeneralLoop.removeZero, GeneralLoop.removeDigit]
        omega
      obtain ⟨r, hd, hm, he⟩ := ih g.removeZero hne hlt
      simp only [GeneralLoop.removeZero, GeneralLoop.removeDigit] at hd hm
      refine ⟨r + 1, (pow_succ_dvd_iff _ _).2 ⟨hz, hd⟩, by rw [div_pow_succ]; exact hm, ?_⟩
      simp only [hz, if_true]
      rw [he]
      simp only [GeneralLoop.removeZero, GeneralLoop.removeDigit, div_pow_succ, GeneralLoop.mk.injEq, true_and]
      refine ⟨?_, ?_, by omega⟩
      · cases r with
        | zero => simp
        | succ r =>
          simp only [Nat.succ_ne_zero, if_false, Nat.add_sub_cancel, pow_succ_dvd_iff, Bool.decide_and]
          cases hd : decide (g.vr % 10 = 0) <;> simp_all
      · cases r with
        | zero => simp
        | succ r => simp [div_pow_succ]
    · exact ⟨0, by simp, by simpa using hz, by simp [hz]⟩

/-! ### The stripping of trailing zeros -/

/-- `stripZeros` (R160): the value is kept, and no trailing zero is left. -/
theorem stripZeros_spec (fuel m d : Nat) (h0 : m ≠ 0) (h : m < 10 ^ fuel) :
    d ≤ (stripZeros fuel m d).2 ∧
      (stripZeros fuel m d).1 * 10 ^ ((stripZeros fuel m d).2 - d) = m ∧ (stripZeros fuel m d).1 % 10 ≠ 0 := by
  induction fuel generalizing m d with
  | zero => simp at h; omega
  | succ fuel ih =>
    unfold stripZeros
    by_cases hz : m % 10 = 0
    · obtain ⟨h1, h2, h3⟩ := ih (m / 10) (d + 1) (by omega) (by rw [pow_succ] at h; omega)
      simp only [hz, if_true]
      refine ⟨by omega, ?_, h3⟩
      have : (stripZeros fuel (m / 10) (d + 1)).2 - d = (stripZeros fuel (m / 10) (d + 1)).2 - (d + 1) + 1 := by
        omega
      rw [this, pow_succ, ← mul_assoc, h2]
      omega
    · simp [hz]

end Sys2Proof.Machine
end

