-- ==== Sys2Proof/Laws/State.lean ====
section
/-! SUPPORT. One lemma per field per update of the state, each true by rfl, so that no later proof
unfolds a record update. -/

namespace Sys2Proof.Machine

/-! ### Completion writes every result register and `RVALID` (R26). -/

@[simp] theorem writeResults_v0 (r : Results) (s : State) : (writeResults r s).v0 = r.v0 := rfl
@[simp] theorem writeResults_v1 (r : Results) (s : State) : (writeResults r s).v1 = r.v1 := rfl
@[simp] theorem writeResults_v2 (r : Results) (s : State) : (writeResults r s).v2 = r.v2 := rfl
@[simp] theorem writeResults_re (r : Results) (s : State) : (writeResults r s).re = r.re := rfl
@[simp] theorem writeResults_rf (r : Results) (s : State) : (writeResults r s).rf = r.rf := rfl
@[simp] theorem writeResults_ob (r : Results) (s : State) : (writeResults r s).ob = outputBuffer r.bytes := rfl
@[simp] theorem writeResults_oblen (r : Results) (s : State) : (writeResults r s).oblen = outputLength r.bytes := rfl
@[simp] theorem writeResults_status (r : Results) (s : State) : (writeResults r s).status = s.status.completed := rfl
@[simp] theorem writeResults_mode (r : Results) (s : State) : (writeResults r s).mode = s.mode := rfl
@[simp] theorem writeResults_inFlight (r : Results) (s : State) : (writeResults r s).inFlight = s.inFlight := rfl
@[simp] theorem writeResults_cmdReady (r : Results) (s : State) : (writeResults r s).cmdReady = s.cmdReady := rfl
@[simp] theorem writeResults_rspValid (r : Results) (s : State) : (writeResults r s).rspValid = s.rspValid := rfl
@[simp] theorem writeResults_host (r : Results) (s : State) : (writeResults r s).host = s.host := rfl
@[simp] theorem writeResults_noValueTick (r : Results) (s : State) : (writeResults r s).noValueTick = s.noValueTick := rfl

/-! ### The result registers with no value (R232). -/

@[simp] theorem forgetResults_v0 (s : State) : (forgetResults s).v0 = Config.noValueV0 s.noValueTick := rfl
@[simp] theorem forgetResults_v1 (s : State) : (forgetResults s).v1 = Config.noValueV1 s.noValueTick := rfl
@[simp] theorem forgetResults_v2 (s : State) : (forgetResults s).v2 = Config.noValueV2 s.noValueTick := rfl
@[simp] theorem forgetResults_re (s : State) : (forgetResults s).re = Config.noValueRE s.noValueTick := rfl
@[simp] theorem forgetResults_rf (s : State) : (forgetResults s).rf = flagsOfBits (Config.noValueRF s.noValueTick) := rfl
@[simp] theorem forgetResults_ob (s : State) : (forgetResults s).ob = Config.noValueOB s.noValueTick := rfl
@[simp] theorem forgetResults_oblen (s : State) : (forgetResults s).oblen = Config.noValueOBLEN s.noValueTick := rfl
@[simp] theorem forgetResults_status (s : State) : (forgetResults s).status = s.status := rfl
@[simp] theorem forgetResults_mode (s : State) : (forgetResults s).mode = s.mode := rfl
@[simp] theorem forgetResults_inFlight (s : State) : (forgetResults s).inFlight = s.inFlight := rfl
@[simp] theorem forgetResults_cmdReady (s : State) : (forgetResults s).cmdReady = s.cmdReady := rfl
@[simp] theorem forgetResults_rspValid (s : State) : (forgetResults s).rspValid = s.rspValid := rfl
@[simp] theorem forgetResults_host (s : State) : (forgetResults s).host = s.host := rfl
@[simp] theorem forgetResults_noValueTick (s : State) : (forgetResults s).noValueTick = s.noValueTick + 1 := rfl

/-! ### Fault entry (R232). -/

@[simp] theorem faultEntry_v0 (c : Cause) (op : BitVec 8) (s : State) : (faultEntry c op s).v0 = Config.noValueV0 s.noValueTick := rfl
@[simp] theorem faultEntry_v1 (c : Cause) (op : BitVec 8) (s : State) : (faultEntry c op s).v1 = Config.noValueV1 s.noValueTick := rfl
@[simp] theorem faultEntry_v2 (c : Cause) (op : BitVec 8) (s : State) : (faultEntry c op s).v2 = Config.noValueV2 s.noValueTick := rfl
@[simp] theorem faultEntry_re (c : Cause) (op : BitVec 8) (s : State) : (faultEntry c op s).re = Config.noValueRE s.noValueTick := rfl
@[simp] theorem faultEntry_rf (c : Cause) (op : BitVec 8) (s : State) : (faultEntry c op s).rf = flagsOfBits (Config.noValueRF s.noValueTick) := rfl
@[simp] theorem faultEntry_ob (c : Cause) (op : BitVec 8) (s : State) : (faultEntry c op s).ob = Config.noValueOB s.noValueTick := rfl
@[simp] theorem faultEntry_oblen (c : Cause) (op : BitVec 8) (s : State) : (faultEntry c op s).oblen = Config.noValueOBLEN s.noValueTick := rfl
@[simp] theorem faultEntry_status (c : Cause) (op : BitVec 8) (s : State) : (faultEntry c op s).status = Status.faulted c op := rfl
@[simp] theorem faultEntry_mode (c : Cause) (op : BitVec 8) (s : State) : (faultEntry c op s).mode = .faulted := rfl
@[simp] theorem faultEntry_inFlight (c : Cause) (op : BitVec 8) (s : State) : (faultEntry c op s).inFlight = s.inFlight := rfl
@[simp] theorem faultEntry_cmdReady (c : Cause) (op : BitVec 8) (s : State) : (faultEntry c op s).cmdReady = s.cmdReady := rfl
@[simp] theorem faultEntry_rspValid (c : Cause) (op : BitVec 8) (s : State) : (faultEntry c op s).rspValid = s.rspValid := rfl
@[simp] theorem faultEntry_host (c : Cause) (op : BitVec 8) (s : State) : (faultEntry c op s).host = s.host := rfl
@[simp] theorem faultEntry_noValueTick (c : Cause) (op : BitVec 8) (s : State) : (faultEntry c op s).noValueTick = s.noValueTick + 1 := rfl

/-! ### Reset (R260). -/

@[simp] theorem applyReset_v0 (s : State) : (applyReset s).v0 = s.v0 := rfl
@[simp] theorem applyReset_v1 (s : State) : (applyReset s).v1 = s.v1 := rfl
@[simp] theorem applyReset_v2 (s : State) : (applyReset s).v2 = s.v2 := rfl
@[simp] theorem applyReset_re (s : State) : (applyReset s).re = s.re := rfl
@[simp] theorem applyReset_rf (s : State) : (applyReset s).rf = s.rf := rfl
@[simp] theorem applyReset_ob (s : State) : (applyReset s).ob = s.ob := rfl
@[simp] theorem applyReset_oblen (s : State) : (applyReset s).oblen = s.oblen := rfl
@[simp] theorem applyReset_status (s : State) : (applyReset s).status = Status.cleared := rfl
@[simp] theorem applyReset_mode (s : State) : (applyReset s).mode = .ready := rfl
@[simp] theorem applyReset_inFlight (s : State) : (applyReset s).inFlight = none := rfl
@[simp] theorem applyReset_cmdReady (s : State) : (applyReset s).cmdReady = false := rfl
@[simp] theorem applyReset_rspValid (s : State) : (applyReset s).rspValid = false := rfl
@[simp] theorem applyReset_host (s : State) : (applyReset s).host = s.host := rfl
@[simp] theorem applyReset_noValueTick (s : State) : (applyReset s).noValueTick = s.noValueTick := rfl

/-! ### The end of a command (R40). -/

@[simp] theorem respond_v0 (s : State) : (respond s).v0 = s.v0 := rfl
@[simp] theorem respond_v1 (s : State) : (respond s).v1 = s.v1 := rfl
@[simp] theorem respond_v2 (s : State) : (respond s).v2 = s.v2 := rfl
@[simp] theorem respond_re (s : State) : (respond s).re = s.re := rfl
@[simp] theorem respond_rf (s : State) : (respond s).rf = s.rf := rfl
@[simp] theorem respond_ob (s : State) : (respond s).ob = s.ob := rfl
@[simp] theorem respond_oblen (s : State) : (respond s).oblen = s.oblen := rfl
@[simp] theorem respond_status (s : State) : (respond s).status = s.status := rfl
@[simp] theorem respond_mode (s : State) : (respond s).mode = s.mode := rfl
@[simp] theorem respond_inFlight (s : State) : (respond s).inFlight = none := rfl
@[simp] theorem respond_cmdReady (s : State) : (respond s).cmdReady = true := rfl
@[simp] theorem respond_rspValid (s : State) : (respond s).rspValid = true := rfl
@[simp] theorem respond_host (s : State) : (respond s).host = s.host := rfl
@[simp] theorem respond_noValueTick (s : State) : (respond s).noValueTick = s.noValueTick := rfl

/-! ### A command stays in flight (R40). -/

@[simp] theorem waitFor_v0 (cw : CommandWord) (n : Nat) (s : State) : (waitFor cw n s).v0 = s.v0 := rfl
@[simp] theorem waitFor_v1 (cw : CommandWord) (n : Nat) (s : State) : (waitFor cw n s).v1 = s.v1 := rfl
@[simp] theorem waitFor_v2 (cw : CommandWord) (n : Nat) (s : State) : (waitFor cw n s).v2 = s.v2 := rfl
@[simp] theorem waitFor_re (cw : CommandWord) (n : Nat) (s : State) : (waitFor cw n s).re = s.re := rfl
@[simp] theorem waitFor_rf (cw : CommandWord) (n : Nat) (s : State) : (waitFor cw n s).rf = s.rf := rfl
@[simp] theorem waitFor_ob (cw : CommandWord) (n : Nat) (s : State) : (waitFor cw n s).ob = s.ob := rfl
@[simp] theorem waitFor_oblen (cw : CommandWord) (n : Nat) (s : State) : (waitFor cw n s).oblen = s.oblen := rfl
@[simp] theorem waitFor_status (cw : CommandWord) (n : Nat) (s : State) : (waitFor cw n s).status = s.status := rfl
@[simp] theorem waitFor_mode (cw : CommandWord) (n : Nat) (s : State) : (waitFor cw n s).mode = s.mode := rfl
@[simp] theorem waitFor_inFlight (cw : CommandWord) (n : Nat) (s : State) : (waitFor cw n s).inFlight = some { cmd := cw, remaining := n } := rfl
@[simp] theorem waitFor_cmdReady (cw : CommandWord) (n : Nat) (s : State) : (waitFor cw n s).cmdReady = false := rfl
@[simp] theorem waitFor_rspValid (cw : CommandWord) (n : Nat) (s : State) : (waitFor cw n s).rspValid = false := rfl
@[simp] theorem waitFor_host (cw : CommandWord) (n : Nat) (s : State) : (waitFor cw n s).host = s.host := rfl
@[simp] theorem waitFor_noValueTick (cw : CommandWord) (n : Nat) (s : State) : (waitFor cw n s).noValueTick = s.noValueTick := rfl

/-! ### A cycle with no command (R247). -/

@[simp] theorem idleCycle_v0 (s : State) : (idleCycle s).v0 = s.v0 := rfl
@[simp] theorem idleCycle_v1 (s : State) : (idleCycle s).v1 = s.v1 := rfl
@[simp] theorem idleCycle_v2 (s : State) : (idleCycle s).v2 = s.v2 := rfl
@[simp] theorem idleCycle_re (s : State) : (idleCycle s).re = s.re := rfl
@[simp] theorem idleCycle_rf (s : State) : (idleCycle s).rf = s.rf := rfl
@[simp] theorem idleCycle_ob (s : State) : (idleCycle s).ob = s.ob := rfl
@[simp] theorem idleCycle_oblen (s : State) : (idleCycle s).oblen = s.oblen := rfl
@[simp] theorem idleCycle_status (s : State) : (idleCycle s).status = s.status := rfl
@[simp] theorem idleCycle_mode (s : State) : (idleCycle s).mode = s.mode := rfl
@[simp] theorem idleCycle_inFlight (s : State) : (idleCycle s).inFlight = s.inFlight := rfl
@[simp] theorem idleCycle_cmdReady (s : State) : (idleCycle s).cmdReady = true := rfl
@[simp] theorem idleCycle_rspValid (s : State) : (idleCycle s).rspValid = false := rfl
@[simp] theorem idleCycle_host (s : State) : (idleCycle s).host = s.host := rfl
@[simp] theorem idleCycle_noValueTick (s : State) : (idleCycle s).noValueTick = s.noValueTick := rfl

/-! ### One edge of the host's inputs. -/

@[simp] theorem State.passInput_v0 (s : State) : s.passInput.v0 = s.v0 := rfl
@[simp] theorem State.passInput_v1 (s : State) : s.passInput.v1 = s.v1 := rfl
@[simp] theorem State.passInput_v2 (s : State) : s.passInput.v2 = s.v2 := rfl
@[simp] theorem State.passInput_re (s : State) : s.passInput.re = s.re := rfl
@[simp] theorem State.passInput_rf (s : State) : s.passInput.rf = s.rf := rfl
@[simp] theorem State.passInput_ob (s : State) : s.passInput.ob = s.ob := rfl
@[simp] theorem State.passInput_oblen (s : State) : s.passInput.oblen = s.oblen := rfl
@[simp] theorem State.passInput_status (s : State) : s.passInput.status = s.status := rfl
@[simp] theorem State.passInput_mode (s : State) : s.passInput.mode = s.mode := rfl
@[simp] theorem State.passInput_inFlight (s : State) : s.passInput.inFlight = s.inFlight := rfl
@[simp] theorem State.passInput_cmdReady (s : State) : s.passInput.cmdReady = s.cmdReady := rfl
@[simp] theorem State.passInput_rspValid (s : State) : s.passInput.rspValid = s.rspValid := rfl
@[simp] theorem State.passInput_host (s : State) : s.passInput.host = s.host.tail := rfl
@[simp] theorem State.passInput_noValueTick (s : State) : s.passInput.noValueTick = s.noValueTick := rfl

/-! ### A command placed in the last cycle of its latency (log 6). -/

@[simp] theorem loadCommand_v0 (cw : CommandWord) (s : State) : (loadCommand cw s).v0 = s.v0 := rfl
@[simp] theorem loadCommand_v1 (cw : CommandWord) (s : State) : (loadCommand cw s).v1 = s.v1 := rfl
@[simp] theorem loadCommand_v2 (cw : CommandWord) (s : State) : (loadCommand cw s).v2 = s.v2 := rfl
@[simp] theorem loadCommand_re (cw : CommandWord) (s : State) : (loadCommand cw s).re = s.re := rfl
@[simp] theorem loadCommand_rf (cw : CommandWord) (s : State) : (loadCommand cw s).rf = s.rf := rfl
@[simp] theorem loadCommand_ob (cw : CommandWord) (s : State) : (loadCommand cw s).ob = s.ob := rfl
@[simp] theorem loadCommand_oblen (cw : CommandWord) (s : State) : (loadCommand cw s).oblen = s.oblen := rfl
@[simp] theorem loadCommand_status (cw : CommandWord) (s : State) : (loadCommand cw s).status = s.status := rfl
@[simp] theorem loadCommand_mode (cw : CommandWord) (s : State) : (loadCommand cw s).mode = s.mode := rfl
@[simp] theorem loadCommand_inFlight (cw : CommandWord) (s : State) : (loadCommand cw s).inFlight = some { cmd := cw, remaining := 1 } := rfl
@[simp] theorem loadCommand_cmdReady (cw : CommandWord) (s : State) : (loadCommand cw s).cmdReady = false := rfl
@[simp] theorem loadCommand_rspValid (cw : CommandWord) (s : State) : (loadCommand cw s).rspValid = false := rfl
@[simp] theorem loadCommand_host (cw : CommandWord) (s : State) : (loadCommand cw s).host = idleInput :: s.host := rfl
@[simp] theorem loadCommand_noValueTick (cw : CommandWord) (s : State) : (loadCommand cw s).noValueTick = s.noValueTick := rfl

/-! ### The fields of `STATUS` after its three changes (R28) -/

@[simp] theorem Status.completed_fault (st : Status) : st.completed.fault = st.fault := rfl
@[simp] theorem Status.completed_rvalid (st : Status) : st.completed.rvalid = true := rfl
@[simp] theorem Status.completed_cause (st : Status) : st.completed.cause = st.cause := rfl
@[simp] theorem Status.completed_fop (st : Status) : st.completed.fop = st.fop := rfl
@[simp] theorem Status.faulted_fault (c : Cause) (op : BitVec 8) : (Status.faulted c op).fault = true := rfl
@[simp] theorem Status.faulted_rvalid (c : Cause) (op : BitVec 8) : (Status.faulted c op).rvalid = false := rfl
@[simp] theorem Status.faulted_cause (c : Cause) (op : BitVec 8) : (Status.faulted c op).cause = c := rfl
@[simp] theorem Status.faulted_fop (c : Cause) (op : BitVec 8) : (Status.faulted c op).fop = op := rfl
@[simp] theorem Status.cleared_fault : Status.cleared.fault = false := rfl
@[simp] theorem Status.cleared_rvalid : Status.cleared.rvalid = false := rfl
@[simp] theorem Status.cleared_cause : Status.cleared.cause = .none := rfl
@[simp] theorem Status.cleared_fop : Status.cleared.fop = 0 := rfl

/-! ### The input pins -/

/-- The next input is the head of the list. -/
theorem State.nextInput_cons (s : State) (p : PortInput) (ps : List PortInput) (h : s.host = p :: ps) :
    s.nextInput = p := by
  simp [State.nextInput, h]

/-- A host with nothing listed is idle. -/
theorem State.nextInput_nil (s : State) (h : s.host = []) : s.nextInput = idleInput := by
  simp [State.nextInput, h]

@[simp] theorem loadCommand_nextInput (cw : CommandWord) (s : State) :
    (loadCommand cw s).nextInput = idleInput := rfl
@[simp] theorem idleInput_rst : idleInput.rst = false := rfl
@[simp] theorem idleInput_cmdValid : idleInput.cmdValid = false := rfl

end Sys2Proof.Machine
end

