-- ==== Sys2Proof/Laws/Ops.lean ====
section
/-! SUPPORT. What the shared operations can do, said once: a later proof about a command cites these
and unfolds neither `finish` nor the clock. -/

namespace Sys2Proof.Machine

/-! ### `finish`: everything a command other than `NOP` can do -/

/-- In `FAULTED` a command is discarded (R233). -/
theorem finish_faulted {op : BitVec 8} {r : Except Cause Results} {s : State} (h : s.mode = .faulted) :
    finish op r s = .next s := by
  simp [finish, h]

/-- In `READY` a command whose checks pass completes (R26). -/
theorem finish_ok {op : BitVec 8} {res : Results} {s : State} (h : s.mode = .ready) :
    finish op (.ok res) s = .next (writeResults res s) := by
  simp [finish, h]

/-- In `READY` a command whose check fails takes the fault (R232). -/
theorem finish_error {op : BitVec 8} {c : Cause} {s : State} (h : s.mode = .ready) :
    finish op (.error c) s = .next (faultEntry c op s) := by
  simp [finish, h]

/-- Everything `finish` can do. -/
theorem finish_cases (op : BitVec 8) (r : Except Cause Results) (s : State) :
    (s.mode = .faulted ∧ finish op r s = .next s) ∨
    (s.mode = .ready ∧ ∃ res, r = .ok res ∧ finish op r s = .next (writeResults res s)) ∨
    (s.mode = .ready ∧ ∃ c, r = .error c ∧ finish op r s = .next (faultEntry c op s)) := by
  cases hm : s.mode with
  | faulted => exact .inl ⟨rfl, finish_faulted hm⟩
  | ready =>
    cases r with
    | ok res => exact .inr (.inl ⟨rfl, res, rfl, finish_ok hm⟩)
    | error c => exact .inr (.inr ⟨rfl, c, rfl, finish_error hm⟩)

/-! ### The output buffer -/

/-- A byte of the buffer is the formatted byte, or 0 from the end of the bytes on (R217). -/
@[simp] theorem outputBuffer_get (bytes : List Byte) (k : Nat) (h : k < 24) :
    (outputBuffer bytes)[k] = bytes.getD k 0 := by
  simp [outputBuffer]

/-- `OBLEN` is the number of bytes, while that fits its 5 bits. -/
theorem outputLength_toNat {bytes : List Byte} (h : bytes.length < 32) :
    (outputLength bytes).toNat = bytes.length := by
  simp [outputLength, Nat.mod_eq_of_lt h]

/-- Completion, in the terms of the claims. -/
theorem completedWith_writeResults {r : Results} (s : State) (h : r.bytes.length < 32) :
    s.CompletedWith (writeResults r s) r where
  v0 := rfl
  v1 := rfl
  v2 := rfl
  re := rfl
  rf := rfl
  ob := fun k hk => by simp
  oblen := by simp [outputLength_toNat h]
  status := rfl
  mode := rfl
  port := ⟨rfl, rfl, rfl, rfl⟩
  tick := rfl

/-- Fault entry, in the terms of the claims. -/
theorem faultedBy_faultEntry (c : Cause) (op : BitVec 8) (s : State) :
    s.FaultedBy (faultEntry c op s) c op where
  fault := rfl
  rvalid := rfl
  cause := rfl
  fop := rfl
  mode := rfl
  port := ⟨rfl, rfl, rfl, rfl⟩

/-! ### Which causes each computation reports (R237) -/

theorem generalLoops_error {vr vp vm : Nat} {a b : Bool} {c : Cause}
    (h : generalLoops vr vp vm a b = .error c) : c = .nontermination := by
  simp only [generalLoops] at h
  split at h
  · split at h
    · exact (Except.error.inj h).symm
    · cases h
  · cases h

theorem generalPath_error {vr vp vm : Nat} {acc a b : Bool} {c : Cause}
    (h : generalPath vr vp vm acc a b = .error c) : c = .nontermination := by
  unfold generalPath at h
  split at h
  · rename_i c' hc
    cases h
    exact generalLoops_error hc
  · cases h

/-- `SHORTEST` reports `NONTERMINATION` or `EXP_RANGE`, and nothing else. -/
theorem shortest_error {iv : IntervalResult} {c : Cause} (h : shortest iv = .error c) :
    c = .nontermination ∨ c = .expRange := by
  unfold shortest at h
  simp only at h
  split at h
  · rename_i c' hc
    cases h
    split at hc
    · exact .inl (generalPath_error hc)
    · cases hc
  · split at h
    · cases h
    · exact .inr (Except.error.inj h).symm

theorem shortestResults_error {r : Except Cause ShortestResult} {c : Cause}
    (h : shortestResults r = .error c) : r = .error c := by
  cases r with
  | ok r => simp [shortestResults] at h
  | error c' => simpa [shortestResults] using h

theorem convCheck_error {mant exp : Nat} {r : Except Cause Results} {c : Cause}
    (h : convCheck mant exp r = .error c) : c = .inputDomain ∨ r = .error c := by
  unfold convCheck at h
  split at h
  · exact .inr h
  · exact .inl (Except.error.inj h).symm

theorem conversion_error {mant exp : Nat} {c : Cause} (h : conversion mant exp = .error c) :
    f2d mant exp = .error c := by
  unfold conversion at h
  split at h
  · cases h
  · split at h
    · rename_i hf
      cases h
      exact hf
    · cases h

theorem convertResults_error {r : Except Cause Conversion} {neg : Bool} {c : Cause}
    (h : convertResults r neg = .error c) : r = .error c := by
  cases r with
  | ok r => simp [convertResults] at h
  | error c' => simpa [convertResults] using h

/-! ### Everything an instruction can do -/

/-- Every instruction but `NOP` is `finish` of results that its operands alone give (R26), and an error
among them is a real cause. -/
theorem exec_eq_finish {i : Instr} (hi : i ≠ .nop) :
    ∃ r, (∀ c, r = .error c → c ≠ .none) ∧ ∀ s, exec i s = finish i.opcode r s := by
  cases i with
  | nop => exact absurd rfl hi
  | pow5bits e => exact ⟨_, by unfold pow5bitsResult; split <;> simp, fun _ => rfl⟩
  | pow5rd e => exact ⟨_, by unfold pow5rdResult; split <;> simp, fun _ => rfl⟩
  | pow5invrd e => exact ⟨_, by unfold pow5invrdResult; split <;> simp, fun _ => rfl⟩
  | mulshift m u sh => exact ⟨_, by unfold mulshiftResult; split <;> simp, fun _ => rfl⟩
  | pow5factor v => exact ⟨_, by unfold pow5factorResult; split <;> simp, fun _ => rfl⟩
  | mulpow5 v p => exact ⟨_, by unfold mulpow5Result; split <;> simp, fun _ => rfl⟩
  | mulpow2 v p => exact ⟨mulpow2Result (u64 v) (u32 p), by simp [mulpow2Result], fun _ => rfl⟩
  | declen u => exact ⟨_, by unfold declenResult; split <;> simp, fun _ => rfl⟩
  | log10pow2 e => exact ⟨_, by unfold log10pow2Result; split <;> simp, fun _ => rfl⟩
  | log10pow5 e => exact ⟨_, by unfold log10pow5Result; split <;> simp, fun _ => rfl⟩
  | exactint mant exp =>
    refine ⟨exactintResult (u64 mant) (u32 exp), fun c h => ?_, fun _ => rfl⟩
    rcases convCheck_error h with rfl | h
    · simp
    · split at h <;> cases h
  | interval mant exp =>
    refine ⟨intervalResult (u64 mant) (u32 exp), fun c h => ?_, fun _ => rfl⟩
    rcases convCheck_error h with rfl | h
    · simp
    · cases h
  | shortest vr vp vm e10 a b c =>
    refine ⟨_, fun c h => ?_, fun _ => rfl⟩
    rcases shortest_error (shortestResults_error h) with rfl | rfl <;> simp
  | f2d mant exp =>
    refine ⟨_, fun c h => ?_, fun _ => rfl⟩
    rcases convCheck_error h with rfl | h
    · simp
    · rcases shortest_error (shortestResults_error h) with rfl | rfl <;> simp
  | fmt m e neg =>
    refine ⟨fmtResult (u64 m) (s32 e) neg, ?_, fun _ => rfl⟩
    unfold fmtResult
    split
    · simp
    · split <;> simp
  | convert mant exp neg =>
    refine ⟨_, fun c h => ?_, fun _ => rfl⟩
    rcases convCheck_error h with rfl | h
    · simp
    · rcases shortest_error (conversion_error (convertResults_error h)) with rfl | rfl <;> simp

/-- Everything an instruction can do: nothing (`NOP`, or any command in `FAULTED`), a completion, or a
fault entry with its own `OP`. -/
theorem exec_cases (i : Instr) (s : State) :
    (exec i s = .next s ∧ (i = .nop ∨ s.mode = .faulted)) ∨
    (s.mode = .ready ∧ ∃ res, exec i s = .next (writeResults res s)) ∨
    (s.mode = .ready ∧ ∃ c, c ≠ .none ∧ exec i s = .next (faultEntry c i.opcode s)) := by
  by_cases hi : i = .nop
  · subst hi
    exact .inl ⟨rfl, .inl rfl⟩
  · obtain ⟨r, hr, he⟩ := exec_eq_finish hi
    rw [he]
    rcases finish_cases i.opcode r s with ⟨h, e⟩ | ⟨h, res, -, e⟩ | ⟨h, c, hc, e⟩
    · exact .inl ⟨e, .inr h⟩
    · exact .inr (.inl ⟨h, res, e⟩)
    · exact .inr (.inr ⟨h, c, hr c hc, e⟩)

/-- Everything a command word can do: the same, and a fault entry has the word's own `OP` field (R232). -/
theorem runCommand_cases (cw : CommandWord) (s : State) :
    runCommand cw s = .next s ∨
    (s.mode = .ready ∧ ∃ res, runCommand cw s = .next (writeResults res s)) ∨
    (s.mode = .ready ∧ ∃ c op, c ≠ .none ∧ runCommand cw s = .next (faultEntry c op s)) := by
  unfold runCommand
  split
  · rename_i i _
    rcases exec_cases i s with ⟨e, -⟩ | h | ⟨h, c, hc, e⟩
    · exact .inl e
    · exact .inr (.inl h)
    · exact .inr (.inr ⟨h, c, _, hc, e⟩)
  · rename_i r _
    rcases finish_cases (Command.ofWord cw).op (.error (rejectCause r)) s with ⟨-, e⟩ | ⟨h, res, hr, -⟩ | ⟨h, c, hc, e⟩
    · exact .inl e
    · cases hr
    · refine .inr (.inr ⟨h, c, _, ?_, e⟩)
      cases hc
      cases r <;> simp [rejectCause]

end Sys2Proof.Machine
end

