-- ==== Sys2Proof/Laws/PerInstr.lean ====
section
/-! SUPPORT. Statements made per instruction. The family `ControlWord`: the control word of an encoded
instruction, under the mask of 30_encoding.md R79, is the instruction's operation code. -/

namespace Sys2Proof.Laws.ControlWord

/-- The instruction's word is matched by its row of spec/opcode_table.json. -/
def Statement (i : Instr) : Prop :=
  (encode i).extractLsb' 0 32 &&& 0xFFFFF0FF#32 = i.opcode.setWidth 32

/-- Under the mask the flags, which are operands, drop out: `OP` is left, with `RSV = 0`. -/
theorem masked_controlWord (m : Mnemonic) (neg acc vrtz vmtz : Bool) (c : Word32) (a bl bh : U64) :
    Command.controlWord { op := m.opcode, neg, acc, vrtz, vmtz, rsv := 0, c, a, bl, bh } &&& 0xFFFFF0FF#32 =
      m.opcode.setWidth 32 := by
  dsimp only [Command.controlWord]
  cases neg <;> cases acc <;> cases vrtz <;> cases vmtz <;> cases m <;> decide

/-- An instruction whose fields are an operation's code, `RSV = 0` and any operands. -/
theorem of_fields {i : Instr} (m : Mnemonic) (neg acc vrtz vmtz : Bool) (c : Word32) (a bl bh : U64)
    (hc : i.toCommand = { op := m.opcode, neg, acc, vrtz, vmtz, rsv := 0, c, a, bl, bh })
    (hm : i.opcode = m.opcode) : Statement i := by
  unfold Statement encode
  rw [Command.toWord_controlWord, hc, hm]
  exact masked_controlWord m neg acc vrtz vmtz c a bl bh

theorem nop : Statement .nop := of_fields .nop _ _ _ _ _ _ _ _ rfl rfl
theorem pow5bits (e : Word32) : Statement (.pow5bits e) := of_fields .pow5bits _ _ _ _ _ _ _ _ rfl rfl
theorem pow5rd (i : Word32) : Statement (.pow5rd i) := of_fields .pow5rd _ _ _ _ _ _ _ _ rfl rfl
theorem pow5invrd (q : Word32) : Statement (.pow5invrd q) := of_fields .pow5invrd _ _ _ _ _ _ _ _ rfl rfl
theorem mulshift (m : U64) (u : U128) (sh : Word32) : Statement (.mulshift m u sh) := of_fields .mulshift _ _ _ _ _ _ _ _ rfl rfl
theorem pow5factor (v : U64) : Statement (.pow5factor v) := of_fields .pow5factor _ _ _ _ _ _ _ _ rfl rfl
theorem mulpow5 (v : U64) (p : Word32) : Statement (.mulpow5 v p) := of_fields .mulpow5 _ _ _ _ _ _ _ _ rfl rfl
theorem mulpow2 (v : U64) (p : Word32) : Statement (.mulpow2 v p) := of_fields .mulpow2 _ _ _ _ _ _ _ _ rfl rfl
theorem declen (u : U64) : Statement (.declen u) := of_fields .declen _ _ _ _ _ _ _ _ rfl rfl
theorem log10pow2 (e : Word32) : Statement (.log10pow2 e) := of_fields .log10pow2 _ _ _ _ _ _ _ _ rfl rfl
theorem log10pow5 (e : Word32) : Statement (.log10pow5 e) := of_fields .log10pow5 _ _ _ _ _ _ _ _ rfl rfl
theorem exactint (mant : U64) (exp : Word32) : Statement (.exactint mant exp) := of_fields .exactint _ _ _ _ _ _ _ _ rfl rfl
theorem interval (mant : U64) (exp : Word32) : Statement (.interval mant exp) := of_fields .interval _ _ _ _ _ _ _ _ rfl rfl
theorem shortest (vr : U64) (vp : U64) (vm : U64) (e10 : Word32) (acc : Bool) (vrtz : Bool) (vmtz : Bool) : Statement (.shortest vr vp vm e10 acc vrtz vmtz) := of_fields .shortest _ _ _ _ _ _ _ _ rfl rfl
theorem f2d (mant : U64) (exp : Word32) : Statement (.f2d mant exp) := of_fields .f2d _ _ _ _ _ _ _ _ rfl rfl
theorem fmt (m : U64) (e : Word32) (neg : Bool) : Statement (.fmt m e neg) := of_fields .fmt _ _ _ _ _ _ _ _ rfl rfl
theorem convert (mant : U64) (exp : Word32) (neg : Bool) : Statement (.convert mant exp neg) := of_fields .convert _ _ _ _ _ _ _ _ rfl rfl

end Sys2Proof.Laws.ControlWord
end

