-- ==== Sys2Proof/Laws/Primitives.lean ====
section
/-! SUPPORT. One specification lemma per pure function of the ROM and of the primitives: the bit length
and the logarithms in terms of powers (10_state.md R31; 41_primitives.md R140, R145), the divisibility
detectors in terms of divisibility (R126, R132), the digits in terms of Mathlib's (R136). -/

namespace Sys2Proof.Machine

/-! ### The decimal logarithms -/

/-- `greatestUpTo p n` is at most `n`, has `p` unless it is 0, and no number above it up to `n` has `p`. -/
theorem greatestUpTo_spec (p : Nat → Bool) (n : Nat) :
    greatestUpTo p n ≤ n ∧ (greatestUpTo p n = 0 ∨ p (greatestUpTo p n) = true) ∧
      ∀ k, greatestUpTo p n < k → k ≤ n → p k = false := by
  induction n with
  | zero => exact ⟨le_refl 0, .inl rfl, fun k h1 h2 => by simp [greatestUpTo] at h1; omega⟩
  | succ n ih =>
    obtain ⟨ih1, ih2, ih3⟩ := ih
    unfold greatestUpTo
    split
    · rename_i h
      exact ⟨le_refl _, .inr h, fun k h1 h2 => by omega⟩
    · rename_i h
      refine ⟨by omega, ih2, fun k h1 h2 => ?_⟩
      rcases Nat.lt_or_ge n k with hk | hk
      · have : k = n + 1 := by omega
        subst this
        simpa using h
      · exact ih3 k h1 hk

/-- The greatest `q` with `10^q ≤ b^e`, for `1 ≤ b ≤ 10`: the bound `e` cuts nothing off. -/
theorem greatestUpTo_log {b e : Nat} (hb : 1 ≤ b) (hb' : b < 10) :
    10 ^ greatestUpTo (fun q => decide (10 ^ q ≤ b ^ e)) e ≤ b ^ e ∧
      b ^ e < 10 ^ (greatestUpTo (fun q => decide (10 ^ q ≤ b ^ e)) e + 1) := by
  obtain ⟨h1, h2, h3⟩ := greatestUpTo_spec (fun q => decide (10 ^ q ≤ b ^ e)) e
  constructor
  · rcases h2 with h | h
    · rw [h]
      simpa using Nat.one_le_pow e b hb
    · simpa using h
  · by_contra hc
    push Not at hc
    rcases Nat.lt_or_ge e (greatestUpTo (fun q => decide (10 ^ q ≤ b ^ e)) e + 1) with hk | hk
    · have h4 : b ^ e ≤ b ^ (greatestUpTo (fun q => decide (10 ^ q ≤ b ^ e)) e + 1) :=
        Nat.pow_le_pow_right hb (by omega)
      have h5 : b ^ (greatestUpTo (fun q => decide (10 ^ q ≤ b ^ e)) e + 1) <
          10 ^ (greatestUpTo (fun q => decide (10 ^ q ≤ b ^ e)) e + 1) :=
        Nat.pow_lt_pow_left hb' (by omega)
      omega
    · have := h3 _ (Nat.lt_succ_self _) hk
      simp at this
      omega

/-- `log10_pow2` on `e ≥ 0` (R140). -/
theorem log10Pow2Nat_spec (e : Nat) :
    10 ^ log10Pow2Nat e ≤ 2 ^ e ∧ 2 ^ e < 10 ^ (log10Pow2Nat e + 1) :=
  greatestUpTo_log (by omega) (by omega)

/-- `log10_pow5` on `e ≥ 0` (R145). -/
theorem log10Pow5Nat_spec (e : Nat) :
    10 ^ log10Pow5Nat e ≤ 5 ^ e ∧ 5 ^ e < 10 ^ (log10Pow5Nat e + 1) :=
  greatestUpTo_log (by omega) (by omega)

/-- A decimal logarithm is determined by its two bounds. -/
theorem log10_unique {x q q' : Nat} (h1 : 10 ^ q ≤ x) (h2 : x < 10 ^ (q + 1)) (h1' : 10 ^ q' ≤ x)
    (h2' : x < 10 ^ (q' + 1)) : q = q' := by
  have a := (Nat.pow_lt_pow_iff_right (by omega : 1 < 10)).1 (lt_of_le_of_lt h1 h2')
  have b := (Nat.pow_lt_pow_iff_right (by omega : 1 < 10)).1 (lt_of_le_of_lt h1' h2)
  omega

/-! ### `pow5_bits` -/

theorem pow5Bits_zero : pow5Bits 0 = 0 := rfl

/-- `pow5_bits(i)` for `i ≥ 1` (R31). -/
theorem pow5Bits_spec {i : Nat} (hi : 1 ≤ i) :
    1 ≤ pow5Bits i ∧ 2 ^ (pow5Bits i - 1) < 5 ^ i ∧ 5 ^ i < 2 ^ pow5Bits i := by
  have h0 : 5 ^ i ≠ 0 := by positivity
  have hn : pow5Bits i = Nat.log2 (5 ^ i) + 1 := by simp [pow5Bits, show i ≠ 0 by omega]
  rw [hn]
  refine ⟨by omega, ?_, Nat.lt_log2_self⟩
  have hle := Nat.log2_self_le h0
  simp only [Nat.add_sub_cancel]
  refine lt_of_le_of_ne hle fun heq => ?_
  have hodd : Odd (5 ^ i) := Odd.pow (by decide)
  rw [← heq] at hodd
  rcases Nat.eq_zero_or_pos (Nat.log2 (5 ^ i)) with hz | hp
  · rw [hz] at heq
    have : 5 ≤ 5 ^ i := by
      calc 5 = 5 ^ 1 := rfl
        _ ≤ 5 ^ i := Nat.pow_le_pow_right (by omega) hi
    omega
  · exact (Nat.not_odd_iff_even.2 ((Nat.even_pow.2 ⟨by decide, by omega⟩))) hodd

/-- For every `i`, `2^(pow5_bits(i) − 1) ≤ 5^i ≤ 2^pow5_bits(i)`, in the form the ROM formulas use. -/
theorem pow5Bits_bounds (i : Nat) : 2 ^ pow5Bits i ≤ 2 * 5 ^ i ∧ 5 ^ i ≤ 2 ^ pow5Bits i := by
  rcases Nat.eq_zero_or_pos i with rfl | hi
  · decide
  · obtain ⟨h1, h2, h3⟩ := pow5Bits_spec hi
    refine ⟨?_, le_of_lt h3⟩
    have : 2 ^ pow5Bits i = 2 * 2 ^ (pow5Bits i - 1) := by
      rw [← pow_succ']
      congr 1
      omega
    omega

/-! ### The ROMs -/

/-- `Pow5Rom[i]` as one quotient: R32's exponent of either sign. -/
theorem pow5Rom_eq (i : Nat) : pow5Rom i = 5 ^ i * 2 ^ 121 / 2 ^ pow5Bits i := by
  unfold pow5Rom
  split
  · rename_i h
    have h' : pow5Bits i ≤ 121 := h
    have : (2 : Nat) ^ 121 = 2 ^ (121 - pow5Bits i) * 2 ^ pow5Bits i := by
      rw [← pow_add]
      congr 1
      omega
    rw [this, ← mul_assoc, Nat.mul_div_cancel _ (by positivity)]
  · rename_i h
    have h' : ¬ pow5Bits i ≤ 121 := h
    have : (2 : Nat) ^ pow5Bits i = 2 ^ (pow5Bits i - 121) * 2 ^ 121 := by
      rw [← pow_add]
      congr 1
      omega
    rw [this, Nat.mul_div_mul_right _ _ (by positivity)]

/-- The ceiling is the least multiple count that reaches `a` (R11). -/
theorem ceilDiv_spec {a b : Nat} (hb : 0 < b) : a ≤ ceilDiv a b * b ∧ ceilDiv a b * b < a + b := by
  unfold ceilDiv
  have h1 := Nat.div_add_mod (a + b - 1) b
  have h2 := Nat.mod_lt (a + b - 1) hb
  have h3 : (a + b - 1) / b * b = b * ((a + b - 1) / b) := Nat.mul_comm _ _
  constructor <;> omega

/-! ### The divisibility detectors -/

/-- `pow5FactorAux` is the greatest power of five that divides `v`, if the fuel reaches it. -/
theorem pow5FactorAux_spec (fuel v : Nat) (h0 : v ≠ 0) (h : v < 5 ^ (fuel + 1)) :
    5 ^ pow5FactorAux fuel v ∣ v ∧ ¬ 5 ^ (pow5FactorAux fuel v + 1) ∣ v := by
  induction fuel generalizing v with
  | zero =>
    refine ⟨by simp [pow5FactorAux], fun hd => ?_⟩
    have := Nat.le_of_dvd (by omega) hd
    simp [pow5FactorAux] at this h
    omega
  | succ fuel ih =>
    unfold pow5FactorAux
    split
    · rename_i h5
      obtain ⟨w, rfl⟩ := Nat.dvd_of_mod_eq_zero h5
      have hw : w ≠ 0 := by rintro rfl; simp at h0
      rw [Nat.mul_div_cancel_left _ (by omega)]
      have hw' : w < 5 ^ (fuel + 1) := by
        rw [pow_succ 5 (fuel + 1)] at h
        omega
      obtain ⟨h1, h2⟩ := ih w hw hw'
      constructor
      · rw [pow_succ']
        exact Nat.mul_dvd_mul_left 5 h1
      · rw [pow_succ' 5 (pow5FactorAux fuel w + 1)]
        exact fun hd => h2 (Nat.dvd_of_mul_dvd_mul_left (by omega) hd)
    · rename_i h5
      refine ⟨by simp, fun hd => h5 ?_⟩
      simpa using Nat.mod_eq_zero_of_dvd hd

/-- `pow5_factor` of a `u64` other than 0 (R126). -/
theorem pow5Factor_spec {v : Nat} (h0 : v ≠ 0) (h : v < 2 ^ 64) :
    5 ^ pow5Factor v ∣ v ∧ ¬ 5 ^ (pow5Factor v + 1) ∣ v :=
  pow5FactorAux_spec 27 v h0 (lt_of_lt_of_le h (by norm_num))

/-- `multiple_of_pow5` says what its name says (R130). -/
theorem multipleOfPow5_iff {v : Nat} (h0 : v ≠ 0) (h : v < 2 ^ 64) (p : Nat) :
    multipleOfPow5 v p = true ↔ 5 ^ p ∣ v := by
  obtain ⟨h1, h2⟩ := pow5Factor_spec h0 h
  simp only [multipleOfPow5, decide_eq_true_eq]
  constructor
  · exact fun hp => dvd_trans (pow_dvd_pow 5 hp) h1
  · intro hd
    by_contra hc
    exact h2 (dvd_trans (pow_dvd_pow 5 (by omega)) hd)

/-- `tzAux` counts the factors of two up to its fuel. -/
theorem tzAux_ge_iff (fuel v p : Nat) (hp : p ≤ fuel) : p ≤ tzAux fuel v ↔ 2 ^ p ∣ v := by
  induction fuel generalizing v p with
  | zero =>
    obtain rfl : p = 0 := by omega
    simp
  | succ fuel ih =>
    cases p with
    | zero => simp
    | succ p =>
      unfold tzAux
      split
      · rename_i h2
        obtain ⟨w, rfl⟩ := Nat.dvd_of_mod_eq_zero h2
        rw [Nat.mul_div_cancel_left _ (by omega), pow_succ', Nat.mul_dvd_mul_iff_left (by omega), ← ih w p (by omega)]
        omega
      · rename_i h2
        constructor
        · intro h
          omega
        · intro hd
          exact absurd (Nat.mod_eq_zero_of_dvd (dvd_trans (by simp [pow_succ']) hd)) h2

theorem tzAux_le (fuel v : Nat) : tzAux fuel v ≤ fuel := by
  induction fuel generalizing v with
  | zero => simp [tzAux]
  | succ fuel ih =>
    unfold tzAux
    split
    · have := ih (v / 2)
      omega
    · omega

/-- `multiple_of_pow2` for `p ≤ 64`, 0 included (R132). -/
theorem multipleOfPow2_iff {v p : Nat} (hp : p ≤ 64) : multipleOfPow2 v p = true ↔ 2 ^ p ∣ v :=
  decide_eq_true_iff.trans (tzAux_ge_iff 64 v p hp)

/-! ### Decimal digits -/

/-- The digits are Mathlib's, most significant first, if the fuel reaches them. -/
theorem decDigitsAux_eq (fuel u : Nat) (acc : List Nat) (h0 : u ≠ 0) (h : u < 10 ^ fuel) :
    decDigitsAux fuel u acc = (Nat.digits 10 u).reverse ++ acc := by
  induction fuel generalizing u acc with
  | zero => simp at h; omega
  | succ fuel ih =>
    unfold decDigitsAux
    split
    · rename_i h10
      rw [Nat.digits_of_lt 10 u h0 h10]
      simp
    · rename_i h10
      rw [Nat.digits_def' (by omega) (by omega), ih (u / 10) _ (by omega) (by rw [pow_succ] at h; omega)]
      simp

/-- The decimal digits of a `u64` other than 0 (R136). -/
theorem decDigits_eq {u : Nat} (h0 : u ≠ 0) (h : u < 2 ^ 64) : decDigits u = (Nat.digits 10 u).reverse := by
  unfold decDigits
  rw [decDigitsAux_eq 20 u [] h0 (lt_of_lt_of_le h (by norm_num))]
  simp

/-- `decimal_length` of a `u64` other than 0. -/
theorem decimalLength_eq {u : Nat} (h0 : u ≠ 0) (h : u < 2 ^ 64) :
    decimalLength u = (Nat.digits 10 u).length := by
  unfold decimalLength
  rw [decDigits_eq h0 h, List.length_reverse]

/-- `decimal_length(u)` counts decimal places (R136). -/
theorem decimalLength_spec {u : Nat} (h0 : u ≠ 0) (h : u < 2 ^ 64) :
    1 ≤ decimalLength u ∧ 10 ^ (decimalLength u - 1) ≤ u ∧ u < 10 ^ decimalLength u := by
  rw [decimalLength_eq h0 h]
  have hlt : u < 10 ^ (Nat.digits 10 u).length := Nat.lt_base_pow_length_digits (by omega)
  have hpos : 1 ≤ (Nat.digits 10 u).length := by
    rw [Nat.one_le_iff_ne_zero, ne_eq, List.length_eq_zero_iff]
    exact Nat.digits_ne_nil_iff_ne_zero.2 h0
  refine ⟨hpos, ?_, hlt⟩
  have := Nat.base_pow_length_digits_le 10 u (by omega) h0
  have h2 : 10 ^ (Nat.digits 10 u).length = 10 * 10 ^ ((Nat.digits 10 u).length - 1) := by
    rw [← pow_succ']
    congr 1
    omega
  omega

theorem decimalLength_zero : decimalLength 0 = 1 := rfl

end Sys2Proof.Machine
end

