-- ==== Sys2Proof/Laws/Ranges.lean ====
section
/-! SUPPORT. The ranges of the tables and of Step 3's scaling (10_state.md R35; 41_primitives.md R125;
43_shortest.md R182), from the bounds that define the logarithms and `pow5_bits`. -/

namespace Sys2Proof.Machine

/-! ### The tables -/

/-- `Pow5InvRom[q] ∈ [2^121, 2^122]` (R35). -/
theorem pow5InvRom_range (q : Nat) : 2 ^ 121 ≤ pow5InvRom q ∧ pow5InvRom q ≤ 2 ^ 122 := by
  obtain ⟨h1, h2⟩ := pow5Bits_bounds q
  have hpos : 0 < 5 ^ q := by positivity
  have he : pow5InvRom q = ceilDiv (2 ^ pow5Bits q * 2 ^ 121) (5 ^ q) := by
    unfold pow5InvRom
    rw [← pow_add]
    rfl
  obtain ⟨h3, h4⟩ := ceilDiv_spec (a := 2 ^ pow5Bits q * 2 ^ 121) hpos
  rw [← he] at h3 h4
  constructor
  · refine Nat.le_of_mul_le_mul_right ?_ hpos
    calc 2 ^ 121 * 5 ^ q ≤ 2 ^ 121 * 2 ^ pow5Bits q := Nat.mul_le_mul_left _ h2
      _ = 2 ^ pow5Bits q * 2 ^ 121 := Nat.mul_comm _ _
      _ ≤ _ := h3
  · have h5 : pow5InvRom q * 5 ^ q < (2 ^ 122 + 1) * 5 ^ q := by
      calc pow5InvRom q * 5 ^ q < 2 ^ pow5Bits q * 2 ^ 121 + 5 ^ q := h4
        _ ≤ 2 * 5 ^ q * 2 ^ 121 + 5 ^ q := Nat.add_le_add_right (Nat.mul_le_mul_right _ h1) _
        _ = (2 ^ 122 + 1) * 5 ^ q := by ring
    exact Nat.lt_succ_iff.1 (Nat.lt_of_mul_lt_mul_right h5)

/-- `Pow5Rom[i] ∈ [2^120, 2^121]`, 0 included (R35). -/
theorem pow5Rom_range (i : Nat) : 2 ^ 120 ≤ pow5Rom i ∧ pow5Rom i ≤ 2 ^ 121 := by
  obtain ⟨h1, h2⟩ := pow5Bits_bounds i
  rw [pow5Rom_eq]
  constructor
  · rw [Nat.le_div_iff_mul_le (by positivity)]
    calc 2 ^ 120 * 2 ^ pow5Bits i ≤ 2 ^ 120 * (2 * 5 ^ i) := Nat.mul_le_mul_left _ h1
      _ = 5 ^ i * 2 ^ 121 := by ring
  · apply Nat.div_le_of_le_mul
    exact Nat.mul_le_mul_right _ h2

/-! ### The scaling of Step 3 -/

/-- What the scaled values rest on: the shift's range, and a scale of at least 1 that keeps every
quotient of an operand below `2^55` under `2^62`. -/
structure ScalingOk (sc : Scaling) : Prop where
  shMin : 114 ≤ sc.sh
  shMax : sc.sh ≤ 121
  scale : 2 ^ sc.sh ≤ sc.mul
  small : sc.mul * 2 ^ 55 ≤ 2 ^ 63 * 2 ^ sc.sh

theorem exponent_lt_of_pow_lt {a b : Nat} (h : 2 ^ a < 2 ^ b) : a < b :=
  (Nat.pow_lt_pow_iff_right (by omega : 1 < 2)).1 h

/-- The positive branch (R174, R182). -/
theorem scalingPos_ok (n : Nat) : ScalingOk (scalingPos n) := by
  obtain ⟨hl, hu⟩ := log10Pow2Nat_spec n
  -- q + pow5_bits(q), the power of two next to 10^q
  have hq : n ≤ 3 ∧ (scalingPos n).q = 0 ∨ n > 3 ∧ (scalingPos n).q + 1 = log10Pow2Nat n := by
    rcases Nat.lt_or_ge 3 n with h | h
    · refine .inr ⟨h, ?_⟩
      have h16 : (2 : Nat) ^ 4 ≤ 2 ^ n := Nat.pow_le_pow_right (by omega) (by omega)
      have : log10Pow2Nat n ≠ 0 := by
        intro h0
        rw [h0] at hu
        omega
      simp [scalingPos, iverson, h]
      omega
    · have : n = 0 ∨ n = 1 ∨ n = 2 ∨ n = 3 := by omega
      rcases this with rfl | rfl | rfl | rfl <;> exact .inl ⟨by omega, by decide⟩
  have hsh : (scalingPos n).sh = (scalingPos n).q + pow5Bits (scalingPos n).q + 121 - n := by
    simp only [scalingPos, Config.pow5InvBits]
    omega
  obtain ⟨hb1, hb2⟩ := pow5Bits_bounds (scalingPos n).q
  have hlow : 10 ^ (scalingPos n).q ≤ 2 ^ ((scalingPos n).q + pow5Bits (scalingPos n).q) := by
    rw [pow_add, show (10 : Nat) = 2 * 5 from rfl, Nat.mul_pow]
    exact Nat.mul_le_mul_left _ hb2
  have hhigh : 2 ^ ((scalingPos n).q + pow5Bits (scalingPos n).q) ≤ 2 * 10 ^ (scalingPos n).q := by
    rw [pow_add, show (10 : Nat) = 2 * 5 from rfl, Nat.mul_pow]
    calc 2 ^ (scalingPos n).q * 2 ^ pow5Bits (scalingPos n).q
        ≤ 2 ^ (scalingPos n).q * (2 * 5 ^ (scalingPos n).q) := Nat.mul_le_mul_left _ hb1
      _ = 2 * (2 ^ (scalingPos n).q * 5 ^ (scalingPos n).q) := by ring
  have hmul : (scalingPos n).mul = pow5InvRom (scalingPos n).q := rfl
  obtain ⟨hm1, hm2⟩ := pow5InvRom_range (scalingPos n).q
  have range : 115 ≤ (scalingPos n).sh ∧ (scalingPos n).sh ≤ 121 := by
    rcases hq with ⟨h3, hq⟩ | ⟨h3, hq⟩
    · rw [hsh, hq, pow5Bits_zero]
      omega
    · rw [← hq] at hl hu
      constructor
      · have : 2 ^ n < 2 ^ ((scalingPos n).q + pow5Bits (scalingPos n).q + 7) := by
          calc 2 ^ n < 10 ^ ((scalingPos n).q + 1 + 1) := hu
            _ = 100 * 10 ^ (scalingPos n).q := by ring
            _ ≤ 128 * 2 ^ ((scalingPos n).q + pow5Bits (scalingPos n).q) := by omega
            _ = _ := by ring
        have := exponent_lt_of_pow_lt this
        omega
      · have : 2 ^ ((scalingPos n).q + pow5Bits (scalingPos n).q) < 2 ^ n := by
          have : 10 * 10 ^ (scalingPos n).q ≤ 2 ^ n := by
            rw [← pow_succ']
            exact hl
          have : 0 < 10 ^ (scalingPos n).q := by positivity
          omega
        have := exponent_lt_of_pow_lt this
        omega
  refine ⟨by omega, range.2, ?_, ?_⟩
  · rw [hmul]
    exact le_trans (Nat.pow_le_pow_right (by omega) range.2) hm1
  · rw [hmul]
    calc pow5InvRom (scalingPos n).q * 2 ^ 55 ≤ 2 ^ 122 * 2 ^ 55 := Nat.mul_le_mul_right _ hm2
      _ = 2 ^ 63 * 2 ^ 114 := by norm_num
      _ ≤ 2 ^ 63 * 2 ^ (scalingPos n).sh := Nat.mul_le_mul_left _ (Nat.pow_le_pow_right (by omega) (by omega))

/-- In the negative branch `q` is less than `n`, and `10^(q+1) ≤ 5^n < 10^(q+2)` but for `n = 1`. -/
theorem scalingNeg_q {n : Nat} (hn : 1 ≤ n) :
    (scalingNeg n).q < n ∧
      (n = 1 ∧ (scalingNeg n).q = 0 ∨ 1 < n ∧ 10 * 10 ^ (scalingNeg n).q ≤ 5 ^ n ∧ 5 ^ n < 100 * 10 ^ (scalingNeg n).q) := by
  obtain ⟨hl, hu⟩ := log10Pow5Nat_spec n
  have hlt : log10Pow5Nat n < n := by
    have : 5 ^ n < 10 ^ n := Nat.pow_lt_pow_left (by omega) (by omega)
    exact (Nat.pow_lt_pow_iff_right (by omega : 1 < 10)).1 (lt_of_le_of_lt hl this)
  have hle : (scalingNeg n).q ≤ log10Pow5Nat n := by simp [scalingNeg]
  refine ⟨by omega, ?_⟩
  rcases Nat.lt_or_ge 1 n with h | h
  · right
    have h25 : (5 : Nat) ^ 2 ≤ 5 ^ n := Nat.pow_le_pow_right (by omega) (by omega)
    have h0 : log10Pow5Nat n ≠ 0 := by
      intro h0
      rw [h0] at hu
      omega
    have hq : (scalingNeg n).q + 1 = log10Pow5Nat n := by
      simp [scalingNeg, iverson, h]
      omega
    rw [← hq] at hl hu
    refine ⟨h, ?_, ?_⟩
    · rw [← pow_succ']
      exact hl
    · calc 5 ^ n < 10 ^ ((scalingNeg n).q + 1 + 1) := hu
        _ = _ := by ring
  · obtain rfl : n = 1 := by omega
    exact .inl ⟨rfl, by decide⟩

/-- The negative branch (R177, R182). -/
theorem scalingNeg_ok {n : Nat} (hn : 1 ≤ n) : ScalingOk (scalingNeg n) := by
  obtain ⟨hqn, hq⟩ := scalingNeg_q hn
  have hsh : (scalingNeg n).sh = (scalingNeg n).q + 121 - pow5Bits (n - (scalingNeg n).q) := by
    simp only [scalingNeg, Config.pow5EntryBits]
    omega
  have hmul : (scalingNeg n).mul = pow5Rom (n - (scalingNeg n).q) := rfl
  obtain ⟨hb1, hb2⟩ := pow5Bits_bounds (n - (scalingNeg n).q)
  obtain ⟨hm1, hm2⟩ := pow5Rom_range (n - (scalingNeg n).q)
  have hsplit : 5 ^ n = 5 ^ (scalingNeg n).q * 5 ^ (n - (scalingNeg n).q) := by
    rw [← pow_add]
    congr 1
    omega
  have hten : 10 ^ (scalingNeg n).q = 5 ^ (scalingNeg n).q * 2 ^ (scalingNeg n).q := by
    rw [← Nat.mul_pow]
  have range : 114 ≤ (scalingNeg n).sh ∧ (scalingNeg n).sh ≤ 118 := by
    rcases hq with ⟨rfl, hq⟩ | ⟨h1, hl, hu⟩
    · rw [hsh, hq]
      decide
    · have hpos : 0 < 5 ^ (scalingNeg n).q := by positivity
      rw [hsplit, hten] at hl hu
      have hl' : 10 * 2 ^ (scalingNeg n).q ≤ 5 ^ (n - (scalingNeg n).q) := by
        refine Nat.le_of_mul_le_mul_left ?_ hpos
        calc _ = 10 * (5 ^ (scalingNeg n).q * 2 ^ (scalingNeg n).q) := by ring
          _ ≤ _ := hl
      have hu' : 5 ^ (n - (scalingNeg n).q) < 100 * 2 ^ (scalingNeg n).q := by
        refine Nat.lt_of_mul_lt_mul_left (a := 5 ^ (scalingNeg n).q) ?_
        calc _ < 100 * (5 ^ (scalingNeg n).q * 2 ^ (scalingNeg n).q) := hu
          _ = _ := by ring
      have e1 : (scalingNeg n).q + 3 < pow5Bits (n - (scalingNeg n).q) := by
        apply exponent_lt_of_pow_lt
        have : 0 < 2 ^ (scalingNeg n).q := by positivity
        calc 2 ^ ((scalingNeg n).q + 3) = 8 * 2 ^ (scalingNeg n).q := by ring
          _ < _ := by omega
      have e2 : pow5Bits (n - (scalingNeg n).q) < (scalingNeg n).q + 8 := by
        apply exponent_lt_of_pow_lt
        calc 2 ^ pow5Bits (n - (scalingNeg n).q) < 256 * 2 ^ (scalingNeg n).q := by omega
          _ = _ := by ring
      omega
  refine ⟨range.1, by omega, ?_, ?_⟩
  · rw [hmul]
    exact le_trans (Nat.pow_le_pow_right (by omega) (by omega : (scalingNeg n).sh ≤ 120)) hm1
  · rw [hmul]
    calc pow5Rom (n - (scalingNeg n).q) * 2 ^ 55 ≤ 2 ^ 121 * 2 ^ 55 := Nat.mul_le_mul_right _ hm2
      _ ≤ 2 ^ 63 * 2 ^ 114 := by norm_num
      _ ≤ 2 ^ 63 * 2 ^ (scalingNeg n).sh := Nat.mul_le_mul_left _ (Nat.pow_le_pow_right (by omega) range.1)

/-- Step 3's scaling for every exponent (R182). -/
theorem scalingOf_ok (e2 : Int) : ScalingOk (scalingOf e2) := by
  unfold scalingOf
  split
  · exact scalingPos_ok _
  · exact scalingNeg_ok (by omega)

/-- `mulShift` of an operand below `2^55` is the exact floor, under `2^63` (R125). -/
theorem mulShift_exact {sc : Scaling} (h : ScalingOk sc) {m : Nat} (hm : m < 2 ^ 55) :
    mulShift m sc.mul sc.sh = m * sc.mul / 2 ^ sc.sh ∧ m * sc.mul / 2 ^ sc.sh < 2 ^ 63 := by
  have hlt : m * sc.mul / 2 ^ sc.sh < 2 ^ 63 := by
    rw [Nat.div_lt_iff_lt_mul (by positivity)]
    have hpos : 0 < sc.mul := lt_of_lt_of_le (by positivity) h.scale
    calc m * sc.mul < 2 ^ 55 * sc.mul := Nat.mul_lt_mul_of_pos_right hm hpos
      _ = sc.mul * 2 ^ 55 := Nat.mul_comm _ _
      _ ≤ _ := h.small
  exact ⟨Nat.mod_eq_of_lt (lt_trans hlt (by norm_num)), hlt⟩

/-- A scale of at least 1 keeps distances: `m + d` scales to at least `d` more than `m`. -/
theorem scaled_add_le {sc : Scaling} (h : ScalingOk sc) (m d : Nat) :
    m * sc.mul / 2 ^ sc.sh + d ≤ (m + d) * sc.mul / 2 ^ sc.sh := by
  rw [Nat.le_div_iff_mul_le (by positivity), Nat.add_mul, Nat.add_mul]
  exact Nat.add_le_add (Nat.div_mul_le_self _ _) (Nat.mul_le_mul_left _ h.scale)

/-! ### The operands of Step 3 -/

/-- The implicit leading 1 above the mantissa field is an addition. -/
theorem implicitOne_or {mant : Nat} (hm : mant < 2 ^ 52) : 1 <<< Config.mantissaBits ||| mant = 2 ^ 52 + mant := by
  have h := Nat.two_pow_add_eq_or_of_lt hm 1
  rw [Nat.mul_one] at h
  rw [Nat.shiftLeft_eq, Nat.one_mul, h]

/-- `m2` is a significand: `1 ≤ m2 < 2^53` on the conversion domain (R171). -/
theorem mantissa2_range {mant exp : Nat} (hm : mant < 2 ^ 52) (h0 : ¬ (mant = 0 ∧ exp = 0)) :
    1 ≤ mantissa2 mant exp ∧ mantissa2 mant exp < 2 ^ 53 := by
  unfold mantissa2
  split
  · omega
  · have := implicitOne_or hm
    omega

/-- The value of `m2` for a normal input (R171). -/
theorem mantissa2_normal {mant exp : Nat} (hm : mant < 2 ^ 52) (he : exp ≠ 0) :
    mantissa2 mant exp = 2 ^ 52 + mant := by
  unfold mantissa2
  rw [if_neg he, implicitOne_or hm]

theorem mmShift_le (mant exp : Nat) : mmShift mant exp ≤ 1 := by
  unfold mmShift iverson
  split <;> omega

end Sys2Proof.Machine
end

