-- ==== Sys2Proof/Tests/Slice0.lean ====
section
/-! SUPPORT. The model's own tests. The expected values are those of spec/95_test_vectors.md or are
written out from the spec's tables; the witnesses show that the hypotheses of the statements can be met. -/

namespace Sys2Proof.Tests

open Sys2Proof.Machine

/-! ### WellFormed: each check refuses an ill-formed term -/

theorem test_legal_command : (Command.bare .convert).wellFormed = true := by decide
theorem test_illegal_op_refused : { Command.bare .nop with op := 0x04 }.wellFormed = false := by decide
theorem test_reserved_bits_refused : { Command.bare .nop with rsv := 1 }.wellFormed = false := by decide
theorem test_line_accepted :
    (AsmLine.mk .shortest [.key .a 5, .key .bl 9, .key .c (-325), .flag .vmtz]).wellFormed = true := by decide
theorem test_value_too_wide_refused : (AsmLine.mk .declen [.key .a (2 ^ 64)]).wellFormed = false := by decide
theorem test_negative_unsigned_c_refused : (AsmLine.mk .pow5rd [.key .c (-1)]).wellFormed = false := by decide
theorem test_negative_a_refused : (AsmLine.mk .fmt [.key .a (-1)]).wellFormed = false := by decide
theorem test_c_below_i32_refused : (AsmLine.mk .fmt [.key .c (-2 ^ 31 - 1)]).wellFormed = false := by decide
theorem test_field_twice_refused :
    (AsmLine.mk .mulshift [.key .b 1, .key .bl 2]).wellFormed = false := by decide

/-! ### Decode: words written out field by field, `BH_BL_A_C_CTL` (R71, R79, R85) -/

theorem test_decode_nop : decode 0x0000000000000000000000000000000000000000000000000000000000000000 = .ok .nop := by
  decide
theorem test_decode_pow5bits :
    decode 0x0000000000000000000000000000000000000000000000000000003500000001 = .ok (.pow5bits 53) := by decide
theorem test_decode_pow5rd :
    decode 0x0000000000000000000000000000000000000000000000000000014500000002 = .ok (.pow5rd 325) := by decide
theorem test_decode_pow5invrd :
    decode 0x0000000000000000000000000000000000000000000000000000012300000003 = .ok (.pow5invrd 291) := by decide
theorem test_decode_mulshift :
    decode 0x0000000000000005000000000000000700000000000000030000004000000010 =
      .ok (.mulshift 3 0x50000000000000007 64) := by decide
theorem test_decode_pow5factor :
    decode 0x0000000000000000000000000000000000000000000000190000000000000011 = .ok (.pow5factor 25) := by decide
theorem test_decode_mulpow5 :
    decode 0x0000000000000000000000000000000000000000000000190000000200000012 = .ok (.mulpow5 25 2) := by decide
theorem test_decode_mulpow2 :
    decode 0x0000000000000000000000000000000080000000000000000000003f00000013 =
      .ok (.mulpow2 0x8000000000000000 63) := by decide
theorem test_decode_declen :
    decode 0x000000000000000000000000000000000000000000000009ffffffff00000014 = .ok (.declen 9) := by decide
theorem test_decode_log10pow2 :
    decode 0x000000000000000000000000000000000000000000000000fffff98e00000015 = .ok (.log10pow2 (-1650)) := by decide
theorem test_decode_log10pow5 :
    decode 0x0000000000000000000000000000000000000000000000000000067200000016 = .ok (.log10pow5 1650) := by decide
theorem test_decode_exactint :
    decode 0x000000000000000000000000000000000009000000000000000004050000f020 = .error .reservedBits := by decide
theorem test_decode_exactint_flags_ignored :
    decode 0x0000000000000000000000000000000000090000000000000000040500000f20 =
      .ok (.exactint 0x9000000000000 1029) := by decide
theorem test_decode_interval :
    decode 0x0000000000000000000000000000000000000000000000020000043500000030 = .ok (.interval 2 1077) := by decide
theorem test_decode_shortest :
    decode 0x0422ca8b0a00a4140422ca8b0a00a4460422ca8b0a00a425ffffffe700000631 =
      .ok (.shortest 298023223876953125 298023223876953158 298023223876953108 (-25) true true false) := by decide
theorem test_decode_f2d :
    decode 0x00000000000000000000000000000000000fffffffffffff000007fe00000032 =
      .ok (.f2d 0xfffffffffffff 2046) := by decide
theorem test_decode_fmt :
    decode 0x00000000000000000000000000000000000000000000013afffffffe00000140 = .ok (.fmt 314 (-2) true) := by decide
theorem test_decode_convert :
    decode 0x00000000000000000000000000000000000921fb54442d180000040000000041 =
      .ok (.convert 0x921fb54442d18 1024 false) := by decide
theorem test_decode_illegal_op_before_reserved_bits :
    decode 0x00000000000000000000000000000000000000000000000000000000fffff042 = .error .illegalOp := by decide
theorem test_table_word : decodeTableWord 32 0x41 = some (.convert 0 0 false) := by decide
theorem test_encode_shortest :
    encode (.shortest 5 9 0 0 false false true) =
      0x0000000000000000000000000000000900000000000000050000000000000831 := by decide

/-! ### One command on a block fresh from reset -/

/-- What an instruction leaves of a unit state. -/
def afterFrom (s : State) (i : Instr) : State :=
  match exec i s with
  | .next t => t
  | .fault _ => s
  | .refused _ => s

/-- What it leaves of the block fresh from reset. -/
def after (i : Instr) : State := afterFrom State.reset i

/-- A unit state with recognisable results. -/
def marked : State := { State.reset with v0 := 7, re := 9, oblen := 3 }

theorem test_nop_keeps_results : afterFrom marked .nop = marked := by decide
theorem test_pow5bits_53 : (after (.pow5bits 53)).v0 = 124 ∧ (after (.pow5bits 53)).status.word = 0x0002 := by
  decide
theorem test_pow5bits_326_faults : (after (.pow5bits 326)).status.word = 0x0171 := by decide
theorem test_pow5rd_325 :
    (after (.pow5rd 325)).v0 = 0x278e1316e60a4831 ∧ (after (.pow5rd 325)).v1 = 0x018b40a4eec437c5 := by
  decide +kernel
theorem test_pow5rd_0 : (after (.pow5rd 0)).v1 = 0x0200000000000000 ∧ (after (.pow5rd 0)).v0 = 0 := by decide
theorem test_pow5invrd_291 :
    (after (.pow5invrd 291)).v0 = 0xc5dec645863153a7 ∧ (after (.pow5invrd 291)).v1 = 0x027eab3cf7dcd826 := by
  decide +kernel
theorem test_pow5invrd_292_faults : (after (.pow5invrd 292)).status.word = 0x0371 := by decide
theorem test_mulshift_keeps_low_64_bits :
    (after (.mulshift 0xffffffffffffffff 0xffffffffffffffffffffffffffffffff 127)).v0 = 0xfffffffffffffffd := by
  decide
theorem test_mulshift_negative_shift_faults :
    (after (.mulshift 1 1 0xffffffff)).status.word = 0x1031 := by
  decide
theorem test_pow5factor_27 : (after (.pow5factor 0x6765c793fa10079d)).v0 = 27 := by decide
theorem test_pow5factor_zero_faults : (after (.pow5factor 0)).status.word = 0x1141 := by decide
theorem test_mulpow5_27 : (after (.mulpow5 0x6765c793fa10079d 27)).rf.word = 0x01 := by decide
theorem test_mulpow5_28 : (after (.mulpow5 0x6765c793fa10079d 28)).rf.word = 0x00 := by decide
theorem test_mulpow2_zero_64 : (after (.mulpow2 0 64)).rf.word = 0x01 := by decide
theorem test_mulpow2_zero_65 : (after (.mulpow2 0 65)).rf.word = 0x00 := by decide
theorem test_declen_largest : (after (.declen 0x16345785d89ffff)).v0 = 17 := by decide
theorem test_declen_10_17_faults : (after (.declen 0x16345785d8a0000)).status.word = 0x1451 := by
  decide
theorem test_log10pow2_negative : (after (.log10pow2 0xffffffff)).v0 = 0xffffffffffffffff := by decide
theorem test_log10pow2_1651_faults : (after (.log10pow2 1651)).status.word = 0x1561 := by decide
theorem test_log10pow5_10 : (after (.log10pow5 10)).v0 = 6 := by decide
theorem test_log10pow5_negative : (after (.log10pow5 0xfffff98e)).v0 = 0xfffffffffffffb7e := by decide +kernel
theorem test_exactint_100 :
    (after (.exactint 0x9000000000000 1029)).v0 = 1 ∧ (after (.exactint 0x9000000000000 1029)).re = 2 := by
  decide
theorem test_exactint_2_53_is_declined :
    (after (.exactint 0 1076)).rf.word = 0x00 ∧ (after (.exactint 0 1076)).v0 = 0 := by decide
theorem test_interval_negative_branch :
    (after (.interval 0 1023)).v1 = 1000000000000000111 ∧ (after (.interval 0 1023)).v2 = 999999999999999944 ∧
      (after (.interval 0 1023)).rf.word = 0x0c := by decide
theorem test_interval_positive_branch :
    (after (.interval 1 1077)).v1 = 18014398509481989 ∧
      (after (.interval 2 1077)).rf.word = 0x14 := by decide
theorem test_shortest_tie :
    (after (.shortest 0x422ca8b0a00a425 0x422ca8b0a00a446 0x422ca8b0a00a414 0xffffffe7 true true false)).v0 = 29802322387695312 ∧
      (after (.shortest 0x422ca8b0a00a425 0x422ca8b0a00a446 0x422ca8b0a00a414 0xffffffe7 true true false)).re = -24 := by decide
theorem test_shortest_nontermination :
    (after (.shortest 5 9 0 0 false false true)).status.word = 0x31b1 := by
  decide
theorem test_f2d_pi :
    (after (.f2d 0x921fb54442d18 1024)).v0 = 3141592653589793 ∧
      (after (.f2d 0x921fb54442d18 1024)).re = -15 := by decide
theorem test_f2d_smallest_subnormal :
    (after (.f2d 1 0)).v0 = 5 ∧ (after (.f2d 1 0)).re = -324 := by
  decide +kernel
theorem test_fmt_3_14 :
    (after (.fmt 314 0xfffffffe false)).formattedTail = [0x33, 0x2E, 0x31, 0x34, 0x65, 0x2B, 0x30, 0x30] := by
  decide
theorem test_fmt_checks_mantissa_first :
    (after (.fmt 0 65535 false)).status.word = 0x40a1 := by decide
theorem test_convert_smallest_subnormal :
    (after (.convert 1 0 false)).formattedTail = [0x35, 0x65, 0x2D, 0x33, 0x32, 0x34] := by
  decide +kernel
theorem test_convert_minus_one :
    (after (.convert 0 1023 true)).formattedTail = [0x2D, 0x31, 0x65, 0x2B, 0x30, 0x30] ∧
      (after (.convert 0 1023 true)).rf.word = 0x02 := by decide

/-! ### The port, reset and the assembler -/

/-- The state after one step. -/
def afterStep (s : State) : State :=
  match step s with
  | .next t => t
  | .fault _ => s
  | .refused _ => s

theorem test_word_fetched_by_the_next_step :
    (afterStep (State.reset.withFetchWord 256 0x3500000001)).v0 = 124 ∧
      (afterStep (State.reset.withFetchWord 256 0x3500000001)).rspValid = true := by decide +kernel
theorem test_reset_clears_a_fault :
    (after (.pow5factor 0)).status.word = 0x1141 ∧
      (afterStep { after (.pow5factor 0) with host := [{ rst := true }] }).status.word = 0 ∧
      (afterStep { after (.pow5factor 0) with host := [{ rst := true }] }).mode = .ready := by decide +kernel
theorem test_bus_writes_the_command_port :
    ((idleInput.drive ⟨.input .cmd, 0⟩ 0x13).drive ⟨.input .cmd, 4⟩ 0x40).drive ⟨.input .cmdValid, 0⟩ 1 =
      { cmdValid := true, cmd := 0x4000000013 } := by decide +kernel
theorem test_assemble :
    assemble "MULSHIFT A=0x40000000000000, B=0x4000000000000000000000000000000, C=116" =
        some 0x0400000000000000000000000000000000400000000000000000007400000010 ∧
      assemble "POW5RD C=-1" = none := by decide +kernel
theorem test_spelling :
    String.ofList (spellWord 0x000921fb54442d180000040000000041) =
      "0000000000000000_0000000000000000_000921fb54442d18_00000400_00000041" := by decide +kernel

/-! ### Witnesses: the hypotheses of each statement, met together, at the values where clauses meet -/

theorem witness_MaskedControlWordSelectsOperation :
    (0x00#256).extractLsb' 0 32 &&& 0xFFFFF0FF#32 = (Mnemonic.opcode .nop).setWidth 32 ∧
      (0xF41#256).extractLsb' 0 32 &&& 0xFFFFF0FF#32 = (Mnemonic.opcode .convert).setWidth 32 := by decide
theorem witness_DecodeChecksFault :
    State.reset.mode = .ready ∧ (0x0F#256).extractLsb' 0 8 = 0x0F#8 ∧ (0x42#256).extractLsb' 0 8 = 0x42#8 ∧
      Mnemonic.opcode .convert = (0x1041#256).extractLsb' 0 8 ∧ (0x1041#256).extractLsb' 12 20 ≠ 0 := by decide
theorem witness_UnreadFieldsHaveNoEffect :
    (Command.bare .declen).op = Mnemonic.opcode .declen ∧
      { Command.bare .declen with c := 5, neg := true }.op = Mnemonic.opcode .declen ∧
      { Command.bare .declen with c := 5, neg := true }.rsv = 0 ∧
      Command.sameReadFields .declen (Command.bare .declen) { Command.bare .declen with c := 5, neg := true } :=
  ⟨rfl, rfl, rfl, rfl⟩
theorem witness_OperandBAndFlagsAreAssembled :
    (Command.bare .mulshift).rsv = 0 ∧ (Command.bare .mulshift).op = 0x10 ∧ (Command.bare .shortest).op = 0x31 ∧
      (Command.bare .fmt).op = 0x40 ∧ (Command.bare .convert).op = 0x41 := by decide
theorem witness_AssembledLineDecodesToItsMnemonic :
    assembleLine (.mk .fmt [.key .a 314, .key .c (-2), .flag .neg]) =
        some 0x000000000000013afffffffe00000140 ∧
      assembleLine (.mk .shortest [.key .b (2 ^ 64 + 9)]) =
        some 0x0000000000000001000000000000000900000000000000000000000000000031 ∧
      assembleLine (.mk .shortest [.key .bl 9, .key .bh 1]) =
        some 0x0000000000000001000000000000000900000000000000000000000000000031 := by decide
theorem witness_NopChangesNothing :
    State.reset.mode = .ready ∧ (0x1000#256).extractLsb' 0 8 = 0x00#8 ∧ (0x1000#256).extractLsb' 12 20 ≠ 0 := by decide
theorem witness_Pow5bitsGivesTheBitLength :
    State.reset.mode = .ready ∧ (325#32).toNat ≤ 325 ∧ 325 < (326#32).toNat ∧ (0x01#256).extractLsb' 0 8 = 0x01#8 ∧
      (0x01#256).extractLsb' 12 20 = 0#20 := by decide
theorem witness_Pow5rdReadsTheTable :
    State.reset.mode = .ready ∧ (325#32).toNat ≤ 325 ∧ 326 ≤ (326#32).toNat := by decide
theorem witness_Pow5invrdReadsTheTable :
    State.reset.mode = .ready ∧ (291#32).toNat ≤ 291 ∧ 292 ≤ (292#32).toNat := by decide
theorem witness_Pow5RomContract : 52 ≤ 325 ∧ 52 ≤ 52 ∧ 53 ≤ 53 := by decide
theorem witness_TableEntriesLeaveHeadroom : 1 ≤ 1 ∧ 1 ≤ 325 ∧ 0 ≤ 291 ∧ 2 ^ 64 - 1 < 2 ^ 64 := by decide
theorem witness_MulshiftMultipliesAndShifts :
    State.reset.mode = .ready ∧ (64#32).toInt = (64 : Nat) ∧ (127#32).toInt = (127 : Nat) ∧ (63#32).toInt < 64 ∧
      127 < (128#32).toInt ∧ (0xFFFFFFFF#32).toInt < 64 := by decide
theorem witness_LanesComputeMulShift :
    2 ^ 64 - 1 < 2 ^ 64 ∧ 2 ^ 128 - 1 < 2 ^ 128 ∧ 64 ≤ 64 ∧ 127 ≤ 127 := by decide
theorem witness_Pow5factorGivesTheGreatestPower : State.reset.mode = .ready ∧ (1#64) ≠ 0 ∧ (0#64) = 0 := by decide
theorem witness_Mulpow5TestsDivisibility : State.reset.mode = .ready ∧ (25#64) ≠ 0 ∧ (0#64) = 0 := by decide
theorem witness_Mulpow2TestsTrailingZeros : State.reset.mode = .ready := rfl
theorem witness_DeclenCountsDigits :
    State.reset.mode = .ready ∧ (99999999999999999#64).toNat < 10 ^ 17 ∧ 10 ^ 17 ≤ (100000000000000000#64).toNat := by
  decide
theorem witness_CascadeIsTheDecimalLength :
    10 ^ 17 - 1 < 10 ^ 17 ∧ decimalLengthCascade (10 ^ 17 - 1) = 17 ∧ decimalLengthCascade 0 = 1 := by decide
theorem witness_Log10pow2GivesTheFloor :
    State.reset.mode = .ready ∧ -1650 ≤ (BitVec.ofInt 32 (-1650)).toInt ∧ (1650#32).toInt ≤ 1650 ∧
      (BitVec.ofInt 32 (-1651)).toInt < -1650 ∧ 1650 < (1651#32).toInt := by decide
theorem witness_Log10pow5GivesTheFloor :
    State.reset.mode = .ready ∧ -1650 ≤ (BitVec.ofInt 32 (-1650)).toInt ∧ (1650#32).toInt ≤ 1650 ∧
      (BitVec.ofInt 32 (-1651)).toInt < -1650 ∧ 1650 < (1651#32).toInt := by decide
theorem witness_IntegerLogarithmsAreRealFloors : (-1650 : Int) ≤ -1 ∧ (-1 : Int) ≤ 1650 ∧ (0 : Int) ≤ 0 := by decide

/-- 1.0, an integer below `2^53`. -/
theorem witness_ExactintFindsIntegersBelow2Pow53 :
    State.reset.mode = .ready ∧ FiniteNonZero 0#64 1023#32 ∧ inputValue 0 1023 = (1 : Nat) ∧
      ¬ FiniteNonZero 0#64 0#32 := by
  refine ⟨rfl, by decide, ?_, by decide⟩
  norm_num [inputValue]
/-- 2^53 is an integer, and no integer below `2^53`. -/
theorem witness_ExactintDeclines :
    FiniteNonZero 0#64 1076#32 ∧ ∀ N : Nat, 1 ≤ N → N < 2 ^ 53 → inputValue 0 1076 ≠ N := by
  refine ⟨by decide, fun N _ h => ?_⟩
  have e : inputValue 0 1076 = ((2 ^ 53 : Nat) : ℚ) := by norm_num [inputValue]
  rw [e]
  intro h'
  have : (2 ^ 53 : Nat) = N := by exact_mod_cast h'
  omega
theorem witness_ConversionsCheckTheirDomain :
    State.reset.mode = .ready ∧ 2 ^ 52 ≤ (0x10000000000000#64).toNat ∧ 2047 ≤ (2047#32).toNat ∧
      ((0#64).toNat = 0 ∧ (0#32).toNat = 0) := by decide
theorem witness_IntervalOnThePositiveBranch :
    State.reset.mode = .ready ∧ FiniteNonZero 0#64 1077#32 ∧ 1077 ≤ (1077#32).toNat ∧
      FiniteNonZero 0xfffffffffffff#64 2046#32 := by decide
theorem witness_IntervalOnTheNegativeBranch :
    State.reset.mode = .ready ∧ FiniteNonZero 1#64 0#32 ∧ (0#32).toNat < 1077 ∧ FiniteNonZero 0#64 1076#32 ∧
      (1076#32).toNat < 1077 := by decide
theorem witness_IntervalStaysInRange : State.reset.mode = .ready ∧ FiniteNonZero 1#64 0#32 := by decide
theorem witness_IntervalFloorsTheValueExactly :
    State.reset.mode = .ready ∧ FiniteNonZero 0#64 908#32 ∧ 908 ≤ (908#32).toNat ∧ (1083#32).toNat ≤ 1083 ∧
      FiniteNonZero 0#64 1083#32 := by decide
theorem witness_ShortestFaultsInsteadOfLooping : State.reset.mode = .ready := rfl
/-- Two removals, and the exponents at the edge of an `i32` (the last row of spec/95 §2.5). -/
theorem witness_ShortestOnTheCommonPath :
    State.reset.mode = .ready ∧ FirstCollapse (150#64).toNat (50#64).toNat 2 ∧
      (BitVec.ofInt 32 (2 ^ 31 - 3)).toInt + 2 ≤ 2 ^ 31 - 1 ∧ 2 ^ 31 - 1 < (BitVec.ofInt 32 (2 ^ 31 - 2)).toInt + 2 := by
  refine ⟨rfl, ⟨by decide, fun j hj => ?_⟩, by decide, by decide⟩
  have : j = 0 ∨ j = 1 := by omega
  rcases this with rfl | rfl <;> decide
theorem witness_ShortestOnTheGeneralPath :
    State.reset.mode = .ready ∧ (false || true) = true ∧ ¬ (true = true ∧ (100#64) = 0) ∧
      FirstCollapse (109#64).toNat (100#64).toNat 0 ∧ 10 ^ 2 ∣ (100#64).toNat ∧ ¬ 10 ^ 3 ∣ (100#64).toNat := by
  refine ⟨rfl, rfl, by decide, ⟨by decide, fun j hj => by omega⟩, by decide, by decide⟩
theorem witness_F2dIsShortestOfInterval :
    State.reset.mode = .ready ∧ FiniteNonZero 0#64 1023#32 ∧ ¬ FiniteNonZero 0#64 2047#32 := by decide
theorem witness_F2dGivesSeventeenDigits : State.reset.mode = .ready ∧ FiniteNonZero 0xfffffffffffff#64 2046#32 := by
  decide
theorem witness_ExactPathAgreesWithTheFullSearch :
    State.reset.mode = .ready ∧ FiniteNonZero 0x9000000000000#64 1029#32 ∧
      (after (.exactint 0x9000000000000 1029)).rf.exact = true := by decide
theorem witness_FmtWritesScientificNotation :
    State.reset.mode = .ready ∧ (0#64) = 0 ∧ 10 ^ 17 ≤ (100000000000000000#64).toNat ∧
      (99999999999999999#64) ≠ 0 ∧ (99999999999999999#64).toNat < 10 ^ 17 ∧
      (shownExponent (99999999999999999#64).toNat (983#32).toInt).natAbs ≤ 999 ∧
      999 < (shownExponent (99999999999999999#64).toNat (984#32).toInt).natAbs := by decide
theorem witness_FmtLengthAndAlphabet : State.reset.mode = .ready ∧ Formattable (1#64).toNat (999#32).toInt := by
  decide
theorem witness_FmtIsInjective :
    State.reset.mode = .ready ∧ Formattable (314#64).toNat (BitVec.ofInt 32 (-2)).toInt ∧
      Formattable (10#64).toNat (0#32).toInt := by decide
theorem witness_ConvertIsThePipeline :
    State.reset.mode = .ready ∧ FiniteNonZero 1#64 0#32 ∧ ¬ FiniteNonZero 0#64 0#32 ∧
      (after (.exactint 0 1023)).rf.exact = true ∧ (after (.exactint 0 1022)).rf.exact = false := by
  decide
theorem witness_OutcomeDependsOnOperandsAlone :
    Instr.declen 5 ≠ .nop ∧ State.reset.mode = .ready ∧ marked.mode = .ready := by decide
theorem witness_OperationsReportTheirOwnCauses :
    State.reset.mode = .ready ∧ exec (.pow5factor 0) State.reset = .next (faultEntry .domainZero 0x11 State.reset) ∧
      (faultEntry .domainZero 0x11 State.reset).mode = .faulted :=
  ⟨rfl, rfl, rfl⟩
theorem witness_FaultEntryRecordsTheCommand :
    State.reset.mode = .ready ∧ runCommand 0x11 State.reset = .next (faultEntry .domainZero 0x11 State.reset) ∧
      (faultEntry .domainZero 0x11 State.reset).mode = .faulted :=
  ⟨rfl, rfl, rfl⟩
theorem witness_FaultedDiscardsCommands :
    (after (.pow5factor 0)).mode = .faulted ∧ (after (.pow5factor 0)).nextInput.rst = false := by decide
theorem witness_StatusChangesOnlyByItsRules :
    step State.reset = .next State.reset ∧ Instr.declen 5 ≠ .nop ∧ State.reset.mode = .ready ∧
      exec (.declen 5) State.reset = .next (writeResults { v0 := 1 } State.reset) ∧
      (writeResults { v0 := 1 } State.reset).mode = .ready :=
  ⟨rfl, by decide, rfl, rfl, rfl⟩
theorem witness_StepRunsTheDecodedInstruction :
    decode 0x11 = .ok (.pow5factor 0) ∧ (loadCommand 0x11 State.reset).nextInput.rst = false ∧
      (loadCommand 0x11 State.reset).inFlight = some { cmd := 0x11, remaining := 1 } := by decide
theorem witness_AcceptedCommandCompletesAfterItsLatency :
    State.reset.inFlight = none ∧ State.reset.cmdReady = true ∧
      { State.reset with host := [{ rst := false, cmdValid := true, cmd := 0x11 }] }.host =
        [{ rst := false, cmdValid := true, cmd := 0x11 }] ∧
      ∀ p ∈ ([] : List PortInput).take (Config.latencyCycles 0x11 - 1), p.rst = false :=
  ⟨rfl, rfl, rfl, by simp⟩
theorem witness_UnreadyPortIgnoresCommands :
    (waitFor 0x11 3 State.reset).cmdReady = false ∧ ({ cmdValid := true, cmd := 0x41 } : PortInput).rst = false ∧
      idleInput.rst = false := by decide
theorem witness_IdleCyclesKeepTheState :
    State.reset.inFlight = none ∧ State.reset.nextInput.rst = false ∧ State.reset.nextInput.cmdValid = false := by
  decide
theorem witness_ResetClearsStatusFromAnyState :
    { State.reset with host := [{ rst := true }] }.nextInput.rst = true ∧
      (applyReset { State.reset with host := [{ rst := true }] }.passInput).nextInput.rst = false := by decide
/-- The invariants hold at reset and with a command in flight, and every state steps. -/
theorem witness_StepKeepsConsistent :
    State.reset.statusConsistent ∧ State.reset.portConsistent ∧ State.reset.bufferConsistent ∧
      step State.reset = .next State.reset := by
  refine ⟨?_, fun f h => ?_, fun h => ?_, rfl⟩
  · simp [State.statusConsistent, State.reset]
  · cases h
  · cases h

end Sys2Proof.Tests
end

section
/-! SUPPORT. What one rising edge can do, said once, and the changes of `STATUS` (spec/10_state.md R28). -/

namespace Sys2Proof.Machine

/-! ### Everything an edge can do -/

/-- An edge at which a command is in flight or accepted: it waits, is discarded (or is `NOP`), completes,
or faults; in the last three cases it answers on the port (R40, R232, R233). -/
theorem advance_cases {cw : CommandWord} {n : Nat} {s t : State} (h : advance cw n s = .next t) :
    (n ≠ 0 ∧ t = waitFor cw n s) ∨
    (n = 0 ∧ t = respond s) ∨
    (n = 0 ∧ s.mode = .ready ∧ ∃ res, t = respond (writeResults res s)) ∨
    (n = 0 ∧ s.mode = .ready ∧ ∃ c op, c ≠ .none ∧ t = respond (faultEntry c op s)) := by
  unfold advance at h
  split at h
  case isFalse hn =>
    cases h
    exact .inl ⟨hn, rfl⟩
  case isTrue hn =>
    unfold completeCommand at h
    rcases runCommand_cases cw s with e | ⟨hm, res, e⟩ | ⟨hm, c, op, hc, e⟩ <;> rw [e] at h <;> cases h
    · exact .inr (.inl ⟨hn, rfl⟩)
    · exact .inr (.inr (.inl ⟨hn, hm, res, rfl⟩))
    · exact .inr (.inr (.inr ⟨hn, hm, c, op, hc, rfl⟩))

/-- A step is a reset, an idle cycle, or the work on the command in flight or just accepted (R40, R260,
R265). -/
theorem step_cases {s t : State} (h : step s = .next t) :
    (s.nextInput.rst = true ∧ t = applyReset s.passInput) ∨
    (s.nextInput.rst = false ∧ s.inFlight = none ∧ (s.cmdReady && s.nextInput.cmdValid) = false ∧
      t = idleCycle s.passInput) ∨
    (s.nextInput.rst = false ∧ ∃ f, s.inFlight = some f ∧
      advance f.cmd (f.remaining - 1) s.passInput = .next t) ∨
    (s.nextInput.rst = false ∧ s.inFlight = none ∧ (s.cmdReady && s.nextInput.cmdValid) = true ∧
      advance s.nextInput.cmd (Config.latencyCycles s.nextInput.cmd - 1) s.passInput = .next t) := by
  unfold step cycle at h
  split at h
  case isTrue hr =>
    cases h
    exact .inl ⟨hr, rfl⟩
  case isFalse hr =>
    have hr : s.nextInput.rst = false := by simpa using hr
    unfold clockEdge at h
    rw [State.passInput_inFlight, State.passInput_cmdReady] at h
    cases hf : s.inFlight with
    | some f =>
      rw [hf] at h
      exact .inr (.inr (.inl ⟨hr, f, rfl, h⟩))
    | none =>
      rw [hf] at h
      cases hv : s.cmdReady && s.nextInput.cmdValid <;> simp only [hv] at h
      · cases h
        exact .inr (.inl ⟨hr, rfl, rfl, rfl⟩)
      · exact .inr (.inr (.inr ⟨hr, rfl, rfl, h⟩))

/-! ### `STATUS` (R28) -/

/-- The work on a command leaves `STATUS`, sets `RVALID` alone, or is a fault entry. -/
theorem advance_status {cw : CommandWord} {n : Nat} {s t : State} (h : advance cw n s = .next t) :
    t.status = s.status ∨
    (s.mode = .ready ∧ t.mode = .ready ∧ t.rspValid = true ∧ t.status = s.status.completed) ∨
    (s.mode = .ready ∧ t.mode = .faulted ∧ t.rspValid = true ∧ ∃ c op, c ≠ .none ∧
      t.status = Status.faulted c op) := by
  rcases advance_cases h with ⟨-, rfl⟩ | ⟨-, rfl⟩ | ⟨-, hm, res, rfl⟩ | ⟨-, hm, c, op, hc, rfl⟩
  · exact .inl (waitFor_status cw n s)
  · exact .inl (respond_status s)
  · exact .inr (.inl ⟨hm, hm, rfl, rfl⟩)
  · exact .inr (.inr ⟨hm, rfl, rfl, c, op, hc, rfl⟩)

/-- Every step leaves `STATUS`, sets `RVALID` alone, is a fault entry, or is a reset edge. -/
theorem step_status {s t : State} (h : step s = .next t) :
    t.status = s.status ∨
    (s.mode = .ready ∧ t.mode = .ready ∧ t.rspValid = true ∧ t.status = s.status.completed) ∨
    (s.mode = .ready ∧ t.mode = .faulted ∧ t.rspValid = true ∧ ∃ c op, c ≠ .none ∧
      t.status = Status.faulted c op) ∨
    (s.nextInput.rst = true ∧ t.mode = .ready ∧ t.status = Status.cleared) := by
  have command {cw : CommandWord} {n : Nat} (ha : advance cw n s.passInput = .next t) := advance_status ha
  simp only [State.passInput_status, State.passInput_mode] at command
  rcases step_cases h with ⟨hr, rfl⟩ | ⟨-, -, -, rfl⟩ | ⟨-, f, -, ha⟩ | ⟨-, -, -, ha⟩
  · exact .inr (.inr (.inr ⟨hr, rfl, rfl⟩))
  · exact .inl (idleCycle_status s.passInput)
  all_goals
    rcases command ha with hs | hs | hs
    · exact .inl hs
    · exact .inr (.inl hs)
    · exact .inr (.inr (.inl hs))

/-- An instruction other than `NOP` that leaves `READY` in `READY` has completed (R26). -/
theorem exec_ready_status {i : Instr} {s t : State} (hi : i ≠ .nop) (hs : s.mode = .ready)
    (h : exec i s = .next t) (ht : t.mode = .ready) : t.status = s.status.completed := by
  rcases exec_cases i s with ⟨-, hnop | hm⟩ | ⟨-, res, e⟩ | ⟨-, c, -, e⟩
  · exact absurd hnop hi
  · simp [hs] at hm
  · cases e.symm.trans h
    exact writeResults_status res s
  · cases e.symm.trans h
    simp at ht

/-- Settles O45, from the cases of one edge and of one instruction. -/
theorem statusChangesOnlyByItsRules : Obligations.StatusChangesOnlyByItsRules :=
  ⟨fun _ _ h => step_status h, fun _ _ _ hi hs h ht => exec_ready_status hi hs h ht⟩

end Sys2Proof.Machine
end

section
/-! SUPPORT. The command word as a number and its decode checks, each said once as an equivalence
(30_encoding.md R71, R73, R77 to R80), and the four statements they settle. -/

namespace Sys2Proof

/-! ### A command word and its fields (R71) -/

/-- A concatenation as a number. -/
theorem toNat_append_eq_add {n m : Nat} (x : BitVec n) (y : BitVec m) :
    (x ++ y).toNat = 2 ^ m * x.toNat + y.toNat := by
  rw [BitVec.toNat_append, ← Nat.shiftLeft_add_eq_or_of_lt y.isLt, Nat.shiftLeft_eq, Nat.mul_comm]

/-- A single bit is a field of width 1. -/
theorem ofBool_getLsbD {n : Nat} (x : BitVec n) (k : Nat) :
    BitVec.ofBool (x.getLsbD k) = x.extractLsb' k 1 := by
  apply BitVec.eq_of_getLsbD_eq
  intro i hi
  obtain rfl : i = 0 := by omega
  simp

/-- Writing a word from the fields read from it gives it back: the fields cover every bit. -/
theorem Command.toWord_ofWord (cw : CommandWord) : (Command.ofWord cw).toWord = cw := by
  simp only [Command.toWord, Command.controlWord, Command.ofWord, ofBool_getLsbD,
    BitVec.extractLsb'_append_extractLsb'_eq_extractLsb']
  exact extractLsb'_whole cw

/-- The control word as a number. -/
theorem Command.toNat_controlWord (c : Command) :
    c.controlWord.toNat = c.op.toNat + 2 ^ 8 * c.neg.toNat + 2 ^ 9 * c.acc.toNat + 2 ^ 10 * c.vrtz.toNat +
      2 ^ 11 * c.vmtz.toNat + 2 ^ 12 * c.rsv.toNat := by
  simp only [Command.controlWord, toNat_append_eq_add, BitVec.toNat_ofBool]
  omega

/-- A command word as a number. -/
theorem Command.toNat_toWord (c : Command) :
    c.toWord.toNat = c.controlWord.toNat + 2 ^ 32 * c.c.toNat + 2 ^ 64 * c.a.toNat +
      2 ^ 128 * c.bl.toNat + 2 ^ 192 * c.bh.toNat := by
  simp only [Command.toWord, toNat_append_eq_add]
  omega

/-! ### Operation codes (R79, R80) -/

/-- An operation code selects exactly the operation it is the code of. -/
theorem Mnemonic.ofOpcode_eq_some_iff {op : BitVec 8} {m : Mnemonic} :
    Mnemonic.ofOpcode op = some m ↔ op = m.opcode :=
  ⟨Mnemonic.opcode_of_ofOpcode, fun h => h ▸ m.ofOpcode_opcode⟩

/-- No two operations share a code. -/
theorem Mnemonic.opcode_injective {m m' : Mnemonic} (h : m.opcode = m'.opcode) : m = m' :=
  Option.some.inj <| m.ofOpcode_opcode.symm.trans (Mnemonic.ofOpcode_eq_some_iff.2 h)

/-- An undefined code selects nothing. -/
theorem Mnemonic.ofOpcode_eq_none {op : BitVec 8} (h : ¬ ∃ m : Mnemonic, m.opcode = op) :
    Mnemonic.ofOpcode op = none :=
  Option.eq_none_iff_forall_ne_some.2 fun m hm => h ⟨m, (Mnemonic.ofOpcode_eq_some_iff.1 hm).symm⟩

/-- The values outside the defined ranges select nothing: the match has a case for every other one. -/
theorem Mnemonic.exists_opcode_iff (op : BitVec 8) : (∃ m : Mnemonic, m.opcode = op) ↔
    op.toNat ≤ 0x03 ∨ 0x10 ≤ op.toNat ∧ op.toNat ≤ 0x16 ∨ op.toNat = 0x20 ∨
      0x30 ≤ op.toNat ∧ op.toNat ≤ 0x32 ∨ 0x40 ≤ op.toNat ∧ op.toNat ≤ 0x41 := by
  constructor
  · rintro ⟨m, rfl⟩
    cases m <;> decide
  · intro hr
    by_contra hex
    have hnone := Mnemonic.ofOpcode_eq_none hex
    unfold Mnemonic.ofOpcode at hnone
    split at hnone
    case h_18 =>
      simp only [imp_false] at *
      omega
    all_goals cases hnone

/-! ### The mask of R79 -/

/-- A mask field by field: a field of ones is kept and a bit of zero is cleared. -/
theorem masked_append {n m : Nat} (x : BitVec n) (f₃ f₂ f₁ f₀ : BitVec 1) (y : BitVec m) :
    (x ++ f₃ ++ f₂ ++ f₁ ++ f₀ ++ y) &&&
        (BitVec.allOnes n ++ 0#1 ++ 0#1 ++ 0#1 ++ 0#1 ++ BitVec.allOnes m) =
      x ++ 0#1 ++ 0#1 ++ 0#1 ++ 0#1 ++ y := by
  simp only [BitVec.and_append, BitVec.and_allOnes, BitVec.and_zero]

/-- The mask keeps `OP` and `RSV` and clears the four flags between them. -/
theorem Command.controlWord_masked (c : Command) :
    c.controlWord &&& 0xFFFFF0FF#32 = c.rsv ++ 0#1 ++ 0#1 ++ 0#1 ++ 0#1 ++ c.op := by
  have hmask : 0xFFFFF0FF#32 =
      BitVec.allOnes 20 ++ 0#1 ++ 0#1 ++ 0#1 ++ 0#1 ++ BitVec.allOnes 8 := by decide
  rw [hmask]
  exact masked_append c.rsv _ _ _ _ c.op

/-- The masked control word is an operation code iff `OP` is that code and `RSV` is 0. -/
theorem Command.controlWord_masked_eq_iff (c : Command) (op : BitVec 8) :
    c.controlWord &&& 0xFFFFF0FF#32 = op.setWidth 32 ↔ c.op = op ∧ c.rsv = 0 := by
  rw [Command.controlWord_masked, ← BitVec.toNat_inj, ← BitVec.toNat_inj, ← BitVec.toNat_inj]
  simp only [toNat_append_eq_add, BitVec.toNat_setWidth, BitVec.ofNat_eq_ofNat, BitVec.toNat_ofNat]
  omega

/-! ### The decode checks (R73, R80) -/

/-- The operands an operation reads do not change which operation it is. -/
@[simp] theorem Command.instr_mnemonic (c : Command) (m : Mnemonic) : (c.instr m).mnemonic = m := by
  cases m <;> rfl

/-- An undefined `OP` is rejected, whatever the other fields hold. -/
theorem Command.decode_illegalOp {c : Command} (h : ¬ ∃ m : Mnemonic, m.opcode = c.op) :
    c.decode = .error .illegalOp := by
  rw [Command.decode, Mnemonic.ofOpcode_eq_none h]

/-- A defined `OP` with `RSV ≠ 0` is rejected. -/
theorem Command.decode_reservedBits {c : Command} {m : Mnemonic} (hop : c.op = m.opcode) (h : c.rsv ≠ 0) :
    c.decode = .error .reservedBits := by
  rw [Command.decode, hop, Mnemonic.ofOpcode_opcode]
  exact if_neg h

/-- A command decodes to an instruction iff its `OP` is an operation's code and its `RSV` is 0; the
instruction is then what that operation reads. -/
theorem Command.decode_eq_ok_iff {c : Command} {i : Instr} :
    c.decode = .ok i ↔ ∃ m : Mnemonic, c.op = m.opcode ∧ c.rsv = 0 ∧ c.instr m = i := by
  constructor
  · intro h
    by_cases hex : ∃ m : Mnemonic, m.opcode = c.op
    · obtain ⟨m, hm⟩ := hex
      by_cases hrsv : c.rsv = 0
      · exact ⟨m, hm.symm, hrsv, Except.ok.inj ((Command.decode_ok hm.symm hrsv).symm.trans h)⟩
      · cases (Command.decode_reservedBits hm.symm hrsv).symm.trans h
    · cases (Command.decode_illegalOp hex).symm.trans h
  · rintro ⟨m, hop, hrsv, rfl⟩
    exact Command.decode_ok hop hrsv

/-- A command decodes to an instruction of a given operation iff `OP` is its code and `RSV` is 0. -/
theorem Command.decode_mnemonic_iff (c : Command) (m : Mnemonic) :
    (∃ i, c.decode = .ok i ∧ i.mnemonic = m) ↔ c.op = m.opcode ∧ c.rsv = 0 := by
  constructor
  · rintro ⟨i, hi, rfl⟩
    obtain ⟨m, hop, hrsv, rfl⟩ := Command.decode_eq_ok_iff.1 hi
    exact ⟨by rwa [Command.instr_mnemonic], hrsv⟩
  · rintro ⟨hop, hrsv⟩
    exact ⟨c.instr m, Command.decode_ok hop hrsv, c.instr_mnemonic m⟩

/-! ### The statements about the encoding -/

/-- Settles O2: a word is the word of its fields, and `RSV ≠ 0` fails a decode check. -/
theorem commandWordIsTheSumOfItsFields : Obligations.CommandWordIsTheSumOfItsFields := by
  intro cw c
  refine ⟨?_, fun hrsv i hi => ?_⟩
  · rw [← Command.toNat_controlWord, ← Command.toNat_toWord, Command.toWord_ofWord]
  · obtain ⟨m, -, h, -⟩ := Command.decode_eq_ok_iff.1 hi
    exact hrsv h

/-- Settles O3: the mask keeps exactly the two fields that the decode checks read. -/
theorem maskedControlWordSelectsOperation : Obligations.MaskedControlWordSelectsOperation := by
  refine ⟨Mnemonic.exists_opcode_iff, fun _ _ => Mnemonic.opcode_injective, fun cw m => ?_⟩
  rw [← Command.toWord_ofWord cw, Command.toWord_controlWord, Command.controlWord_masked_eq_iff,
    decode_toWord]
  exact Command.decode_mnemonic_iff _ m

/-- Settles O6: with `RSV = 0` each `OP` decodes to its operation's instruction, and `BH` lies above
`BL` in `B`. -/
theorem operandBAndFlagsAreAssembled : Obligations.OperandBAndFlagsAreAssembled := by
  intro c hrsv
  have decodes (m : Mnemonic) (hop : c.op = m.opcode) : decode c.toWord = .ok (c.instr m) :=
    (decode_toWord c).trans (Command.decode_ok hop hrsv)
  refine ⟨fun hop => ⟨c.bh ++ c.bl, decodes .mulshift hop, ?_⟩, decodes .shortest, decodes .fmt,
    decodes .convert⟩
  rw [toNat_append_eq_add, Nat.mul_comm]

/-! ### A failed decode check faults -/

namespace Machine

/-- In `READY` a word that fails a decode check takes that check's fault, with its own `OP` in `FOP`
(R232, R236). -/
theorem runCommand_decode_error {cw : CommandWord} {s : State} {r : DecodeReject} (hs : s.mode = .ready)
    (h : decode cw = .error r) :
    ∃ t, runCommand cw s = .next t ∧ s.FaultedBy t (rejectCause r) (cw.extractLsb' 0 8) := by
  refine ⟨_, ?_, faultedBy_faultEntry _ _ s⟩
  rw [runCommand, h]
  exact finish_error hs

/-- Settles O4: the two ways to fail a decode check, each with its fault. -/
theorem decodeChecksFault : Obligations.DecodeChecksFault := by
  intro cw s hs op
  refine ⟨fun hundef => ?_, fun ⟨m, hm⟩ hrsv => ?_⟩
  · have hnone : ¬ ∃ m : Mnemonic, m.opcode = op := by
      rw [Mnemonic.exists_opcode_iff]
      omega
    exact runCommand_decode_error hs (Command.decode_illegalOp (c := Command.ofWord cw) hnone)
  · exact runCommand_decode_error hs
      (Command.decode_reservedBits (c := Command.ofWord cw) hm.symm hrsv)

end Machine
end Sys2Proof
end

section
/-! SUPPORT. The control and table operations (40_control_and_tables.md R100 to R103): the checks and
results of each in terms of its index, what the tables hold, and the four statements they settle. -/

namespace Sys2Proof.Machine

/-! ### Selection and the two ends of a command, in the terms of the claims -/

/-- An operation's code selects what the operation reads of the command's fields. -/
theorem selects_opcode (m : Mnemonic) : Selects m.opcode (fun c => c.instr m) :=
  fun _ hop hrsv => decode_of_op m hop hrsv

/-- In `READY` a command whose checks pass completes with its results. -/
theorem finish_completes {op : BitVec 8} {r : Except Cause Results} {res : Results} {s : State}
    (hs : s.mode = .ready) (hr : r = .ok res) (hb : res.bytes.length < 32) :
    ∃ t, finish op r s = .next t ∧ s.CompletedWith t res :=
  ⟨_, hr ▸ finish_ok hs, completedWith_writeResults s hb⟩

/-- In `READY` a command whose check fails takes that check's fault. -/
theorem finish_faults {op : BitVec 8} {r : Except Cause Results} {c : Cause} {s : State}
    (hs : s.mode = .ready) (hr : r = .error c) :
    ∃ t, finish op r s = .next t ∧ s.FaultedBy t c op :=
  ⟨_, hr ▸ finish_error hs, faultedBy_faultEntry c op s⟩

/-! ### The index checks (R101 to R103) -/

theorem pow5bitsResult_ok {e : Nat} (h : e ≤ 325) :
    pow5bitsResult e = .ok { v0 := zext64 (pow5Bits e) } :=
  if_neg (Nat.not_lt.2 h)

theorem pow5bitsResult_error {e : Nat} (h : 325 < e) : pow5bitsResult e = .error .indexRange :=
  if_pos h

theorem pow5rdResult_ok {i : Nat} (h : i ≤ 325) :
    pow5rdResult i = .ok { v0 := lowHalf (pow5Rom i), v1 := highHalf (pow5Rom i) } :=
  if_neg (Nat.not_lt.2 h)

theorem pow5rdResult_error {i : Nat} (h : 325 < i) : pow5rdResult i = .error .indexRange :=
  if_pos h

theorem pow5invrdResult_ok {q : Nat} (h : q ≤ 291) :
    pow5invrdResult q = .ok { v0 := lowHalf (pow5InvRom q), v1 := highHalf (pow5InvRom q) } :=
  if_neg (Nat.not_lt.2 h)

theorem pow5invrdResult_error {q : Nat} (h : 291 < q) : pow5invrdResult q = .error .indexRange :=
  if_pos h

/-! ### What the tables hold -/

/-- The low half as a remainder, as the claims write it. -/
theorem lowHalf_eq_mod (u : Nat) : lowHalf u = BitVec.ofNat 64 (u % 2 ^ 64) :=
  BitVec.eq_of_toNat_eq (by simp [lowHalf])

/-- `pow5_bits(i)` in both cases of R31. -/
theorem pow5Bits_cases (i : Nat) :
    i = 0 ∧ pow5Bits i = 0 ∨ 1 ≤ i ∧ 2 ^ (pow5Bits i - 1) < 5 ^ i ∧ 5 ^ i < 2 ^ pow5Bits i := by
  rcases Nat.eq_zero_or_pos i with rfl | hi
  · exact .inl ⟨rfl, pow5Bits_zero⟩
  · exact .inr ⟨hi, (pow5Bits_spec hi).2⟩

/-- Each factor 5 adds at most three bits, for `5 ≤ 2^3`. -/
theorem pow5Bits_le (i : Nat) : pow5Bits i ≤ 3 * i := by
  rcases pow5Bits_cases i with ⟨rfl, h0⟩ | ⟨hi, hlow, -⟩
  · exact h0.le
  · have hpow : 2 ^ (pow5Bits i - 1) < 2 ^ (3 * i) := by
      calc 2 ^ (pow5Bits i - 1) < 5 ^ i := hlow
        _ ≤ 8 ^ i := Nat.pow_le_pow_left (by omega) i
        _ = 2 ^ (3 * i) := (pow_mul 2 3 i).symm
    have hlt := (Nat.pow_lt_pow_iff_right (by omega)).1 hpow
    omega

/-- `Pow5Rom[i]` is the floor of R32, cleared of its denominator. -/
theorem pow5Rom_spec (i : Nat) :
    pow5Rom i * 2 ^ pow5Bits i ≤ 5 ^ i * 2 ^ 121 ∧ 5 ^ i * 2 ^ 121 < (pow5Rom i + 1) * 2 ^ pow5Bits i := by
  rw [pow5Rom_eq]
  exact ⟨Nat.div_mul_le_self .., (Nat.div_lt_iff_lt_mul (by positivity)).1 (Nat.lt_succ_self _)⟩

/-- `Pow5InvRom[q]` is the ceiling of R34, cleared of its denominator. -/
theorem pow5InvRom_spec (q : Nat) :
    2 ^ (pow5Bits q + 121) ≤ pow5InvRom q * 5 ^ q ∧
      pow5InvRom q * 5 ^ q < 2 ^ (pow5Bits q + 121) + 5 ^ q :=
  ceilDiv_spec (by positivity)

/-! ### The statements about the control and table operations -/

/-- Settles O9: `exec` of `NOP` answers its own state, and only the `RSV` check can fault. -/
theorem nopChangesNothing : Obligations.NopChangesNothing := by
  refine ⟨selects_opcode .nop, fun _ => rfl, fun cw s hs hop hrsv => ?_⟩
  rw [← hop]
  exact (decodeChecksFault cw s hs).2 ⟨.nop, hop.symm⟩ hrsv

/-- Settles O10: `V0` is `pow5_bits(e)`, bounded by three bits for each factor 5. -/
theorem pow5bitsGivesTheBitLength : Obligations.Pow5bitsGivesTheBitLength := by
  refine ⟨selects_opcode .pow5bits, fun e s hs => ⟨fun he => ?_, fun he => ?_⟩⟩
  · obtain ⟨t, ht, hres⟩ := finish_completes (op := 0x01) hs (pow5bitsResult_ok he) (by simp)
    have hbits := pow5Bits_le e.toNat
    exact ⟨t, pow5Bits e.toNat, ht, hres, by omega, pow5Bits_cases e.toNat⟩
  · exact finish_faults hs (pow5bitsResult_error he)

/-- Settles O11: the entry read is the floor of R32. -/
theorem pow5rdReadsTheTable : Obligations.Pow5rdReadsTheTable := by
  refine ⟨selects_opcode .pow5rd, fun i s hs => ⟨fun hi => ?_, fun hi => ?_⟩⟩
  · obtain ⟨t, ht, hres⟩ := finish_completes (op := 0x02) hs (pow5rdResult_ok hi) (by simp)
    rw [lowHalf_eq_mod] at hres
    have hrange := (pow5Rom_range i.toNat).2
    exact ⟨t, pow5Bits i.toNat, pow5Rom i.toNat, ht, hres, by omega, pow5Bits_cases _, pow5Rom_spec _⟩
  · exact finish_faults hs (pow5rdResult_error hi)

/-- Settles O12: the entry read is the ceiling of R34. -/
theorem pow5invrdReadsTheTable : Obligations.Pow5invrdReadsTheTable := by
  refine ⟨selects_opcode .pow5invrd, fun q s hs => ⟨fun hq => ?_, fun hq => ?_⟩⟩
  · obtain ⟨t, ht, hres⟩ := finish_completes (op := 0x03) hs (pow5invrdResult_ok hq) (by simp)
    rw [lowHalf_eq_mod] at hres
    have hrange := (pow5InvRom_range q.toNat).2
    exact ⟨t, pow5Bits q.toNat, pow5InvRom q.toNat, ht, hres, by omega, pow5Bits_cases _, pow5InvRom_spec _⟩
  · exact finish_faults hs (pow5invrdResult_error hq)

end Sys2Proof.Machine
end

section
/-! SUPPORT. The fixed-precision primitives (41_primitives.md R120 to R146): the checks and results of
each command in terms of its operands, and the seven statements they settle. -/

namespace Sys2Proof.Machine

/-! ### The commands that read `C` as two's complement (R76) -/

/-- `s32(C)` is Lean's signed reading of `C` (R10). -/
theorem s32_eq_toInt (c : Word32) : s32 c = c.toInt := by
  rw [s32, BitVec.toInt_eq_msb_cond, BitVec.msb_eq_getLsbD_last]
  norm_num

theorem exec_mulshift (m : U64) (u : U128) (sh : Word32) (s : State) :
    exec (.mulshift m u sh) s = finish 0x10 (mulshiftResult m.toNat u.toNat sh.toInt) s :=
  s32_eq_toInt sh ▸ rfl

theorem exec_log10pow2 (e : Word32) (s : State) :
    exec (.log10pow2 e) s = finish 0x15 (log10pow2Result e.toInt) s :=
  s32_eq_toInt e ▸ rfl

theorem exec_log10pow5 (e : Word32) (s : State) :
    exec (.log10pow5 e) s = finish 0x16 (log10pow5Result e.toInt) s :=
  s32_eq_toInt e ▸ rfl

/-! ### `MULSHIFT` (R120, R124) -/

/-- Placing `mulShift` in `V0` loses nothing more: it is already reduced to its low 64 bits. -/
theorem zext64_mulShift (m u s : Nat) : zext64 (mulShift m u s) = BitVec.ofNat 64 (m * u / 2 ^ s) :=
  BitVec.eq_of_toNat_eq (by simp [zext64, mulShift, trunc64])

theorem mulshiftResult_ok {m u k : Nat} (hlow : 64 ≤ k) (hhigh : k ≤ 127) :
    mulshiftResult m u k = .ok { v0 := BitVec.ofNat 64 (m * u / 2 ^ k) } := by
  have hrange : ¬ ((k : Int) < 64 ∨ (k : Int) > 127) := by omega
  rw [mulshiftResult, if_neg hrange, Int.toNat_natCast, zext64_mulShift]

theorem mulshiftResult_error {m u : Nat} {sh : Int} (h : sh < 64 ∨ 127 < sh) :
    mulshiftResult m u sh = .error .shiftRange :=
  if_pos h

/-! ### The divisibility detectors (R126 to R133) -/

/-- The count of divisions by 5 is at most the fuel, for `pow5_factor` 27 (R126). -/
theorem pow5FactorAux_le (fuel v : Nat) : pow5FactorAux fuel v ≤ fuel := by
  induction fuel generalizing v with
  | zero => exact le_rfl
  | succ fuel ih =>
    unfold pow5FactorAux
    split
    · exact Nat.succ_le_succ (ih (v / 5))
    · exact Nat.zero_le _

theorem pow5factorResult_ok {v : Nat} (h : v ≠ 0) :
    pow5factorResult v = .ok { v0 := zext64 (pow5Factor v) } :=
  if_neg h

theorem mulpow5Result_ok {v : Nat} (p : Nat) (h : v ≠ 0) :
    mulpow5Result v p = .ok { rf := boolFlag (multipleOfPow5 v p) } :=
  if_neg h

/-- `multiple_of_pow2` for every `p`: no `u64` is credited with more than 64 trailing zeros (R132). -/
theorem multipleOfPow2_iff_le (v p : Nat) : multipleOfPow2 v p = true ↔ p ≤ 64 ∧ 2 ^ p ∣ v := by
  by_cases hp : p ≤ 64
  · simp [hp, multipleOfPow2_iff hp]
  · have htz : tz v ≤ 64 := tzAux_le 64 v
    simp [multipleOfPow2, hp]
    omega

/-! ### `DECLEN` (R136, R137) -/

theorem declenResult_ok {u : Nat} (h : u < 10 ^ 17) :
    declenResult u = .ok { v0 := zext64 (decimalLength u) } :=
  if_neg (Nat.not_le.2 h)

theorem declenResult_error {u : Nat} (h : 10 ^ 17 ≤ u) : declenResult u = .error .declenRange :=
  if_pos h

/-- `decimal_length(u)` in both cases of R136: one digit for 0, else the decimal places of `u`. -/
theorem decimalLength_cases {u : Nat} (h : u < 2 ^ 64) :
    1 ≤ decimalLength u ∧ u < 10 ^ decimalLength u ∧
      (u = 0 ∧ decimalLength u = 1 ∨ 10 ^ (decimalLength u - 1) ≤ u) := by
  rcases eq_or_ne u 0 with rfl | h0
  · simp [decimalLength_zero]
  · obtain ⟨hpos, hle, hlt⟩ := decimalLength_spec h0 h
    exact ⟨hpos, hlt, .inr hle⟩

/-- In the domain of `DECLEN` there are at most 17 digits. -/
theorem decimalLength_le {u : Nat} (h : u < 10 ^ 17) : decimalLength u ≤ 17 := by
  obtain ⟨-, -, ⟨-, hone⟩ | hle⟩ := decimalLength_cases (h.trans (by norm_num))
  · omega
  · have hlt := (Nat.pow_lt_pow_iff_right (by omega)).1 (hle.trans_lt h)
    omega

/-! ### The decimal logarithms (R140 to R146) -/

theorem outsideLogRange_iff (e : Int) : outsideLogRange e = true ↔ e < -1650 ∨ 1650 < e := by
  simp [outsideLogRange]

/-- The magnitude that both branches of a signed logarithm take the logarithm of. -/
theorem ite_toNat_eq_ite_natAbs (f : Nat → Nat) (e : Int) :
    (if 0 ≤ e then (f e.toNat : Int) else -((f (-e).toNat : Int) + 1)) =
      if 0 ≤ e then (f e.natAbs : Int) else -((f e.natAbs : Int) + 1) := by
  split
  · rw [show e.toNat = e.natAbs by omega]
  · rw [show (-e).toNat = e.natAbs by omega]

theorem log10pow2Result_ok {e : Int} (hlow : -1650 ≤ e) (hhigh : e ≤ 1650) :
    log10pow2Result e =
      .ok { v0 := .ofInt 64 (if 0 ≤ e then (log10Pow2Nat e.natAbs : Int) else -(log10Pow2Nat e.natAbs + 1)) } := by
  have hin : ¬ outsideLogRange e = true := by rw [outsideLogRange_iff]; omega
  rw [log10pow2Result, if_neg hin, log10Pow2, ite_toNat_eq_ite_natAbs, sext64]

theorem log10pow2Result_error {e : Int} (h : e < -1650 ∨ 1650 < e) : log10pow2Result e = .error .logRange :=
  if_pos ((outsideLogRange_iff e).2 h)

theorem log10pow5Result_ok {e : Int} (hlow : -1650 ≤ e) (hhigh : e ≤ 1650) :
    log10pow5Result e =
      .ok { v0 := .ofInt 64 (if 0 ≤ e then (log10Pow5Nat e.natAbs : Int) else -(log10Pow5Nat e.natAbs + 1)) } := by
  have hin : ¬ outsideLogRange e = true := by rw [outsideLogRange_iff]; omega
  rw [log10pow5Result, if_neg hin, log10Pow5, ite_toNat_eq_ite_natAbs, sext64]

theorem log10pow5Result_error {e : Int} (h : e < -1650 ∨ 1650 < e) : log10pow5Result e = .error .logRange :=
  if_pos ((outsideLogRange_iff e).2 h)

/-! ### The statements about the primitives -/

/-- Settles O15: the product is shifted exactly and only then cut to 64 bits, and the check is on the
signed reading of `C`. -/
theorem mulshiftMultipliesAndShifts : Obligations.MulshiftMultipliesAndShifts := by
  refine ⟨selects_opcode .mulshift, fun m u sh s hs => ?_⟩
  rw [exec_mulshift]
  refine ⟨fun k hk hlow hhigh => ?_, fun hsh => finish_faults hs (mulshiftResult_error hsh)⟩
  rw [hk]
  exact finish_completes hs (mulshiftResult_ok hlow hhigh) (by simp)

/-- Settles O17: 27 divisions reach the greatest power of five in a `u64`. -/
theorem pow5factorGivesTheGreatestPower : Obligations.Pow5factorGivesTheGreatestPower := by
  refine ⟨selects_opcode .pow5factor, fun v s hs => ⟨fun hv => ?_, fun hv => ?_⟩⟩
  · have h0 : v.toNat ≠ 0 := BitVec.toNat_ne_iff_ne.2 hv
    obtain ⟨t, ht, hres⟩ := finish_completes (op := 0x11) hs (pow5factorResult_ok h0) (by simp)
    exact ⟨t, pow5Factor v.toNat, ht, hres, pow5FactorAux_le 27 _, pow5Factor_spec h0 v.isLt⟩
  · subst hv
    exact finish_faults hs rfl

/-- Settles O18: the comparison with `pow5_factor(v)` is divisibility, and the check for 0 does not
read `p`. -/
theorem mulpow5TestsDivisibility : Obligations.Mulpow5TestsDivisibility := by
  refine ⟨selects_opcode .mulpow5, fun v p s hs => ⟨fun hv => ?_, fun hv => ?_⟩⟩
  · have h0 : v.toNat ≠ 0 := BitVec.toNat_ne_iff_ne.2 hv
    obtain ⟨t, ht, hres⟩ := finish_completes (op := 0x12) hs (mulpow5Result_ok p.toNat h0) (by simp)
    exact ⟨t, multipleOfPow5 v.toNat p.toNat, ht, hres, multipleOfPow5_iff h0 v.isLt p.toNat⟩
  · subst hv
    exact finish_faults hs rfl

/-- Settles O19: the comparison with `tz(v)` is divisibility up to `p = 64` and fails above it. -/
theorem mulpow2TestsTrailingZeros : Obligations.Mulpow2TestsTrailingZeros := by
  refine ⟨selects_opcode .mulpow2, fun v p s hs => ?_⟩
  obtain ⟨t, ht, hres⟩ := finish_completes (op := 0x13) (r := mulpow2Result v.toNat p.toNat) hs rfl (by simp)
  exact ⟨t, multipleOfPow2 v.toNat p.toNat, ht, hres, multipleOfPow2_iff_le v.toNat p.toNat⟩

/-- Settles O20: `V0` is `decimal_length(u)`, at most 17 below `10^17`. -/
theorem declenCountsDigits : Obligations.DeclenCountsDigits := by
  refine ⟨selects_opcode .declen, fun u s hs => ⟨fun hu => ?_, fun hu => ?_⟩⟩
  · obtain ⟨t, ht, hres⟩ := finish_completes (op := 0x14) hs (declenResult_ok hu) (by simp)
    obtain ⟨hpos, hlt, hcases⟩ := decimalLength_cases u.isLt
    exact ⟨t, decimalLength u.toNat, ht, hres, hpos, decimalLength_le hu, hlt,
      hcases.imp_left fun ⟨h0, hone⟩ => ⟨BitVec.eq_of_toNat_eq h0, hone⟩⟩
  · exact finish_faults hs (declenResult_error hu)

/-- Settles O22: both signs take the logarithm of `2^|e|`, and a negative one is rounded down by one. -/
theorem log10pow2GivesTheFloor : Obligations.Log10pow2GivesTheFloor := by
  refine ⟨selects_opcode .log10pow2, fun e s hs => ?_⟩
  rw [exec_log10pow2]
  refine ⟨fun hlow hhigh => ?_, fun he => finish_faults hs (log10pow2Result_error he)⟩
  obtain ⟨t, ht, hres⟩ := finish_completes (op := 0x15) hs (log10pow2Result_ok hlow hhigh) (by simp)
  exact ⟨t, log10Pow2Nat e.toInt.natAbs, ht, hres, log10Pow2Nat_spec _⟩

/-- Settles O23: both signs take the logarithm of `5^|e|`, and a negative one is rounded down by one. -/
theorem log10pow5GivesTheFloor : Obligations.Log10pow5GivesTheFloor := by
  refine ⟨selects_opcode .log10pow5, fun e s hs => ?_⟩
  rw [exec_log10pow5]
  refine ⟨fun hlow hhigh => ?_, fun he => finish_faults hs (log10pow5Result_error he)⟩
  obtain ⟨t, ht, hres⟩ := finish_completes (op := 0x16) hs (log10pow5Result_ok hlow hhigh) (by simp)
  exact ⟨t, log10Pow5Nat e.toInt.natAbs, ht, hres, log10Pow5Nat_spec _⟩

end Sys2Proof.Machine
end

section
/-! SUPPORT. The input domain of the conversions (43_shortest.md R170), and the statement it settles. -/

namespace Sys2Proof.Machine

/-! ### The domain check (R170) -/

/-- The domain in bounds on the fields, as the claims write it. -/
theorem inConvDomain_iff (mant exp : Nat) :
    inConvDomain mant exp = true ↔ mant < 2 ^ 52 ∧ exp < 2047 ∧ ¬ (mant = 0 ∧ exp = 0) := by
  simp [inConvDomain, Config.mantissaBits, Config.expFieldBits]
  omega

/-- On the domain the check passes on what the command computes. -/
theorem convCheck_inside {mant : U64} {exp : Word32} (h : FiniteNonZero mant exp) (r : Except Cause Results) :
    convCheck mant.toNat exp.toNat r = r :=
  if_pos ((inConvDomain_iff _ _).2 h)

/-- Outside the domain the check faults, whatever the command would compute. -/
theorem convCheck_outside {mant : U64} {exp : Word32} (h : ¬ FiniteNonZero mant exp) (r : Except Cause Results) :
    convCheck mant.toNat exp.toNat r = .error .inputDomain :=
  if_neg (mt (inConvDomain_iff _ _).1 h)

/-- Settles O26: each of the four commands applies the check before its own computation. -/
theorem conversionsCheckTheirDomain : Obligations.ConversionsCheckTheirDomain := by
  intro mant exp neg s hs hout
  have outside : ¬ FiniteNonZero mant exp := by
    rintro ⟨hmant, hexp, h0⟩
    omega
  exact ⟨finish_faults hs (convCheck_outside outside _), finish_faults hs (convCheck_outside outside _),
    finish_faults hs (convCheck_outside outside _), finish_faults hs (convCheck_outside outside _)⟩

end Sys2Proof.Machine
end

section
/-! SUPPORT. Step 4 in closed form on both paths (43_shortest.md R185 to R196), and the two statements
about `SHORTEST` it settles. -/

namespace Sys2Proof.Machine

/-! ### Removing digits, for any operand -/

/-- A product of powers of ten divides in two steps, as two loops in a row remove digits. -/
theorem pow_add_dvd_iff (v a b : Nat) : 10 ^ (a + b) ∣ v ↔ 10 ^ a ∣ v ∧ 10 ^ b ∣ v / 10 ^ a := by
  rw [pow_add]
  constructor
  · intro h
    have ha : 10 ^ a ∣ v := dvd_of_mul_right_dvd h
    exact ⟨ha, (Nat.dvd_div_iff_mul_dvd ha).2 h⟩
  · rintro ⟨ha, hb⟩
    exact (Nat.dvd_div_iff_mul_dvd ha).1 hb

theorem div_pow_add (v a b : Nat) : v / 10 ^ (a + b) = v / 10 ^ a / 10 ^ b := by
  rw [pow_add, Nat.div_div_eq_div_mul]

/-- A count at which something is left of a `u64` is at most 19. -/
theorem le_19_of_pow_le {v r : Nat} (hv : v < 2 ^ 64) (h : 10 ^ r ≤ v) : r ≤ 19 := by
  have hlt : 10 ^ r < 10 ^ 20 := h.trans_lt (hv.trans (by norm_num))
  have := (Nat.pow_lt_pow_iff_right (by omega)).1 hlt
  omega

/-- A `u64` collapses after at most 19 removals: each of them left something of `vp`. -/
theorem FirstCollapse.le_19 {vp vm r : Nat} (h : FirstCollapse vp vm r) (hvp : vp < 2 ^ 64) : r ≤ 19 := by
  cases r with
  | zero => omega
  | succ r =>
    have hpos : 0 < vp / 10 ^ (r + 1) := (h.2 r (Nat.lt_succ_self r)).pos
    exact le_19_of_pow_le hvp (Nat.div_pos_iff.1 hpos).2

/-- The increment of either path, placed in `V0`: it is modulo `2^64` (R190, R193). -/
theorem zext64_increment (b : Bool) (v : Nat) :
    zext64 (if b then trunc64 (v + 1) else v) = BitVec.ofNat 64 (v + b.toNat) := by
  cases b <;> exact BitVec.eq_of_toNat_eq (by simp [zext64, trunc64])

/-! ### The common path (R191 to R193) -/

/-- The 100-step removes what two iterations of the loop remove: `round_up` is that of the second. -/
theorem CommonLoop.remove_hundred (c : CommonLoop) : c.remove 100 2 = (c.remove 10 1).remove 10 1 := by
  simp only [CommonLoop.remove, Nat.div_div_eq_div_mul, CommonLoop.mk.injEq, true_and, and_true]
  exact decide_eq_decide.2 (by omega)

/-- The 100-step in front of the loop changes nothing but the number of iterations left to it. -/
theorem commonLoop_hundredStep {fuel : Nat} {c : CommonLoop} (h : c.vp < 10 ^ fuel) :
    ∃ n, c.vp < 10 ^ n ∧ commonLoop fuel c.hundredStep = commonLoop n c := by
  by_cases h100 : c.vp / 100 > c.vm / 100
  · have hfirst : decadeSep c.vp c.vm 10 = true :=
      decide_eq_true (by omega)
    have hsecond : decadeSep (c.remove 10 1).vp (c.remove 10 1).vm 10 = true :=
      decide_eq_true (by simp only [CommonLoop.remove]; omega)
    refine ⟨fuel + 2, h.trans_le (Nat.pow_le_pow_right (by omega) (by omega)), ?_⟩
    rw [CommonLoop.hundredStep, decadeSep, if_pos (decide_eq_true h100), CommonLoop.remove_hundred,
      commonLoop, if_pos hfirst, commonLoop, if_pos hsecond]
  · refine ⟨fuel, h, ?_⟩
    rw [CommonLoop.hundredStep, decadeSep, if_neg (by simpa using h100)]

/-- The common path rounds up after `r` removals (R193). -/
abbrev CommonRoundsUp (vr vm r : Nat) : Prop :=
  vr / 10 ^ r = vm / 10 ^ r ∨ 1 ≤ r ∧ 5 ≤ vr / 10 ^ (r - 1) % 10

/-- The common path in closed form. -/
theorem commonPath_spec {vp : Nat} (vr vm : Nat) (hvp : vp < 2 ^ 64) :
    ∃ r, FirstCollapse vp vm r ∧ commonPath vr vp vm =
      { out := if decide (CommonRoundsUp vr vm r) then trunc64 (vr / 10 ^ r + 1) else vr / 10 ^ r
        removed := r } := by
  obtain ⟨n, hn, hloop⟩ := commonLoop_hundredStep (fuel := 20)
    (c := { vr := vr, vp := vp, vm := vm, roundUp := false, removed := 0 }) (hvp.trans (by norm_num))
  obtain ⟨r, hr, hspec⟩ := commonLoop_spec n _ hn
  refine ⟨r, hr, ?_⟩
  rw [commonPath, hloop, hspec]
  cases r <;> simp [CommonRoundsUp]

/-! ### The general path (R187 to R190) -/

/-- The state of the general path's loops after the removal of `r` digits: `vr_tz` does not see the newest
one, and `vm_tz` is left alone, as in the second loop. -/
def GeneralLoop.afterRemoving (g : GeneralLoop) (r : Nat) : GeneralLoop where
  vr := g.vr / 10 ^ r
  vp := g.vp / 10 ^ r
  vm := g.vm / 10 ^ r
  vmTz := g.vmTz
  vrTz := if r = 0 then g.vrTz else g.vrTz && g.last == 0 && decide (10 ^ (r - 1) ∣ g.vr)
  last := if r = 0 then g.last else g.vr / 10 ^ (r - 1) % 10
  removed := g.removed + r

/-- Two loops in a row remove the sum of their counts. -/
theorem GeneralLoop.afterRemoving_add (g : GeneralLoop) (a b : Nat) :
    (g.afterRemoving a).afterRemoving b = g.afterRemoving (a + b) := by
  cases a with
  | zero => simp [afterRemoving]
  | succ a =>
    cases b with
    | zero => simp [afterRemoving]
    | succ b =>
      have hzero : 10 ^ (a + 1) ∣ g.vr ↔ 10 ^ a ∣ g.vr ∧ g.vr / 10 ^ a % 10 = 0 := by
        rw [pow_add_dvd_iff, pow_one, Nat.dvd_iff_mod_eq_zero (m := 10)]
      simp [afterRemoving, div_pow_add, ← Nat.add_assoc, pow_add_dvd_iff g.vr (a + 1) b, hzero,
        Bool.and_assoc, beq_eq_decide]

/-- How many digits the two loops remove: `r1` in the first, `r` in all (R187, R188). -/
structure GeneralCounts (vp vm : Nat) (vmTz : Bool) (r1 r : Nat) : Prop where
  collapse : FirstCollapse vp vm r1
  le       : r ≤ 19
  low      : vmTz = true ∧ 10 ^ r1 ∣ vm → r1 ≤ r ∧ 10 ^ r ∣ vm ∧ ¬ 10 ^ (r + 1) ∣ vm
  high     : ¬ (vmTz = true ∧ 10 ^ r1 ∣ vm) → r = r1

/-- What the general path's loops start from. -/
def generalStart (vr vp vm : Nat) (vrTz vmTz : Bool) : GeneralLoop :=
  { vr := vr, vp := vp, vm := vm, vrTz := vrTz, vmTz := vmTz, last := 0, removed := 0 }

/-- With `vm_tz` cleared by the first loop there is no second one. -/
theorem generalLoops_of_not_vmTz {vr vp vm : Nat} {vrTz vmTz : Bool} {g : GeneralLoop}
    (hfirst : generalLoop 20 (generalStart vr vp vm vrTz vmTz) = g) (hz : g.vmTz = false) :
    generalLoops vr vp vm vrTz vmTz = .ok g := by
  subst hfirst
  exact if_neg (Bool.eq_false_iff.1 hz)

/-- With `vm_tz` still set the second loop follows, and it ends if `vm` is not 0. -/
theorem generalLoops_of_vmTz {vr vp vm : Nat} {vrTz vmTz : Bool} {g : GeneralLoop}
    (hfirst : generalLoop 20 (generalStart vr vp vm vrTz vmTz) = g) (hz : g.vmTz = true) (h0 : g.vm ≠ 0) :
    generalLoops vr vp vm vrTz vmTz = .ok (zeroLoop 20 g) := by
  subst hfirst
  exact (if_pos hz).trans (if_neg h0)

/-- The loops of the general path in closed form: they fail only with `vm_tz` set and `vm = 0`. -/
theorem generalLoops_spec {vp vm : Nat} (vr : Nat) (vrTz : Bool) {vmTz : Bool} (hvp : vp < 2 ^ 64)
    (hvm : vm < 2 ^ 64) (hend : ¬ (vmTz = true ∧ vm = 0)) :
    ∃ r1 r, GeneralCounts vp vm vmTz r1 r ∧ generalLoops vr vp vm vrTz vmTz =
      .ok ((generalStart vr vp vm vrTz (decide (vmTz = true ∧ 10 ^ r1 ∣ vm))).afterRemoving r) := by
  obtain ⟨r1, hr1, hspec⟩ := generalLoop_spec 20 (generalStart vr vp vm vrTz vmTz) (hvp.trans (by norm_num))
  have hfirst : generalLoop 20 (generalStart vr vp vm vrTz vmTz) =
      (generalStart vr vp vm vrTz (decide (vmTz = true ∧ 10 ^ r1 ∣ vm))).afterRemoving r1 := by
    rw [hspec, Bool.decide_and, Bool.decide_eq_true]
    rfl
  by_cases hlow : vmTz = true ∧ 10 ^ r1 ∣ vm
  · have hpos : 0 < vm := Nat.pos_of_ne_zero fun h0 => hend ⟨hlow.1, h0⟩
    have hleft : vm / 10 ^ r1 ≠ 0 := (Nat.div_pos (Nat.le_of_dvd hpos hlow.2) (by positivity)).ne'
    have hsmall : vm / 10 ^ r1 < 10 ^ 20 := (Nat.div_le_self _ _).trans_lt (hvm.trans (by norm_num))
    obtain ⟨r2, hzeros, hnext, hsecond⟩ := zeroLoop_spec 20
      ((generalStart vr vp vm vrTz (decide (vmTz = true ∧ 10 ^ r1 ∣ vm))).afterRemoving r1) hleft hsmall
    change 10 ^ r2 ∣ vm / 10 ^ r1 at hzeros
    change vm / 10 ^ r1 / 10 ^ r2 % 10 ≠ 0 at hnext
    have hdvd : 10 ^ (r1 + r2) ∣ vm := (pow_add_dvd_iff vm r1 r2).2 ⟨hlow.2, hzeros⟩
    have hmax : ¬ 10 ^ (r1 + r2 + 1) ∣ vm := fun h => by
      rw [pow_add_dvd_iff, div_pow_add, pow_one] at h
      exact hnext (Nat.mod_eq_zero_of_dvd h.2)
    refine ⟨r1, r1 + r2, ⟨hr1, le_19_of_pow_le hvm (Nat.le_of_dvd hpos hdvd),
      fun _ => ⟨Nat.le_add_right r1 r2, hdvd, hmax⟩, fun h => absurd hlow h⟩, ?_⟩
    rw [generalLoops_of_vmTz hfirst (decide_eq_true hlow) hleft, hsecond]
    exact congrArg Except.ok (GeneralLoop.afterRemoving_add _ r1 r2)
  · exact ⟨r1, r1, ⟨hr1, hr1.le_19 hvp, fun h => absurd h hlow, fun _ => rfl⟩,
      generalLoops_of_not_vmTz hfirst (decide_eq_false hlow)⟩

/-- The tie correction keeps the digits: only whether `last` reaches 5 can change, at an exact tie (R189). -/
theorem GeneralLoop.tieCorrect_roundsUp_iff (g : GeneralLoop) (accept : Bool) :
    g.tieCorrect.roundsUp accept = true ↔
      g.vr = g.vm ∧ (accept = false ∨ g.vmTz = false) ∨
        5 ≤ g.last ∧ ¬ (g.vrTz = true ∧ g.last = 5 ∧ g.vr % 2 = 0) := by
  unfold tieCorrect
  by_cases htie : g.vrTz = true ∧ g.last = 5 ∧ g.vr % 2 = 0
  · simp [roundsUp, htie]
  · have hflag : (g.vrTz && g.last == 5 && g.vr % 2 == 0) = false := by
      simpa [and_assoc] using htie
    simp [roundsUp, hflag, htie]

theorem GeneralLoop.tieCorrect_vr (g : GeneralLoop) : g.tieCorrect.vr = g.vr := by
  unfold tieCorrect; split <;> rfl

theorem GeneralLoop.tieCorrect_removed (g : GeneralLoop) : g.tieCorrect.removed = g.removed := by
  unfold tieCorrect; split <;> rfl

/-- The digit removed last from `vr`, 0 if none was. -/
abbrev lastRemoved (vr r : Nat) : Nat := if r = 0 then 0 else vr / 10 ^ (r - 1) % 10

/-- The condition of the tie correction after `r` removals (R189). -/
abbrev TieAfter (vr : Nat) (vrTz : Bool) (r : Nat) : Prop :=
  (vrTz = true ∧ (r = 0 ∨ 10 ^ (r - 1) ∣ vr)) ∧ lastRemoved vr r = 5 ∧ vr / 10 ^ r % 2 = 0

/-- The general path rounds up after `r` removals, `low` telling that all digits removed from `vm` were 0
with `vm_tz` set (R190). -/
abbrev GeneralRoundsUp (vr vm : Nat) (accept vrTz : Bool) (low : Prop) (r : Nat) : Prop :=
  vr / 10 ^ r = vm / 10 ^ r ∧ (accept = false ∨ ¬ low) ∨ 5 ≤ lastRemoved vr r ∧ ¬ TieAfter vr vrTz r

theorem roundsUp_afterRemoving_iff (vr vp vm : Nat) (accept vrTz : Bool) (low : Prop) [Decidable low] (r : Nat) :
    ((generalStart vr vp vm vrTz (decide low)).afterRemoving r).tieCorrect.roundsUp accept = true ↔
      GeneralRoundsUp vr vm accept vrTz low r := by
  rw [GeneralLoop.tieCorrect_roundsUp_iff]
  cases r <;> simp [GeneralLoop.afterRemoving, generalStart, GeneralRoundsUp, TieAfter, lastRemoved]

/-- The general path in closed form. -/
theorem generalPath_spec {vp vm : Nat} (vr : Nat) (accept vrTz : Bool) {vmTz : Bool} (hvp : vp < 2 ^ 64)
    (hvm : vm < 2 ^ 64) (hend : ¬ (vmTz = true ∧ vm = 0)) :
    ∃ r1 r, GeneralCounts vp vm vmTz r1 r ∧ generalPath vr vp vm accept vrTz vmTz = .ok
      { out := if decide (GeneralRoundsUp vr vm accept vrTz (vmTz = true ∧ 10 ^ r1 ∣ vm) r)
          then trunc64 (vr / 10 ^ r + 1) else vr / 10 ^ r
        removed := r } := by
  obtain ⟨r1, r, hcounts, hloops⟩ := generalLoops_spec vr vrTz hvp hvm hend
  refine ⟨r1, r, hcounts, ?_⟩
  rw [generalPath, hloops]
  simp only [roundsUp_afterRemoving_iff, GeneralLoop.tieCorrect_vr, GeneralLoop.tieCorrect_removed,
    decide_eq_true_eq]
  simp only [GeneralLoop.afterRemoving, generalStart, Nat.zero_add]

/-! ### Step 4 as a whole (R185, R194 to R196) -/

/-- The path that the two flags choose (R185). -/
def pathOf (iv : IntervalResult) : Except Cause PathResult :=
  if iv.vrTz || iv.vmTz then generalPath iv.vr iv.vp iv.vm iv.accept iv.vrTz iv.vmTz
  else .ok (commonPath iv.vr iv.vp iv.vm)

/-- With a path that ends, Step 4 has the exponent's range left to check (R194). -/
theorem shortest_of_path {iv : IntervalResult} {p : PathResult} (hp : pathOf iv = .ok p) :
    shortest iv = if fitsI32 (iv.e10 + p.removed)
      then .ok { m := p.out, e := iv.e10 + p.removed, removed := p.removed, general := iv.vrTz || iv.vmTz }
      else .error .expRange := by
  rw [pathOf] at hp
  rw [shortest, hp]

theorem fitsI32_iff (v : Int) : fitsI32 v = true ↔ -2 ^ 31 ≤ v ∧ v ≤ 2 ^ 31 - 1 := by
  simp [fitsI32]

/-- The operands of `SHORTEST` as Step 4 reads them (R196). -/
abbrev shortestOperands (vr vp vm : U64) (e10 : Word32) (acc vrtz vmtz : Bool) : IntervalResult :=
  { vr := vr.toNat, vp := vp.toNat, vm := vm.toNat, e10 := e10.toInt, accept := acc, vrTz := vrtz, vmTz := vmtz }

theorem exec_shortest (vr vp vm : U64) (e10 : Word32) (acc vrtz vmtz : Bool) (s : State) :
    exec (.shortest vr vp vm e10 acc vrtz vmtz) s =
      finish 0x31 (shortestResults (shortest (shortestOperands vr vp vm e10 acc vrtz vmtz))) s := by
  rw [shortestOperands, ← s32_eq_toInt]
  rfl

/-- `SHORTEST` on a path that ends with the digits `v`, perhaps incremented, after `r` removals: only the
exponent's upper end can be passed, since a removal adds to it. -/
theorem exec_shortest_of_path {vr vp vm : U64} {e10 : Word32} {acc vrtz vmtz b : Bool} {v r : Nat} {s : State}
    (hs : s.mode = .ready)
    (hp : pathOf (shortestOperands vr vp vm e10 acc vrtz vmtz) =
      .ok { out := if b then trunc64 (v + 1) else v, removed := r }) :
    (e10.toInt + r ≤ 2 ^ 31 - 1 → ∃ t, exec (.shortest vr vp vm e10 acc vrtz vmtz) s = .next t ∧
      s.CompletedWith t
        { v0 := BitVec.ofNat 64 (v + b.toNat), v1 := BitVec.ofNat 64 r
          re := BitVec.ofInt 32 (e10.toInt + r), rf := generalFlag (vrtz || vmtz) }) ∧
    (2 ^ 31 - 1 < e10.toInt + r →
      ∃ t, exec (.shortest vr vp vm e10 acc vrtz vmtz) s = .next t ∧ s.FaultedBy t .expRange 0x31) := by
  have hlow : -2 ^ 31 ≤ e10.toInt := BitVec.le_toInt e10
  have hfits : fitsI32 (e10.toInt + r) = true ↔ e10.toInt + r ≤ 2 ^ 31 - 1 := by
    rw [fitsI32_iff]
    omega
  rw [exec_shortest, shortest_of_path hp, ← zext64_increment]
  constructor
  · intro h
    rw [if_pos (hfits.2 h)]
    exact finish_completes hs rfl (by simp)
  · intro h
    rw [if_neg (mt hfits.1 (not_le.2 h))]
    exact finish_faults hs rfl

/-! ### The statements about `SHORTEST` -/

/-- Settles O32: both flags 0 choose the common path. -/
theorem shortestOnTheCommonPath : Obligations.ShortestOnTheCommonPath := by
  refine ⟨selects_opcode .shortest, fun vr vp vm e10 acc s hs => ?_⟩
  obtain ⟨r, hr, hpath⟩ := commonPath_spec vr.toNat vm.toNat vp.isLt
  refine ⟨r, hr.le_19 vp.isLt, hr, ?_⟩
  have hexec := exec_shortest_of_path (e10 := e10) (acc := acc) (vrtz := false) (vmtz := false) hs
    (congrArg Except.ok hpath)
  simp only [Bool.toNat, Bool.cond_decide] at hexec
  exact hexec

/-- Settles O33: either flag chooses the general path. -/
theorem shortestOnTheGeneralPath : Obligations.ShortestOnTheGeneralPath := by
  intro vr vp vm e10 acc vrtz vmtz s hs hflag hend
  obtain ⟨r1, r, hcounts, hpath⟩ := generalPath_spec vr.toNat acc vrtz (vmTz := vmtz) vp.isLt vm.isLt
    (fun h => hend ⟨h.1, BitVec.eq_of_toNat_eq h.2⟩)
  obtain ⟨hcollapse, hr, hlow, hhigh⟩ := hcounts
  have hexec := exec_shortest_of_path (e10 := e10) hs ((if_pos hflag).trans hpath)
  rw [hflag] at hexec
  refine ⟨r1, r, hcollapse, hr, hlow, hhigh, fun h => ?_, hexec.2⟩
  obtain ⟨t, ht, hres⟩ := hexec.1 h
  exact ⟨t, ht, _, decide_eq_true_iff, hres⟩

end Sys2Proof.Machine
end

section
/-! SUPPORT. What Step 3 hands to Step 4 on the conversion domain, in the ranges the registers hold
(43_shortest.md R182), and the statement about `F2D` it settles (R197, R198). -/

namespace Sys2Proof.Machine

/-! ### The interval's values in registers -/

/-- Neither scaling gives a decimal exponent larger than the binary one. -/
theorem scalingOf_e10_natAbs_le (e2 : Int) : (scalingOf e2).e10.natAbs ≤ e2.natAbs := by
  unfold scalingOf
  split
  case isTrue h =>
    have hlog : log10Pow2Nat e2.toNat ≤ e2.toNat := (greatestUpTo_spec _ _).1
    simp only [scalingPos]
    omega
  case isFalse h =>
    have hlog : log10Pow5Nat (-e2).toNat ≤ (-e2).toNat := (greatestUpTo_spec _ _).1
    simp only [scalingNeg]
    omega

theorem exponent2_natAbs_le {exp : Nat} (h : exp < 2047) : (exponent2 exp).natAbs ≤ 1076 := by
  unfold exponent2
  split <;> simp only [Config.bias, Config.mantissaBits] <;> omega

theorem mulShift_lt (m u s : Nat) : mulShift m u s < 2 ^ 64 :=
  Nat.mod_lt _ (by positivity)

/-- The lower end of the interval is not scaled to 0: no scale is below 1. -/
theorem interval_vm_pos {mant : U64} {exp : Word32} (h : FiniteNonZero mant exp) :
    0 < (interval mant.toNat exp.toNat).vm := by
  obtain ⟨hmant, -, h0⟩ := h
  obtain ⟨hlow, hhigh⟩ := mantissa2_range hmant h0
  have hshift := mmShift_le mant.toNat exp.toNat
  have hok := scalingOf_ok (exponent2 exp.toNat)
  have hmm : 0 < mmOf mant.toNat exp.toNat ∧ mmOf mant.toNat exp.toNat < 2 ^ 55 := by
    unfold mmOf mvOf
    omega
  have hscaled := scaled_add_le hok 0 (mmOf mant.toNat exp.toNat)
  simp only [Nat.zero_mul, Nat.zero_div, Nat.zero_add] at hscaled
  rw [interval, (mulShift_exact hok hmm.2).1]
  exact hmm.1.trans_le hscaled

/-- The values that Step 4 needs of an interval to end without a fault, and that the registers hold. -/
structure IntervalResult.InRange (iv : IntervalResult) : Prop where
  vr  : iv.vr < 2 ^ 64
  vp  : iv.vp < 2 ^ 64
  vm  : iv.vm < 2 ^ 64
  pos : 0 < iv.vm
  e10 : iv.e10.natAbs ≤ 1076

theorem interval_inRange {mant : U64} {exp : Word32} (h : FiniteNonZero mant exp) :
    (interval mant.toNat exp.toNat).InRange where
  vr := mulShift_lt ..
  vp := (Nat.sub_le ..).trans_lt (mulShift_lt ..)
  vm := mulShift_lt ..
  pos := interval_vm_pos h
  e10 := (scalingOf_e10_natAbs_le _).trans (exponent2_natAbs_le h.2.1)

/-- `SHORTEST` reads back from the registers what `INTERVAL` wrote there (R181, R196). -/
theorem shortestOperands_of_registers {iv : IntervalResult} (h : iv.InRange) :
    shortestOperands (zext64 iv.vr) (zext64 iv.vp) (zext64 iv.vm) (sext32 iv.e10) iv.accept iv.vrTz iv.vmTz =
      iv := by
  have he := h.e10
  simp only [shortestOperands, zext64, sext32, BitVec.toNat_ofNat, Nat.mod_eq_of_lt h.vr, Nat.mod_eq_of_lt h.vp,
    Nat.mod_eq_of_lt h.vm, BitVec.toInt_ofInt_eq_self (show 0 < 32 by omega) (n := iv.e10) (by omega) (by omega)]

/-! ### Step 4 ends without a fault -/

/-- Both paths end, after at most 19 removals. -/
theorem pathOf_ok {iv : IntervalResult} (h : iv.InRange) : ∃ p, pathOf iv = .ok p ∧ p.removed ≤ 19 := by
  unfold pathOf
  split
  case isTrue =>
    obtain ⟨r1, r, hcounts, hpath⟩ := generalPath_spec iv.vr iv.accept iv.vrTz (vmTz := iv.vmTz) h.vp h.vm
      fun hz => h.pos.ne' hz.2
    exact ⟨_, hpath, hcounts.le⟩
  case isFalse =>
    obtain ⟨r, hr, hpath⟩ := commonPath_spec iv.vr iv.vm h.vp
    exact ⟨_, congrArg Except.ok hpath, hr.le_19 h.vp⟩

/-- Step 4 writes its results without a fault: the exponent stays far inside an `i32` (R197). -/
theorem shortestResults_ok {iv : IntervalResult} (h : iv.InRange) :
    ∃ m n e, shortestResults (shortest iv) =
      .ok { v0 := m, v1 := n, re := e, rf := generalFlag (iv.vrTz || iv.vmTz) } := by
  obtain ⟨p, hp, hremoved⟩ := pathOf_ok h
  have he := h.e10
  rw [shortest_of_path hp, if_pos ((fitsI32_iff _).2 (by omega))]
  exact ⟨_, _, _, rfl⟩

/-! ### The commands on the domain -/

/-- What `INTERVAL` writes of the result of Steps 1 to 3 (R181). -/
abbrev intervalRegisters (iv : IntervalResult) : Results :=
  { v0 := zext64 iv.vr, v1 := zext64 iv.vp, v2 := zext64 iv.vm, re := sext32 iv.e10,
    rf := intervalFlags iv.accept iv.vrTz iv.vmTz }

theorem exec_interval_inside {mant : U64} {exp : Word32} {s : State} (h : FiniteNonZero mant exp)
    (hs : s.mode = .ready) :
    exec (.interval mant exp) s =
      .next (writeResults (intervalRegisters (interval mant.toNat exp.toNat)) s) := by
  change finish 0x30 (convCheck mant.toNat exp.toNat _) s = _
  rw [convCheck_inside h]
  exact finish_ok hs

theorem exec_f2d_inside {mant : U64} {exp : Word32} (s : State) (h : FiniteNonZero mant exp) :
    exec (.f2d mant exp) s = finish 0x32 (shortestResults (shortest (interval mant.toNat exp.toNat))) s := by
  change finish 0x32 (convCheck mant.toNat exp.toNat _) s = _
  rw [convCheck_inside h]
  rfl

/-- `SHORTEST` of the registers that `INTERVAL` wrote is Step 4 of the interval itself. -/
theorem exec_shortest_of_registers {iv : IntervalResult} (h : iv.InRange) (s : State) :
    exec (.shortest (zext64 iv.vr) (zext64 iv.vp) (zext64 iv.vm) (sext32 iv.e10) iv.accept iv.vrTz iv.vmTz) s =
      finish 0x31 (shortestResults (shortest iv)) s := by
  rw [exec_shortest, shortestOperands_of_registers h]

/-- Settles O34: `SHORTEST` reads back the interval that `F2D` hands on, and the two write the same results. -/
theorem f2dIsShortestOfInterval : Obligations.F2dIsShortestOfInterval := by
  refine ⟨selects_opcode .f2d, fun mant exp s hs => ⟨fun hin => ?_, fun hout =>
    finish_faults hs (convCheck_outside hout _)⟩⟩
  have hrange := interval_inRange hin
  obtain ⟨m, n, e, hresults⟩ := shortestResults_ok hrange
  have completes {op : BitVec 8} {t : State} (ht : t.mode = .ready) :=
    (congrArg (finish op · t) hresults).trans (finish_ok ht)
  exact ⟨_, _, _, exec_interval_inside hin hs, (exec_shortest_of_registers hrange _).trans (completes hs),
    (exec_f2d_inside s hin).trans (completes hs), ⟨rfl, rfl, rfl, rfl, rfl, rfl, rfl⟩,
    completedWith_writeResults s (by simp)⟩

end Sys2Proof.Machine
end

section
/-! SUPPORT. The range of the decimal pair that the full search finds (43_shortest.md R194, R197): at least 1,
fewer than eighteen digits, and an exponent that the formatter takes (44_format.md R210). -/

namespace Sys2Proof.Machine

/-! ### The digits of either path -/

/-- At the first collapse the ends of the interval are less than one unit of the next digit apart. -/
theorem FirstCollapse.lt_add {vp vm r : Nat} (h : FirstCollapse vp vm r) : vp < vm + 10 ^ (r + 1) := by
  have hpos : 0 < 10 ^ (r + 1) := by positivity
  calc vp < (vm / 10 ^ (r + 1) + 1) * 10 ^ (r + 1) := (Nat.div_lt_iff_lt_mul hpos).1 (Nat.lt_succ_of_le h.1)
    _ = vm / 10 ^ (r + 1) * 10 ^ (r + 1) + 10 ^ (r + 1) := Nat.succ_mul ..
    _ ≤ vm + 10 ^ (r + 1) := Nat.add_le_add_right (Nat.div_mul_le_self ..) _

/-- A perhaps incremented `v` that no increment wraps is at most `v + 1`, and not 0 if 0 is incremented. -/
theorem increment_bounds {b : Bool} {v : Nat} (hv : v + 1 < 2 ^ 64) (h0 : v = 0 → b = true) :
    1 ≤ (if b then trunc64 (v + 1) else v) ∧ (if b then trunc64 (v + 1) else v) ≤ v + 1 := by
  rw [trunc64, Nat.mod_eq_of_lt hv]
  cases b with
  | true => exact ⟨Nat.le_add_left 1 v, le_rfl⟩
  | false => exact ⟨Nat.pos_of_ne_zero fun h => Bool.noConfusion (h0 h), Nat.le_succ v⟩

/-- The second loop adds to what the first removes (R188). -/
theorem GeneralCounts.first_le {vp vm r1 r : Nat} {vmTz : Bool} (h : GeneralCounts vp vm vmTz r1 r) : r1 ≤ r := by
  by_cases hlow : vmTz = true ∧ 10 ^ r1 ∣ vm
  · exact (h.low hlow).1
  · exact (h.high hlow).ge

/-- The removal of zeros alone leaves something of `vm`. -/
theorem GeneralCounts.vm_left {vp vm r1 r : Nat} {vmTz : Bool} (h : GeneralCounts vp vm vmTz r1 r) (hpos : 0 < vm)
    (hlow : vmTz = true ∧ 10 ^ r1 ∣ vm) : 0 < vm / 10 ^ r := by
  obtain ⟨-, hdvd, -⟩ := h.low hlow
  exact Nat.div_pos (Nat.le_of_dvd hpos hdvd) (by positivity)

/-- Both paths remove at least up to the first collapse, and what they give is not 0: where no digit of `vr`
is left, none is left of `vm` either, and the path rounds up. -/
theorem pathOf_bounds {iv : IntervalResult} (h : iv.InRange) (hvr : iv.vr < 2 ^ 63) (hle : iv.vm ≤ iv.vr) :
    ∃ p r, pathOf iv = .ok p ∧ FirstCollapse iv.vp iv.vm r ∧ p.removed ≤ 19 ∧
      1 ≤ p.out ∧ p.out ≤ iv.vr / 10 ^ r + 1 := by
  have noWrap (r : Nat) : iv.vr / 10 ^ r + 1 < 2 ^ 64 := by
    have := Nat.div_le_self iv.vr (10 ^ r)
    omega
  have collapsed {r : Nat} (h0 : iv.vr / 10 ^ r = 0) : iv.vr / 10 ^ r = iv.vm / 10 ^ r :=
    h0.trans (Nat.le_zero.1 ((Nat.div_le_div_right hle).trans h0.le)).symm
  unfold pathOf
  split
  case isTrue =>
    obtain ⟨r1, r, hcounts, hpath⟩ := generalPath_spec iv.vr iv.accept iv.vrTz (vmTz := iv.vmTz) h.vp h.vm
      fun hz => h.pos.ne' hz.2
    have roundsUp (h0 : iv.vr / 10 ^ r = 0) :
        GeneralRoundsUp iv.vr iv.vm iv.accept iv.vrTz (iv.vmTz = true ∧ 10 ^ r1 ∣ iv.vm) r :=
      .inl ⟨collapsed h0, .inr fun hlow => (hcounts.vm_left h.pos hlow).ne' ((collapsed h0).symm.trans h0)⟩
    obtain ⟨hpos, hout⟩ := increment_bounds (noWrap r) fun h0 => decide_eq_true (roundsUp h0)
    have hfewer : iv.vr / 10 ^ r ≤ iv.vr / 10 ^ r1 :=
      Nat.div_le_div_left (Nat.pow_le_pow_right (by omega) hcounts.first_le) (by positivity)
    exact ⟨_, r1, hpath, hcounts.collapse, hcounts.le, hpos, hout.trans (Nat.succ_le_succ hfewer)⟩
  case isFalse =>
    obtain ⟨r, hr, hpath⟩ := commonPath_spec iv.vr iv.vm h.vp
    exact ⟨_, r, congrArg Except.ok hpath, hr, hr.le_19 h.vp,
      increment_bounds (noWrap r) fun h0 => decide_eq_true (.inl (collapsed h0))⟩

/-! ### The interval is wide enough for seventeen digits -/

/-- The operands of Step 3 are in order and below `2^55`, and the ends are at least `mv / 2^53` apart: their
distance is 4, or 3 for a power of two, whose significand is only `2^52` (R173). -/
theorem stepThreeOperands_bounds {mant : U64} {exp : Word32} (h : FiniteNonZero mant exp) :
    mmOf mant.toNat exp.toNat ≤ mvOf mant.toNat exp.toNat ∧
      mvOf mant.toNat exp.toNat ≤ mpOf mant.toNat exp.toNat ∧ mpOf mant.toNat exp.toNat < 2 ^ 55 ∧
      mvOf mant.toNat exp.toNat ≤ 2 ^ 53 * (mpOf mant.toNat exp.toNat - mmOf mant.toNat exp.toNat) := by
  obtain ⟨hmant, -, h0⟩ := h
  obtain ⟨hlow, hhigh⟩ := mantissa2_range hmant h0
  have hshift := mmShift_le mant.toNat exp.toNat
  have hpower : mmShift mant.toNat exp.toNat = 0 → mantissa2 mant.toNat exp.toNat = 2 ^ 52 := by
    intro hz
    obtain ⟨hzero, hexp⟩ : mant.toNat = 0 ∧ 1 < exp.toNat := by
      simpa [mmShift, iverson] using hz
    rw [mantissa2_normal hmant (by omega), hzero, Nat.add_zero]
  unfold mpOf mmOf mvOf
  omega

theorem iverson_le_one (b : Bool) : iverson b ≤ 1 := by
  cases b <;> decide

/-- Step 3's scaling of an operand, before it is cut to 64 bits (R175, R178). -/
abbrev scaled (exp m : Nat) : Nat :=
  m * (scalingOf (exponent2 exp)).mul / 2 ^ (scalingOf (exponent2 exp)).sh

theorem interval_vr {mant : U64} {exp : Word32} (h : FiniteNonZero mant exp) :
    (interval mant.toNat exp.toNat).vr = scaled exp.toNat (mvOf mant.toNat exp.toNat) ∧
      (interval mant.toNat exp.toNat).vr < 2 ^ 63 := by
  obtain ⟨-, hmv, hmp, -⟩ := stepThreeOperands_bounds h
  obtain ⟨hexact, hlt⟩ := mulShift_exact (scalingOf_ok (exponent2 exp.toNat)) (hmv.trans_lt hmp)
  exact ⟨hexact, hexact.trans_lt hlt⟩

theorem interval_vm {mant : U64} {exp : Word32} (h : FiniteNonZero mant exp) :
    (interval mant.toNat exp.toNat).vm = scaled exp.toNat (mmOf mant.toNat exp.toNat) := by
  obtain ⟨hmm, hmv, hmp, -⟩ := stepThreeOperands_bounds h
  exact (mulShift_exact (scalingOf_ok _) ((hmm.trans hmv).trans_lt hmp)).1

/-- The decrement takes at most 1 from the scaled upper end (R176, R179). -/
theorem scaled_mp_le {mant : U64} {exp : Word32} (h : FiniteNonZero mant exp) :
    scaled exp.toNat (mpOf mant.toNat exp.toNat) ≤ (interval mant.toNat exp.toNat).vp + 1 := by
  obtain ⟨-, -, hmp, -⟩ := stepThreeOperands_bounds h
  rw [scaled, ← (mulShift_exact (scalingOf_ok _) hmp).1]
  exact Nat.sub_le_iff_le_add.1 (Nat.sub_le_sub_left (iverson_le_one _) _)

theorem interval_vm_le_vr {mant : U64} {exp : Word32} (h : FiniteNonZero mant exp) :
    (interval mant.toNat exp.toNat).vm ≤ (interval mant.toNat exp.toNat).vr := by
  rw [(interval_vr h).1, interval_vm h]
  exact Nat.div_le_div_right (Nat.mul_le_mul_right _ (stepThreeOperands_bounds h).1)

/-- Two operands whose scaled floors are at most `d` apart are less than `d + 1` units apart when scaled. -/
theorem scaled_distance_lt {x y k u d : Nat} (hu : 0 < u) (h : x * k / u ≤ y * k / u + d) :
    (x - y) * k < (d + 1) * u := by
  have hupper : x * k < (y * k / u + (d + 1)) * u :=
    (Nat.div_lt_iff_lt_mul hu).1 (Nat.lt_succ_of_le h)
  have hlower := Nat.div_mul_le_self (y * k) u
  have hpos : 0 < (d + 1) * u := by positivity
  rw [Nat.add_mul] at hupper
  rw [Nat.sub_mul]
  omega

/-- An interval narrower than `d` holds a value below `2^53 * (d + 1)`, whatever the scale: its width is at
least `2^-53` of the value. -/
theorem interval_vr_lt {mant : U64} {exp : Word32} (h : FiniteNonZero mant exp) {d : Nat}
    (hd : (interval mant.toNat exp.toNat).vp < (interval mant.toNat exp.toNat).vm + d) :
    (interval mant.toNat exp.toNat).vr < 2 ^ 53 * (d + 1) := by
  have hends := (scaled_mp_le h).trans (Nat.succ_le_of_lt hd)
  rw [interval_vm h] at hends
  obtain ⟨-, -, -, hwide⟩ := stepThreeOperands_bounds h
  rw [(interval_vr h).1, Nat.div_lt_iff_lt_mul (by positivity)]
  calc _ ≤ 2 ^ 53 * (mpOf mant.toNat exp.toNat - mmOf mant.toNat exp.toNat) * _ := Nat.mul_le_mul_right _ hwide
    _ = 2 ^ 53 * ((mpOf mant.toNat exp.toNat - mmOf mant.toNat exp.toNat) * _) := Nat.mul_assoc ..
    _ < 2 ^ 53 * ((d + 1) * _) := Nat.mul_lt_mul_of_pos_left (scaled_distance_lt (by positivity) hends) (by positivity)
    _ = _ := (Nat.mul_assoc ..).symm

/-- What the removal up to the first collapse leaves of `vr` has at most seventeen digits, incremented too.
After two removals that holds of every `vr` of Step 3; with fewer the interval was narrow. -/
theorem interval_digits_lt {mant : U64} {exp : Word32} (h : FiniteNonZero mant exp) {r : Nat}
    (hr : FirstCollapse (interval mant.toNat exp.toNat).vp (interval mant.toNat exp.toNat).vm r) :
    (interval mant.toNat exp.toNat).vr / 10 ^ r + 1 < 10 ^ 17 := by
  have hnarrow := interval_vr_lt h hr.lt_add
  have hvr := (interval_vr h).2
  match r with
  | 0 => omega
  | 1 => omega
  | r + 2 =>
    rw [Nat.add_comm r 2, div_pow_add]
    have := Nat.div_le_self ((interval mant.toNat exp.toNat).vr / 10 ^ 2) (10 ^ r)
    omega

/-! ### The exponent -/

/-- `8 ≤ 10`, so the logarithm of `2^e` is at most a third of `e`. -/
theorem three_mul_log10Pow2Nat_le (e : Nat) : 3 * log10Pow2Nat e ≤ e := by
  have hpow : 2 ^ (3 * log10Pow2Nat e) ≤ 2 ^ e := by
    calc 2 ^ (3 * log10Pow2Nat e) = 8 ^ log10Pow2Nat e := pow_mul 2 3 _
      _ ≤ 10 ^ log10Pow2Nat e := Nat.pow_le_pow_left (by omega) _
      _ ≤ 2 ^ e := (log10Pow2Nat_spec e).1
  exact (Nat.pow_le_pow_iff_right (by omega)).1 hpow

/-- `10 < 5^2`, so the logarithm of `5^e` is about half of `e` or more. -/
theorem lt_two_mul_log10Pow5Nat (e : Nat) : e < 2 * (log10Pow5Nat e + 1) := by
  have hpow : 5 ^ e < 5 ^ (2 * (log10Pow5Nat e + 1)) := by
    calc 5 ^ e < 10 ^ (log10Pow5Nat e + 1) := (log10Pow5Nat_spec e).2
      _ ≤ 25 ^ (log10Pow5Nat e + 1) := Nat.pow_le_pow_left (by omega) _
      _ = 5 ^ (2 * (log10Pow5Nat e + 1)) := (pow_mul 5 2 _).symm
  exact (Nat.pow_lt_pow_iff_right (by omega)).1 hpow

/-- The decimal exponent is at most about half of the binary one, on either branch (R174, R177). -/
theorem two_mul_scalingOf_e10_le (e2 : Int) : 2 * (scalingOf e2).e10.natAbs ≤ e2.natAbs + 3 := by
  unfold scalingOf
  split
  case isTrue h =>
    have hlog := three_mul_log10Pow2Nat_le e2.toNat
    simp only [scalingPos]
    omega
  case isFalse h =>
    have hlow := lt_two_mul_log10Pow5Nat (-e2).toNat
    have hhigh := (scalingNeg_q (n := (-e2).toNat) (by omega)).1
    have hstep := iverson_le_one (decide ((-e2).toNat > 1))
    simp only [scalingNeg] at hhigh ⊢
    omega

/-! ### The pair of the full search is in the formatter's domain -/

/-- A pair with at most seventeen digits and a small exponent is in the domain of the formatter (R210). -/
theorem formattable_of_bounds {m : Nat} {e : Int} (hpos : 1 ≤ m) (hlt : m < 10 ^ 17) (he : e.natAbs ≤ 900) :
    Formattable m e := by
  refine ⟨hpos, hlt, ?_⟩
  have hlen := decimalLength_le hlt
  unfold shownExponent
  omega

/-- On its domain `f2d` finds a pair that the formatter takes (R197, R219). -/
theorem f2d_formattable {mant : U64} {exp : Word32} (h : FiniteNonZero mant exp) :
    ∃ r, f2d mant.toNat exp.toNat = .ok r ∧ Formattable r.m r.e := by
  obtain ⟨p, r, hpath, hr, hremoved, hpos, hout⟩ :=
    pathOf_bounds (interval_inRange h) (interval_vr h).2 (interval_vm_le_vr h)
  have hlt := hout.trans_lt (interval_digits_lt h hr)
  have he10 : 2 * (interval mant.toNat exp.toNat).e10.natAbs ≤ _ := two_mul_scalingOf_e10_le _
  have he2 := exponent2_natAbs_le h.2.1
  have he : ((interval mant.toNat exp.toNat).e10 + p.removed).natAbs ≤ 900 := by omega
  exact ⟨_, (shortest_of_path hpath).trans (if_pos ((fitsI32_iff _).2 (by omega))),
    formattable_of_bounds hpos hlt he⟩

end Sys2Proof.Machine
end

section
/-! SUPPORT. The formatter and the conversion pipeline (44_format.md R210 to R220): the length of the output,
what `FMT` does with a pair in registers, and the statement about `CONVERT` it settles. -/

namespace Sys2Proof.Machine

/-! ### The length of the output (R215) -/

theorem signBytes_length_le (negative : Bool) : (signBytes negative).length ≤ 1 := by
  cases negative <;> decide

/-- The digits, and at most a point among them. -/
theorem mantissaBytes_length_le (m : Nat) : (mantissaBytes m).length ≤ decimalLength m + 1 := by
  have hlen : ((decDigits m).map digitByte).length = decimalLength m := List.length_map _
  unfold mantissaBytes
  split
  case h_1 => exact Nat.zero_le _
  case h_2 => exact Nat.le_add_left ..
  case h_3 c rest h =>
    rw [h] at hlen
    exact (congrArg (· + 1) hlen).le

theorem exponentBytes_length_le (x : Int) : (exponentBytes x).length ≤ 5 := by
  rw [exponentBytes, List.length_cons, List.length_cons]
  split <;> simp

/-- With at most seventeen digits the output fits the buffer. -/
theorem fmt_length_le {m : Nat} (hm : m < 10 ^ 17) (e : Int) (negative : Bool) :
    (fmt m e negative).length ≤ 24 := by
  have hsign := signBytes_length_le negative
  have hmantissa := mantissaBytes_length_le m
  have hexponent := exponentBytes_length_le (shownExponent m e)
  have hlen := decimalLength_le hm
  simp only [fmt, List.length_append]
  omega

/-- A host reads back the bytes a command wrote, if they fit the buffer (R217, R218). -/
theorem formattedTail_writeResults {r : Results} (s : State) (h : r.bytes.length ≤ 24) :
    (writeResults r s).formattedTail = r.bytes := by
  have hlen : (outputLength r.bytes).toNat = r.bytes.length := outputLength_toNat (by omega)
  apply List.ext_getElem
  · simp [State.formattedTail, hlen, h]
  · intro k hk hk'
    simp [State.formattedTail, hk']

/-! ### `FMT` of a pair in registers (R217) -/

theorem fmtResult_ok {m : Nat} {e : Int} (negative : Bool) (h : Formattable m e) :
    fmtResult m e negative = .ok { bytes := fmt m e negative } := by
  obtain ⟨hpos, hlt, hshown⟩ := h
  have hmant : ¬ (m = 0 ∨ m ≥ 10 ^ 17) := by omega
  exact (if_neg hmant).trans (if_neg (Nat.not_lt.2 hshown))

/-- A pair in the domain survives its way through `V0` and `RE`. -/
theorem exec_fmt_registers {m : Nat} {e : Int} (neg : Bool) {s : State} (h : Formattable m e)
    (hs : s.mode = .ready) :
    exec (.fmt (zext64 m) (sext32 e) neg) s = .next (writeResults { bytes := fmt m e neg } s) := by
  have ⟨_, hlt, hshown⟩ := h
  have hm : (zext64 m).toNat = m := Nat.mod_eq_of_lt (hlt.trans (by norm_num))
  have he : s32 (sext32 e) = e := by
    have hlen := decimalLength_le hlt
    unfold shownExponent at hshown
    rw [s32_eq_toInt]
    exact BitVec.toInt_ofInt_eq_self (by omega) (by omega) (by omega)
  have hexec : exec (.fmt (zext64 m) (sext32 e) neg) s =
      finish 0x40 (fmtResult (zext64 m).toNat (s32 (sext32 e)) neg) s := rfl
  rw [hexec, hm, he, fmtResult_ok neg h]
  exact finish_ok hs

/-! ### The two ways of the pipeline (R219) -/

/-- What the fast path finds is an integer below `2^53`, stripped of its trailing zeros (R160). -/
theorem exactInt_eq_some {mant exp : Nat} {p : Nat × Nat} (hmant : mant < 2 ^ 52) (h : exactInt mant exp = some p) :
    ∃ n, n ≠ 0 ∧ n < 2 ^ 53 ∧ stripZeros 20 n 0 = p := by
  have hfull : mant ||| 1 <<< Config.mantissaBits = 2 ^ 52 + mant := by
    rw [Nat.or_comm, implicitOne_or hmant]
  simp only [exactInt, hfull] at h
  split at h
  case isTrue => cases h
  case isFalse =>
    split at h
    case isTrue => cases h
    case isFalse hexact =>
      refine ⟨_, fun h0 => ?_, (Nat.div_le_self ..).trans_lt (by omega), Option.some.inj h⟩
      rw [h0, Nat.zero_mul] at hexact
      omega

/-- The fast path's pair is in the domain of the formatter (R162, R219). -/
theorem exactInt_formattable {mant exp m d : Nat} (hmant : mant < 2 ^ 52)
    (h : exactInt mant exp = some (m, d)) : Formattable m d := by
  obtain ⟨n, h0, hn, hstrip⟩ := exactInt_eq_some hmant h
  obtain ⟨-, hvalue, hlast⟩ := stripZeros_spec 20 n 0 h0 (hn.trans (by norm_num))
  simp only [hstrip, Nat.sub_zero] at hvalue hlast
  have hpos : 1 ≤ m := by omega
  have hle : m ≤ n := hvalue ▸ Nat.le_mul_of_pos_right m (by positivity)
  have hzeros : 10 ^ d < 10 ^ 17 := by
    calc 10 ^ d ≤ m * 10 ^ d := Nat.le_mul_of_pos_left _ hpos
      _ = n := hvalue
      _ < 10 ^ 17 := hn.trans (by norm_num)
  have hd := (Nat.pow_lt_pow_iff_right (by omega)).1 hzeros
  exact formattable_of_bounds hpos (by omega) (by omega)

theorem conversion_exact {mant exp m d : Nat} (h : exactInt mant exp = some (m, d)) :
    conversion mant exp = .ok { m := m, e := d, removed := 0, exact := true, general := false } := by
  rw [conversion, h]

theorem conversion_full {mant exp : Nat} {r : ShortestResult} (h : exactInt mant exp = none)
    (hr : f2d mant exp = .ok r) :
    conversion mant exp =
      .ok { m := r.m, e := r.e, removed := r.removed, exact := false, general := r.general } := by
  rw [conversion, h, hr]

/-! ### The commands of the pipeline on the domain -/

section Inside

variable {mant : U64} {exp : Word32} {s : State} (hin : FiniteNonZero mant exp) (hs : s.mode = .ready)
include hin hs

theorem exec_exactint_some {m d : Nat} (h : exactInt mant.toNat exp.toNat = some (m, d)) :
    exec (.exactint mant exp) s =
      .next (writeResults { v0 := zext64 m, re := sext32 d, rf := exactFlag true } s) := by
  have hres : exactintResult mant.toNat exp.toNat =
      .ok { v0 := zext64 m, re := sext32 d, rf := exactFlag true } := by
    rw [exactintResult, convCheck_inside hin, h]
  exact (congrArg (finish 0x20 · s) hres).trans (finish_ok hs)

theorem exec_exactint_none (h : exactInt mant.toNat exp.toNat = none) :
    exec (.exactint mant exp) s = .next (writeResults { rf := exactFlag false } s) := by
  have hres : exactintResult mant.toNat exp.toNat = .ok { rf := exactFlag false } := by
    rw [exactintResult, convCheck_inside hin, h]
  exact (congrArg (finish 0x20 · s) hres).trans (finish_ok hs)

theorem exec_f2d_ok {r : ShortestResult} (h : f2d mant.toNat exp.toNat = .ok r) :
    exec (.f2d mant exp) s = .next (writeResults
      { v0 := zext64 r.m, v1 := zext64 r.removed, re := sext32 r.e, rf := generalFlag r.general } s) := by
  rw [exec_f2d_inside s hin, ← f2d, h]
  exact finish_ok hs

theorem exec_convert_ok (neg : Bool) {c : Conversion} (h : conversion mant.toNat exp.toNat = .ok c) :
    exec (.convert mant exp neg) s = .next (writeResults
      { v0 := zext64 c.m, v1 := zext64 c.removed, re := sext32 c.e, rf := convertFlags c.exact c.general,
        bytes := fmt c.m c.e neg } s) := by
  have hres := (convCheck_inside hin _).trans (congrArg (convertResults · neg) h)
  exact (congrArg (finish 0x41 · s) hres).trans (finish_ok hs)

end Inside

/-- `FMT` completes on a pair in its domain, from any `READY` state `t`; the tail it leaves is what a command
that writes the bytes of that pair leaves. -/
theorem fmt_completes_with_tail {m : Nat} {e : Int} {neg : Bool} {s t : State} {r : Results}
    (h : Formattable m e) (ht : t.mode = .ready) (hr : r.bytes = fmt m e neg) :
    ∃ f, exec (.fmt (zext64 m) (sext32 e) neg) t = .next f ∧ f.status.rvalid = true ∧
      s.CompletedWith (writeResults r s) { r with bytes := f.formattedTail } := by
  have hlen := fmt_length_le h.2.1 e neg
  refine ⟨_, exec_fmt_registers neg h ht, rfl, ?_⟩
  rw [formattedTail_writeResults t hlen, ← hr]
  exact completedWith_writeResults s (by rw [hr]; omega)

/-- Settles O40: either way the pair is in the formatter's domain, so `FMT` takes it and writes the bytes of
`CONVERT`. -/
theorem convertIsThePipeline : Obligations.ConvertIsThePipeline := by
  refine ⟨selects_opcode .convert, fun mant exp neg s hs => ⟨fun hin => ?_, fun hout =>
    finish_faults hs (convCheck_outside hout _)⟩⟩
  cases hexact : exactInt mant.toNat exp.toNat with
  | some p =>
    exact ⟨_, _, exec_convert_ok hin hs neg (conversion_exact hexact), exec_exactint_some hin hs hexact,
      fun _ => fmt_completes_with_tail (exactInt_formattable hin.1 hexact) hs rfl, fun h => Bool.noConfusion h⟩
  | none =>
    obtain ⟨r, hr, hform⟩ := f2d_formattable hin
    exact ⟨_, _, exec_convert_ok hin hs neg (conversion_full hexact hr), exec_exactint_none hin hs hexact,
      fun h => Bool.noConfusion h, fun _ => ⟨_, exists_and_left.2
        ⟨exec_f2d_ok hin hs hr, fmt_completes_with_tail hform hs rfl⟩⟩⟩

end Sys2Proof.Machine
end

section
/-! SUPPORT. Every edge has a next state, and in `FAULTED` an edge without reset touches only the port and
the host's inputs (60_exceptions.md R233, R241); the statement this settles. -/

namespace Sys2Proof.Machine

/-! ### Every edge has a next state -/

/-- A command word takes any state to a next one: no fault or refusal leaves the machine without a state. -/
theorem exists_runCommand (cw : CommandWord) (s : State) : ∃ t, runCommand cw s = .next t := by
  rcases runCommand_cases cw s with e | ⟨-, _, e⟩ | ⟨-, _, _, -, e⟩ <;> exact ⟨_, e⟩

/-- A command that has its effect answers on the port in the same cycle (R40). -/
theorem completeCommand_of_runCommand {cw : CommandWord} {s t : State} (h : runCommand cw s = .next t) :
    completeCommand cw s = .next (respond t) := by
  simp only [completeCommand, h]

/-- A command in flight or just accepted waits or completes. -/
theorem exists_advance (cw : CommandWord) (n : Nat) (s : State) : ∃ t, advance cw n s = .next t := by
  by_cases hn : n = 0
  · obtain ⟨t, ht⟩ := exists_runCommand cw s
    exact ⟨_, (if_pos hn).trans (completeCommand_of_runCommand ht)⟩
  · exact ⟨_, if_neg hn⟩

/-- Every state steps: to the reset state, with the command in flight, with the one accepted, or idle. -/
theorem exists_step (s : State) : ∃ t, step s = .next t := by
  unfold step cycle
  split
  · exact ⟨_, rfl⟩
  · unfold clockEdge
    split
    · exact exists_advance _ _ _
    · split
      · exact exists_advance _ _ _
      · exact ⟨_, rfl⟩

/-! ### `FAULTED` (R233, R241) -/

/-- The unit's own state agrees: the result registers, `STATUS` and `MODE`, so everything but the port, the
host's inputs and the source of free values. -/
abbrev State.sameUnit (s t : State) : Prop :=
  s.sameResults t ∧ t.status = s.status ∧ t.mode = s.mode

theorem respond_sameUnit (s : State) : s.sameUnit (respond s) :=
  ⟨⟨rfl, rfl, rfl, rfl, rfl, rfl, rfl⟩, rfl, rfl⟩

theorem waitFor_sameUnit (cw : CommandWord) (n : Nat) (s : State) : s.sameUnit (waitFor cw n s) :=
  ⟨⟨rfl, rfl, rfl, rfl, rfl, rfl, rfl⟩, rfl, rfl⟩

theorem idleCycle_sameUnit (s : State) : s.sameUnit (idleCycle s) :=
  ⟨⟨rfl, rfl, rfl, rfl, rfl, rfl, rfl⟩, rfl, rfl⟩

section Faulted
variable {s t : State} (hs : s.mode = .faulted)
include hs

/-- In `FAULTED` a command word has no effect, whatever its fields: completion and fault entry both need
`READY`. -/
theorem runCommand_faulted (cw : CommandWord) : runCommand cw s = .next s := by
  rcases runCommand_cases cw s with e | ⟨hready, -⟩ | ⟨hready, -⟩
  · exact e
  all_goals cases hs.symm.trans hready

/-- In `FAULTED` the work on a command only waits or answers on the port. -/
theorem advance_faulted_sameUnit {cw : CommandWord} {n : Nat} (h : advance cw n s = .next t) :
    s.sameUnit t := by
  rcases advance_cases h with ⟨-, rfl⟩ | ⟨-, rfl⟩ | ⟨-, hready, -⟩ | ⟨-, hready, -⟩
  · exact waitFor_sameUnit cw n s
  · exact respond_sameUnit s
  all_goals cases hs.symm.trans hready

/-- In `FAULTED` only reset changes the unit's own state: passing the inputs of an edge does not touch it,
and neither does an idle cycle or the work on a command. -/
theorem step_faulted_sameUnit (hr : s.nextInput.rst = false) (h : step s = .next t) : s.sameUnit t := by
  rcases step_cases h with ⟨hrst, -⟩ | ⟨-, -, -, rfl⟩ | ⟨-, f, -, ha⟩ | ⟨-, -, -, ha⟩
  · cases hr.symm.trans hrst
  · exact idleCycle_sameUnit s.passInput
  · exact advance_faulted_sameUnit (s := s.passInput) hs ha
  · exact advance_faulted_sameUnit (s := s.passInput) hs ha

end Faulted

/-- Settles O44: a command has no effect but its answer on the port, and no edge without reset has more. -/
theorem faultedDiscardsCommands : Obligations.FaultedDiscardsCommands := by
  refine fun s hs => ⟨fun cw => ?_, fun hr => ?_⟩
  · exact ⟨respond s, completeCommand_of_runCommand (runCommand_faulted hs cw), rfl, respond_sameUnit s⟩
  · obtain ⟨t, ht⟩ := exists_step s
    obtain ⟨hresults, hstatus, hmode⟩ := step_faulted_sameUnit hs hr ht
    exact ⟨t, ht, hresults, hstatus, hmode.trans hs⟩

end Sys2Proof.Machine
end

section
/-! SUPPORT. The encoder's fields read back (30_encoding.md R71, R74), and the statements about the decoder
this settles. -/

namespace Sys2Proof

/-! ### The fields an encoder writes (R74) -/

/-- The encoder writes its operation's code. -/
theorem Instr.toCommand_op (i : Instr) : i.toCommand.op = i.mnemonic.opcode := by
  cases i <;> rfl

/-- The encoder writes no reserved bit. -/
theorem Instr.toCommand_rsv (i : Instr) : i.toCommand.rsv = 0 := by
  cases i <;> rfl

/-- The two halves of `B` make up the whole operand (R77). -/
theorem halves_append (u : U128) : u.extractLsb' 64 64 ++ u.extractLsb' 0 64 = u := by
  have hjoin := BitVec.extractLsb'_append_extractLsb'_eq_extractLsb' (x := u) (w := 128) (start₁ := 0)
    (start₂ := 64) (len₁ := 64) (len₂ := 64) rfl
  exact hjoin.trans (extractLsb'_whole u)

/-- An operation reads from the encoder's fields the operands they were written from: each operand has a field
of its own, but for `MULSHIFT`, whose multiplier is cut into `BH` and `BL`. -/
theorem Instr.instr_toCommand (i : Instr) : i.toCommand.instr i.mnemonic = i := by
  cases i with
  | mulshift m u sh => exact congrArg (Instr.mulshift m · sh) (halves_append u)
  | _ => rfl

/-- Settles O1: the word reads back as the encoder's fields, and these as the operands. -/
theorem decodeEncodeRoundTrip : Obligations.DecodeEncodeRoundTrip := by
  intro i
  rw [encode, decode_toWord, Command.decode_ok i.toCommand_op i.toCommand_rsv, Instr.instr_toCommand]

/-! ### The fields an operation reads (R74) -/

/-- The instruction is made of the fields in the table of R74 alone. -/
theorem Command.instr_eq_of_sameReadFields {m : Mnemonic} {c d : Command}
    (h : Machine.Command.sameReadFields m c d) :
    c.instr m = d.instr m := by
  cases m <;> simp only [Machine.Command.sameReadFields] at h <;> simp [Command.instr, h]

/-- Settles O5: both words decode to the instruction of the fields they share. -/
theorem unreadFieldsHaveNoEffect : Obligations.UnreadFieldsHaveNoEffect := by
  intro m c d s hc hd hcrsv hdrsv hsame
  rw [Machine.runCommand, Machine.runCommand, decode_toWord, decode_toWord, Command.decode_ok hc hcrsv,
    Command.decode_ok hd hdrsv, Command.instr_eq_of_sameReadFields hsame]

/-- Settles O7: each word is read field by field. -/
theorem spelledWordsDecode : Obligations.SpelledWordsDecode := by
  refine ⟨?_, ?_, ?_, ?_, ?_, ?_⟩ <;> decide

end Sys2Proof
end

section
/-! SUPPORT. What the operands of an assembler line leave in the fields of its command word (30_encoding.md
R83), and the statement about assembled lines this settles. -/

namespace Sys2Proof.Machine

/-! ### The fields one operand sets -/

/-- The content of a field as a number. `B` is no field of its own, and reads 0. -/
def fieldValue (c : Command) : AsmKey ⊕ AsmFlag → Nat
  | .inl .a => c.a.toNat
  | .inl .b => 0
  | .inl .bl => c.bl.toNat
  | .inl .bh => c.bh.toNat
  | .inl .c => c.c.toNat
  | .inr .neg => c.neg.toNat
  | .inr .acc => c.acc.toNat
  | .inr .vrtz => c.vrtz.toNat
  | .inr .vmtz => c.vmtz.toNat

/-- What an operand writes to a field that it sets. -/
def writtenValue : AsmOperand → AsmKey ⊕ AsmFlag → Nat
  | .key .b v, .inl .bh => (BitVec.ofInt 64 (v / 2 ^ 64)).toNat
  | .key .c v, _ => (BitVec.ofInt 32 v).toNat
  | .key _ v, _ => (BitVec.ofInt 64 v).toNat
  | .flag _, _ => 1

/-- An operand writes the fields it sets and leaves every other one alone. -/
theorem fieldValue_setOperand (c : Command) (o : AsmOperand) (f : AsmKey ⊕ AsmFlag) :
    (f ∈ o.sets → fieldValue (setOperand c o) f = writtenValue o f) ∧
      (f ∉ o.sets → fieldValue (setOperand c o) f = fieldValue c f) := by
  rcases o with ⟨_ | _, _⟩ | ⟨_ | _⟩ <;> rcases f with (_ | _) | (_ | _) <;>
    simp [AsmOperand.sets, AsmKey.fieldsSet, setOperand, fieldValue, writtenValue]

/-- The operation code and the reserved bits are no operand's. -/
theorem setOperand_op_rsv (c : Command) (o : AsmOperand) :
    (setOperand c o).op = c.op ∧ (setOperand c o).rsv = c.rsv := by
  rcases o with ⟨_ | _, _⟩ | ⟨_ | _⟩ <;> exact ⟨rfl, rfl⟩

theorem inl_mem_sets_iff {k : AsmKey} {o : AsmOperand} :
    .inl k ∈ o.sets ↔ ∃ k' v, o = .key k' v ∧ k ∈ k'.fieldsSet := by
  cases o <;> simp [AsmOperand.sets]

theorem inr_mem_sets_iff {f : AsmFlag} {o : AsmOperand} : .inr f ∈ o.sets ↔ o = .flag f := by
  cases o <;> simp [AsmOperand.sets, eq_comm]

/-! ### The fields a line sets -/

theorem foldl_setOperand_op_rsv (ops : List AsmOperand) (c : Command) :
    (ops.foldl setOperand c).op = c.op ∧ (ops.foldl setOperand c).rsv = c.rsv := by
  induction ops generalizing c with
  | nil => exact ⟨rfl, rfl⟩
  | cons o ops ih =>
    obtain ⟨hop, hrsv⟩ := setOperand_op_rsv c o
    exact ⟨(ih _).1.trans hop, (ih _).2.trans hrsv⟩

/-- A field that no operand sets keeps its content. -/
theorem fieldValue_foldl_of_notMem {ops : List AsmOperand} {f : AsmKey ⊕ AsmFlag}
    (h : ∀ o ∈ ops, f ∉ o.sets) (c : Command) : fieldValue (ops.foldl setOperand c) f = fieldValue c f := by
  induction ops generalizing c with
  | nil => rfl
  | cons o ops ih =>
    rw [List.forall_mem_cons] at h
    exact (ih h.2 _).trans ((fieldValue_setOperand c o f).2 h.1)

/-- With no field given twice, each operand of the line is what its fields hold in the end. -/
theorem fieldValue_foldl_of_mem {ops : List AsmOperand} {o : AsmOperand} {f : AsmKey ⊕ AsmFlag}
    (hnodup : (ops.flatMap AsmOperand.sets).Nodup) (ho : o ∈ ops) (hf : f ∈ o.sets) (c : Command) :
    fieldValue (ops.foldl setOperand c) f = writtenValue o f := by
  induction ops generalizing c with
  | nil => cases ho
  | cons o' ops ih =>
    rw [List.flatMap_cons, List.nodup_append'] at hnodup
    obtain ⟨-, hrest, hdisjoint⟩ := hnodup
    rcases List.mem_cons.1 ho with rfl | ho
    · have hlater : ∀ o' ∈ ops, f ∉ o'.sets := fun o' ho' hf' =>
        hdisjoint hf (List.mem_flatMap.2 ⟨o', ho', hf'⟩)
      exact (fieldValue_foldl_of_notMem hlater _).trans ((fieldValue_setOperand c o f).1 hf)
    · exact ih hrest ho _

/-- The fields that a line's operands leave, before they are written as a word. -/
def lineCommand (l : AsmLine) : Command := l.operands.foldl setOperand (Command.bare l.mnemonic)

theorem lineWellFormed_iff (l : AsmLine) : l.wellFormed = true ↔
    (∀ o ∈ l.operands, o.fits l.mnemonic = true) ∧ (l.operands.flatMap AsmOperand.sets).Nodup := by
  simp [AsmLine.wellFormed, AsmLine.noFieldTwice]

theorem fits_key_iff (m : Mnemonic) (k : AsmKey) (v : Int) : (AsmOperand.key k v).fits m = true ↔
    v < 2 ^ k.width ∧ (0 ≤ v ∨ k = .c ∧ m.signedC = true ∧ -2 ^ 31 ≤ v) := by
  simp [AsmOperand.fits, and_assoc]

theorem assembleLine_eq_none_iff (l : AsmLine) : assembleLine l = none ↔ l.wellFormed = false := by
  simp [assembleLine]

theorem assembleLine_eq_some {l : AsmLine} {w : CommandWord} (h : assembleLine l = some w) :
    l.wellFormed = true ∧ (lineCommand l).toWord = w := by
  simpa [assembleLine, lineCommand] using h

section Line
variable {l : AsmLine} (hl : l.wellFormed = true)
include hl

/-- A field that an operand sets is read back as the operand gave it. -/
theorem fieldValue_lineCommand {o : AsmOperand} {f : AsmKey ⊕ AsmFlag} (ho : o ∈ l.operands) (hf : f ∈ o.sets) :
    fieldValue (lineCommand l) f = writtenValue o f :=
  fieldValue_foldl_of_mem ((lineWellFormed_iff l).1 hl).2 ho hf _

/-- A flag bit is set iff the line has the flag word. -/
theorem flag_lineCommand_iff (f : AsmFlag) :
    fieldValue (lineCommand l) (.inr f) = 1 ↔ .flag f ∈ l.operands := by
  by_cases h : .flag f ∈ l.operands
  · simp [h, fieldValue_lineCommand hl h (inr_mem_sets_iff.2 rfl), writtenValue]
  · have hnone : ∀ o ∈ l.operands, .inr f ∉ o.sets := fun o ho hf => h (inr_mem_sets_iff.1 hf ▸ ho)
    rw [lineCommand, fieldValue_foldl_of_notMem hnone]
    cases f <;> simp [h, fieldValue, Command.bare]

/-- An operand of a key other than `C` is a number of its field's width. -/
theorem unsigned_of_key {k : AsmKey} {v : Int} (h : .key k v ∈ l.operands) (hk : k ≠ .c) :
    0 ≤ v ∧ v < 2 ^ k.width := by
  obtain ⟨hlt, hpos | ⟨rfl, -⟩⟩ := (fits_key_iff ..).1 (((lineWellFormed_iff l).1 hl).1 _ h)
  · exact ⟨hpos, hlt⟩
  · exact absurd rfl hk

/-- A field of 64 bits with its own key holds the operand of that key. -/
theorem key_lineCommand {k : AsmKey} {v : Int} (h : .key k v ∈ l.operands) (hk : k = .a ∨ k = .bl ∨ k = .bh) :
    (fieldValue (lineCommand l) (.inl k) : Int) = v := by
  have hmem : .inl k ∈ (AsmOperand.key k v).sets := by
    rcases hk with rfl | rfl | rfl <;> simp [AsmOperand.sets, AsmKey.fieldsSet]
  obtain ⟨hpos, hlt⟩ := unsigned_of_key hl h (by rcases hk with rfl | rfl | rfl <;> decide)
  rw [fieldValue_lineCommand hl h hmem]
  rcases hk with rfl | rfl | rfl <;> simp only [writtenValue, BitVec.toNat_ofInt, AsmKey.width] at * <;> omega

/-- The two halves of `B` hold the operand given for it (R77). -/
theorem keyB_lineCommand {v : Int} (h : .key .b v ∈ l.operands) :
    (fieldValue (lineCommand l) (.inl .bh) * 2 ^ 64 + fieldValue (lineCommand l) (.inl .bl) : Int) = v := by
  obtain ⟨hpos, hlt⟩ := unsigned_of_key hl h (by decide)
  have hhigh : .inl .bh ∈ (AsmOperand.key .b v).sets := by simp [AsmOperand.sets, AsmKey.fieldsSet]
  have hlow : .inl .bl ∈ (AsmOperand.key .b v).sets := by simp [AsmOperand.sets, AsmKey.fieldsSet]
  rw [fieldValue_lineCommand hl h hhigh, fieldValue_lineCommand hl h hlow]
  simp only [writtenValue, BitVec.toNat_ofInt, AsmKey.width] at *
  omega

end Line

/-- A field that no key of the line sets is 0. -/
theorem key_lineCommand_of_notGiven {l : AsmLine} {k : AsmKey}
    (h : ∀ k', k ∈ k'.fieldsSet → ¬ ∃ v, .key k' v ∈ l.operands) :
    fieldValue (lineCommand l) (.inl k) = 0 := by
  have hnone : ∀ o ∈ l.operands, .inl k ∉ o.sets := fun o ho hk => by
    obtain ⟨k', v, rfl, hk'⟩ := inl_mem_sets_iff.1 hk
    exact h k' hk' ⟨v, ho⟩
  rw [lineCommand, fieldValue_foldl_of_notMem hnone]
  cases k <;> rfl

/-- The field `C` of a line holds the operand as it was given, or in two's complement (R83). -/
theorem keyC_lineCommand {l : AsmLine} {v : Int} (hl : l.wellFormed = true) (h : .key .c v ∈ l.operands) :
    ((lineCommand l).c.toNat : Int) = v ∨
      v < 0 ∧ (lineCommand l).c.toInt = v ∧ l.mnemonic.signedC = true := by
  have hc : (lineCommand l).c = BitVec.ofInt 32 v :=
    BitVec.eq_of_toNat_eq (fieldValue_lineCommand hl h (f := .inl .c) (by simp [AsmOperand.sets, AsmKey.fieldsSet]))
  obtain ⟨hlt, hv⟩ := (fits_key_iff ..).1 (((lineWellFormed_iff l).1 hl).1 _ h)
  rw [hc]
  rcases lt_or_ge v 0 with hneg | hpos
  · obtain hpos | ⟨-, hsigned, hlow⟩ := hv
    · omega
    · exact .inr ⟨hneg, BitVec.toInt_ofInt_eq_self (by omega) (by omega) (by omega), hsigned⟩
  · refine .inl ?_
    simp only [BitVec.toNat_ofInt, AsmKey.width] at *
    omega

/-- The word of a line is a command of its mnemonic. -/
theorem lineCommand_decodes (l : AsmLine) :
    ∃ i : Instr, decode (lineCommand l).toWord = .ok i ∧ i.mnemonic = l.mnemonic := by
  rw [decode_toWord]
  exact (Command.decode_mnemonic_iff _ _).2 (foldl_setOperand_op_rsv l.operands (Command.bare l.mnemonic))

/-- Settles O8: the fields of the word are those the operands left. -/
theorem assembledLineDecodesToItsMnemonic : Obligations.AssembledLineDecodesToItsMnemonic := by
  refine fun l => ⟨assembleLine_eq_none_iff l, fun w hw => ?_⟩
  obtain ⟨hl, rfl⟩ := assembleLine_eq_some hw
  rw [Command.ofWord_toWord]
  have flag (f : AsmFlag) {b : Bool} (hb : fieldValue (lineCommand l) (.inr f) = b.toNat) :
      b = true ↔ .flag f ∈ l.operands := by
    rw [← flag_lineCommand_iff hl f, hb, Bool.toNat_eq_one]
  have zero (k : AsmKey) {n : Nat} {x : BitVec n} (hx : fieldValue (lineCommand l) (.inl k) = x.toNat)
      (h : ∀ k', k ∈ k'.fieldsSet → ¬ ∃ v, .key k' v ∈ l.operands) : x = 0 :=
    BitVec.eq_of_toNat_eq (hx.symm.trans (key_lineCommand_of_notGiven h))
  refine ⟨lineCommand_decodes l, flag .neg rfl, flag .acc rfl, flag .vrtz rfl, flag .vmtz rfl,
    fun v h => key_lineCommand hl h (by simp), fun ha => zero .a rfl fun k' hk' => ?_,
    fun v h => keyB_lineCommand hl h, fun v h => key_lineCommand hl h (by simp),
    fun hb hbl => zero .bl rfl fun k' hk' => ?_, fun v h => key_lineCommand hl h (by simp),
    fun hb hbh => zero .bh rfl fun k' hk' => ?_, fun v h => keyC_lineCommand hl h,
    fun hc => zero .c rfl fun k' hk' => ?_⟩
  all_goals cases k' <;> simp [AsmKey.fieldsSet] at hk' <;> assumption

end Sys2Proof.Machine
end

section
/-! SUPPORT. The results and causes of every instruction and of every command word in one place
(10_state.md R26; 60_exceptions.md R230 to R237), and the statements about outcomes this settles. -/

namespace Sys2Proof.Machine

/-! ### How a computation may end -/

/-- The computation gives results whose bytes fit the output buffer, or reports one of the causes. -/
def EndsWithin (causes : List Cause) : Except Cause Results → Prop
  | .ok res => res.bytes.length ≤ 24
  | .error c => c ∈ causes

/-- Results without bytes, of every command but the two that format. -/
theorem endsWithin_noBytes {causes : List Cause} {res : Results} (h : res.bytes = []) :
    EndsWithin causes (.ok res) := by
  simp [EndsWithin, h]

/-- A check in front of a computation adds its own cause. -/
theorem EndsWithin.check {causes : List Cause} {c : Cause} {r : Except Cause Results} {P : Prop} [Decidable P]
    (hc : c ∈ causes) (hr : EndsWithin causes r) : EndsWithin causes (if P then .error c else r) := by
  split
  · exact hc
  · exact hr

/-- `ConvDomain` in front of a conversion: on the domain the computation itself decides. -/
theorem endsWithin_convCheck {mant : U64} {exp : Word32} {r : Except Cause Results}
    (h : FiniteNonZero mant exp → EndsWithin [.inputDomain] r) :
    EndsWithin [.inputDomain] (convCheck mant.toNat exp.toNat r) := by
  by_cases hin : FiniteNonZero mant exp
  · rw [convCheck_inside hin]
    exact h hin
  · rw [convCheck_outside hin]
    exact List.mem_singleton.2 rfl

theorem endsWithin_shortestResults (iv : IntervalResult) :
    EndsWithin [.nontermination, .expRange] (shortestResults (shortest iv)) := by
  cases h : shortest iv with
  | ok r => exact endsWithin_noBytes rfl
  | error c => simpa [shortestResults, EndsWithin] using shortest_error h

theorem endsWithin_fmtResult (m : Nat) (e : Int) (neg : Bool) :
    EndsWithin [.mantRange, .expRange] (fmtResult m e neg) := by
  unfold fmtResult
  split
  case isTrue => exact List.mem_cons_self
  case isFalse h => exact .check (by simp) (fmt_length_le (Nat.not_le.1 fun hm => h (.inr hm)) e neg)

/-- On the domain the pipeline has a pair for the formatter, on either of its ways (R219). -/
theorem conversion_formattable {mant : U64} {exp : Word32} (h : FiniteNonZero mant exp) :
    ∃ c, conversion mant.toNat exp.toNat = .ok c ∧ Formattable c.m c.e := by
  cases hexact : exactInt mant.toNat exp.toNat with
  | some p => exact ⟨_, conversion_exact hexact, exactInt_formattable h.1 hexact⟩
  | none =>
    obtain ⟨r, hr, hform⟩ := f2d_formattable h
    exact ⟨_, conversion_full hexact hr, hform⟩

/-! ### The results of an instruction -/

/-- What an instruction computes from its operands: results, or the cause its checks report. `NOP` computes
nothing, and `exec` does not ask for it. -/
def instrResults : Instr → Except Cause Results
  | .nop => .ok {}
  | .pow5bits e => pow5bitsResult e.toNat
  | .pow5rd i => pow5rdResult i.toNat
  | .pow5invrd q => pow5invrdResult q.toNat
  | .mulshift m u sh => mulshiftResult m.toNat u.toNat (s32 sh)
  | .pow5factor v => pow5factorResult v.toNat
  | .mulpow5 v p => mulpow5Result v.toNat p.toNat
  | .mulpow2 v p => mulpow2Result v.toNat p.toNat
  | .declen u => declenResult u.toNat
  | .log10pow2 e => log10pow2Result (s32 e)
  | .log10pow5 e => log10pow5Result (s32 e)
  | .exactint mant exp => exactintResult mant.toNat exp.toNat
  | .interval mant exp => intervalResult mant.toNat exp.toNat
  | .shortest vr vp vm e10 acc vrtz vmtz =>
    shortestResults (shortest
      { vr := vr.toNat, vp := vp.toNat, vm := vm.toNat, e10 := s32 e10, accept := acc, vrTz := vrtz, vmTz := vmtz })
  | .f2d mant exp => convCheck mant.toNat exp.toNat (shortestResults (f2d mant.toNat exp.toNat))
  | .fmt m e neg => fmtResult m.toNat (s32 e) neg
  | .convert mant exp neg => convCheck mant.toNat exp.toNat (convertResults (conversion mant.toNat exp.toNat) neg)

/-- Every instruction but `NOP` is `finish` of its results. -/
theorem exec_eq_finish_instrResults {i : Instr} (hi : i ≠ .nop) (s : State) :
    exec i s = finish i.opcode (instrResults i) s := by
  cases i with
  | nop => exact absurd rfl hi
  | _ => rfl

/-- An instruction reports only the causes of its own checks, and its bytes fit the buffer (R215, R237). -/
theorem instrResults_ends (i : Instr) : EndsWithin (operationCauses i.mnemonic) (instrResults i) := by
  have single {c : Cause} : c ∈ [c] := List.mem_singleton.2 rfl
  cases i with
  | nop | mulpow2 => exact endsWithin_noBytes rfl
  | pow5bits | pow5rd | pow5invrd | mulshift | pow5factor | mulpow5 | declen | log10pow2 | log10pow5 =>
    exact .check single (endsWithin_noBytes rfl)
  | exactint mant exp =>
    refine endsWithin_convCheck fun _ => ?_
    cases exactInt mant.toNat exp.toNat <;> exact endsWithin_noBytes rfl
  | interval mant exp => exact endsWithin_convCheck fun _ => endsWithin_noBytes rfl
  | shortest => exact endsWithin_shortestResults _
  | f2d mant exp =>
    refine endsWithin_convCheck fun h => ?_
    obtain ⟨r, hr, -⟩ := f2d_formattable h
    rw [hr]
    exact endsWithin_noBytes rfl
  | fmt m e neg => exact endsWithin_fmtResult _ _ _
  | convert mant exp neg =>
    refine endsWithin_convCheck fun h => ?_
    obtain ⟨c, hc, hform⟩ := conversion_formattable h
    rw [hc]
    exact fmt_length_le hform.2.1 c.e neg

/-- Settles O41: the results and the cause are those of `instrResults`, which reads no state. -/
theorem outcomeDependsOnOperandsAlone : Obligations.OutcomeDependsOnOperandsAlone := by
  intro i s s' hi hs hs'
  rw [exec_eq_finish_instrResults hi, exec_eq_finish_instrResults hi]
  cases instrResults i with
  | ok res =>
    exact .inl ⟨_, _, finish_ok hs, finish_ok hs', ⟨rfl, rfl, rfl, rfl, rfl, rfl, rfl⟩, rfl, rfl, hs, hs'⟩
  | error c =>
    exact .inr ⟨_, _, c, finish_error hs, finish_error hs', faultedBy_faultEntry .., faultedBy_faultEntry ..⟩

/-- Settles O42: a fault has the cause that `instrResults` reports. -/
theorem operationsReportTheirOwnCauses : Obligations.OperationsReportTheirOwnCauses := by
  intro i s t hs h ht
  have hends := instrResults_ends i
  by_cases hi : i = .nop
  · subst hi
    cases h
    cases hs.symm.trans ht
  rw [exec_eq_finish_instrResults hi] at h
  cases hr : instrResults i with
  | ok res =>
    rw [hr, finish_ok hs] at h
    cases h
    cases hs.symm.trans ht
  | error c =>
    rw [hr, finish_error hs] at h
    cases h
    rwa [hr] at hends

/-! ### The effect of a command word -/

/-- No operation reports `NONE`. -/
theorem none_notMem_operationCauses (m : Mnemonic) : .none ∉ operationCauses m := by
  cases m <;> decide

/-- The operation code of the instruction is that of its word. -/
theorem opcode_of_decode {cw : CommandWord} {i : Instr} (h : decode cw = .ok i) :
    i.opcode = cw.extractLsb' 0 8 := by
  obtain ⟨m, hop, -, rfl⟩ := Command.decode_eq_ok_iff.1 h
  rw [Instr.opcode, Command.instr_mnemonic, ← hop]
  rfl

/-- A command word does nothing (`NOP`), or is `finish` of results or of a cause that its fields alone give,
with its own `OP` field. -/
theorem runCommand_eq_finish (cw : CommandWord) :
    (∀ s, runCommand cw s = .next s) ∨ ∃ causes r, .none ∉ causes ∧ EndsWithin causes r ∧
      ∀ s, runCommand cw s = finish (cw.extractLsb' 0 8) r s := by
  cases h : decode cw with
  | ok i =>
    by_cases hi : i = .nop
    · subst hi
      exact .inl fun s => by rw [runCommand, h]; rfl
    · refine .inr ⟨_, _, none_notMem_operationCauses i.mnemonic, instrResults_ends i, fun s => ?_⟩
      rw [runCommand, h, ← opcode_of_decode h]
      exact exec_eq_finish_instrResults hi s
  | error r =>
    refine .inr ⟨[rejectCause r], .error (rejectCause r), ?_, List.mem_singleton.2 rfl, fun s => ?_⟩
    · cases r <;> decide
    · rw [runCommand, h]
      rfl

/-- Everything a command word can do, with the bound on its bytes and the `OP` field of its fault. -/
theorem runCommand_ends {cw : CommandWord} {s t : State} (h : runCommand cw s = .next t) :
    t = s ∨ (s.mode = .ready ∧ ∃ res, res.bytes.length ≤ 24 ∧ t = writeResults res s) ∨
      (s.mode = .ready ∧ ∃ c, c ≠ .none ∧ t = faultEntry c (cw.extractLsb' 0 8) s) := by
  rcases runCommand_eq_finish cw with hnop | ⟨causes, r, hnone, hends, hfinish⟩
  · cases (hnop s).symm.trans h
    exact .inl rfl
  · rw [hfinish] at h
    rcases finish_cases (cw.extractLsb' 0 8) r s with ⟨-, e⟩ | ⟨hm, res, rfl, e⟩ | ⟨hm, c, rfl, e⟩ <;>
      cases e.symm.trans h
    · exact .inl rfl
    · exact .inr (.inl ⟨hm, res, hends, rfl⟩)
    · exact .inr (.inr ⟨hm, c, fun hc => hnone (hc ▸ hends), rfl⟩)

/-- Settles O43: from `READY` only fault entry ends in `FAULTED`. -/
theorem faultEntryRecordsTheCommand : Obligations.FaultEntryRecordsTheCommand := by
  intro cw s t hs h ht
  rcases runCommand_ends h with rfl | ⟨-, res, -, rfl⟩ | ⟨-, c, hc, rfl⟩
  · cases hs.symm.trans ht
  · cases hs.symm.trans ht
  · exact ⟨rfl, rfl, hc, rfl, rfl, rfl, rfl, rfl⟩

end Sys2Proof.Machine
end

section
/-! SUPPORT. One edge seen from the unit and from the port: the three invariants every step keeps, reset, idle
cycles, and the latency of an accepted command (10_state.md R40; 70_reset_and_hazards.md R260, R265). -/
namespace Sys2Proof.Machine
/-! ### What an edge does to the unit's own state -/
/-- The work on a command leaves the unit's own state, or has the effect of its command word on it. -/
theorem advance_unit {cw : CommandWord} {n : Nat} {s t : State} (h : advance cw n s = .next t) :
    s.sameUnit t ∨ ∃ u, runCommand cw s = .next u ∧ u.sameUnit t := by
  unfold advance at h
  split at h
  case isFalse =>
    cases h
    exact .inl (waitFor_sameUnit cw n s)
  case isTrue =>
    obtain ⟨u, hu⟩ := exists_runCommand cw s
    cases (completeCommand_of_runCommand hu).symm.trans h
    exact .inr ⟨u, hu, respond_sameUnit u⟩
/-- A step leaves the unit's own state, is a reset, or has the effect of one command word on it. -/
theorem step_unit {s t : State} (h : step s = .next t) :
    s.sameUnit t ∨ t = applyReset s.passInput ∨
      ∃ cw u, runCommand cw s.passInput = .next u ∧ u.sameUnit t := by
  rcases step_cases h with ⟨-, rfl⟩ | ⟨-, -, -, rfl⟩ | ⟨-, f, -, ha⟩ | ⟨-, -, -, ha⟩
  · exact .inr (.inl rfl)
  · exact .inl (idleCycle_sameUnit s.passInput)
  all_goals exact (advance_unit ha).imp_right fun hu => .inr ⟨_, hu⟩
/-- An invariant of the unit's own state that reset establishes and command words keep is kept by every step. -/
theorem step_keeps {P : State → Prop} (hunit : ∀ s t, s.sameUnit t → P s → P t)
    (hreset : ∀ s, P (applyReset s)) (hrun : ∀ cw s t, runCommand cw s = .next t → P s → P t)
    {s t : State} (hs : P s) (h : step s = .next t) : P t := by
  rcases step_unit h with hu | rfl | ⟨cw, u, hu, hut⟩
  · exact hunit s t hu hs
  · exact hreset _
  · exact hunit u t hut (hrun cw _ u hu (hunit s _ ⟨⟨rfl, rfl, rfl, rfl, rfl, rfl, rfl⟩, rfl, rfl⟩ hs))
/-! ### The invariants -/
theorem statusConsistent_of_sameUnit (s t : State) (h : s.sameUnit t) (hs : s.statusConsistent) :
    t.statusConsistent := by
  obtain ⟨-, hstatus, hmode⟩ := h
  rwa [State.statusConsistent, hstatus, hmode]
theorem statusConsistent_applyReset (s : State) : (applyReset s).statusConsistent := by
  simp [State.statusConsistent]
/-- Completion needs `READY`, where `FAULT` is 0, and leaves both; fault entry writes all four fields. -/
theorem statusConsistent_runCommand (cw : CommandWord) (s t : State) (h : runCommand cw s = .next t)
    (hs : s.statusConsistent) : t.statusConsistent := by
  rcases runCommand_ends h with rfl | ⟨hm, res, -, rfl⟩ | ⟨-, c, hc, rfl⟩
  · exact hs
  · have hfault : s.status.fault = false := by simpa [hm] using hs.1
    obtain ⟨-, hclear, -⟩ := hs
    simpa [State.statusConsistent, hm, hfault] using hclear hfault
  · simpa [State.statusConsistent] using hc
/-- Settles O55: only completion, fault entry and reset touch `STATUS` and `MODE`, and each leaves them in agreement. -/
theorem stepKeepsStatusConsistent : Obligations.StepKeepsStatusConsistent := fun _ _ =>
  step_keeps statusConsistent_of_sameUnit statusConsistent_applyReset statusConsistent_runCommand
theorem bufferConsistent_of_sameUnit (s t : State) (h : s.sameUnit t) (hs : s.bufferConsistent) :
    t.bufferConsistent := by
  obtain ⟨⟨-, -, -, -, -, hob, hoblen⟩, hstatus, -⟩ := h
  rwa [State.bufferConsistent, hob, hoblen, hstatus]
theorem bufferConsistent_applyReset (s : State) : (applyReset s).bufferConsistent := by
  simp [State.bufferConsistent]
/-- Bytes that fit the buffer fill it up to `OBLEN`, with zeros behind them. -/
theorem bufferConsistent_writeResults {r : Results} (s : State) (h : r.bytes.length ≤ 24) :
    (writeResults r s).bufferConsistent := by
  intro _
  rw [writeResults_oblen, outputLength_toNat (by omega)]
  refine ⟨h, fun k hk hle => ?_⟩
  simp [hle]
theorem bufferConsistent_runCommand (cw : CommandWord) (s t : State) (h : runCommand cw s = .next t)
    (hs : s.bufferConsistent) : t.bufferConsistent := by
  rcases runCommand_ends h with rfl | ⟨-, res, hlen, rfl⟩ | ⟨-, c, -, rfl⟩
  · exact hs
  · exact bufferConsistent_writeResults s hlen
  · simp [State.bufferConsistent]
/-- Settles O57: of all commands only the two that format write bytes, at most 24. -/
theorem stepKeepsBufferConsistent : Obligations.StepKeepsBufferConsistent := fun _ _ =>
  step_keeps bufferConsistent_of_sameUnit bufferConsistent_applyReset bufferConsistent_runCommand
/-- With no command in flight the port's invariant asks for nothing. -/
theorem portConsistent_of_none {s : State} (h : s.inFlight = none) : s.portConsistent := by
  simp [State.portConsistent, h]
/-- A command waits with at least one edge left, and fewer than its latency; or it has left the port. -/
theorem portConsistent_advance {cw : CommandWord} {n : Nat} {s t : State} (hn : n < Config.latencyCycles cw)
    (h : advance cw n s = .next t) : t.portConsistent := by
  rcases advance_cases h with ⟨h0, rfl⟩ | ⟨-, rfl⟩ | ⟨-, -, res, rfl⟩ | ⟨-, -, c, op, -, rfl⟩
  · intro f hf
    cases hf
    exact ⟨rfl, rfl, Nat.one_le_iff_ne_zero.2 h0, hn⟩
  all_goals exact portConsistent_of_none rfl
/-- Settles O56: the count of a command in flight goes down, and starts below its latency. -/
theorem stepKeepsPortConsistent : Obligations.StepKeepsPortConsistent := by
  intro s t hs h
  rcases step_cases h with ⟨-, rfl⟩ | ⟨-, hf, -, rfl⟩ | ⟨-, f, hf, ha⟩ | ⟨-, -, -, ha⟩
  · exact portConsistent_of_none rfl
  · exact portConsistent_of_none hf
  · obtain ⟨-, -, -, hlt⟩ := hs f hf
    exact portConsistent_advance (by omega) ha
  · exact portConsistent_advance (Nat.sub_lt (Nat.succ_pos _) Nat.one_pos) ha
/-- Settles O54: in each case of an edge there is a next state. -/
theorem stepAlwaysAnswersANextState : Obligations.StepAlwaysAnswersANextState := exists_step
/-- Settles O53: at reset nothing is in flight and `RVALID` is 0. -/
theorem resetStateIsConsistent : Obligations.ResetStateIsConsistent := by
  refine ⟨by decide, rfl, by decide, rfl, rfl, rfl, ?_, portConsistent_of_none rfl, ?_⟩
  · simp [State.statusConsistent, State.reset]
  · simp [State.bufferConsistent, State.reset]
/-! ### The cases of an edge, from the port's side -/
theorem Status.cleared_word : Status.cleared.word = 0 := by
  decide
theorem step_of_reset {s : State} (h : s.nextInput.rst = true) : step s = .next (applyReset s.passInput) :=
  if_pos h
theorem step_of_no_reset {s : State} (h : s.nextInput.rst = false) :
    step s = clockEdge s.nextInput s.passInput :=
  if_neg (Bool.eq_false_iff.1 h)
/-- An edge with a command in flight works on it, whatever the host presents. -/
theorem step_of_inFlight {s : State} {f : InFlight} (hr : s.nextInput.rst = false) (hf : s.inFlight = some f) :
    step s = advance f.cmd (f.remaining - 1) s.passInput := by
  rw [step_of_no_reset hr, clockEdge, State.passInput_inFlight, hf]
/-- A command that a ready port is presented is accepted at that edge. -/
theorem step_of_accepted {s : State} (hr : s.nextInput.rst = false) (hf : s.inFlight = none)
    (hv : (s.cmdReady && s.nextInput.cmdValid) = true) :
    step s = advance s.nextInput.cmd (Config.latencyCycles s.nextInput.cmd - 1) s.passInput := by
  rw [step_of_no_reset hr, clockEdge, State.passInput_inFlight, hf]
  exact if_pos hv
/-- Without a command in flight or accepted the edge is idle. -/
theorem step_of_idle {s : State} (hr : s.nextInput.rst = false) (hf : s.inFlight = none)
    (hv : (s.cmdReady && s.nextInput.cmdValid) = false) : step s = .next (idleCycle s.passInput) := by
  rw [step_of_no_reset hr, clockEdge, State.passInput_inFlight, hf]
  exact if_neg (Bool.eq_false_iff.1 hv)
/-- At the last edge of its latency a command has its effect and answers. -/
theorem step_of_lastEdge {s t : State} {cw : CommandWord} (hr : s.nextInput.rst = false)
    (hf : s.inFlight = some { cmd := cw, remaining := 1 }) (h : runCommand cw s.passInput = .next t) :
    step s = .next (respond t) :=
  (step_of_inFlight hr hf).trans (completeCommand_of_runCommand h)
/-- Settles O48: one edge left means that this edge completes the command. -/
theorem stepRunsTheDecodedInstruction : Obligations.StepRunsTheDecodedInstruction := by
  intro s cw i hi hr hf
  obtain ⟨t, ht⟩ := exists_runCommand cw s.passInput
  refine ⟨t, ?_, step_of_lastEdge hr hf ht⟩
  rw [runCommand, hi] at ht
  exact ht
/-- Settles O50: without `cmd_ready` no case of the edge reads `cmd_valid` or `cmd`. -/
theorem unreadyPortIgnoresCommands : Obligations.UnreadyPortIgnoresCommands := by
  intro s p q rest hready hp hq
  have reset (r : PortInput) (hr : r.rst = false) : { s with host := r :: rest }.nextInput.rst = false := hr
  rcases Option.eq_none_or_eq_some s.inFlight with hf | ⟨f, hf⟩
  · have notAccepted (r : PortInput) : (s.cmdReady && r.cmdValid) = false := by rw [hready]; rfl
    exact (step_of_idle (reset p hp) hf (notAccepted p)).trans (step_of_idle (reset q hq) hf (notAccepted q)).symm
  · exact (step_of_inFlight (reset p hp) hf).trans (step_of_inFlight (reset q hq) hf).symm
/-- Settles O51: with nothing in flight and nothing presented the edge is idle. -/
theorem idleCyclesKeepTheState : Obligations.IdleCyclesKeepTheState :=
  fun _ hf hr hv => step_of_idle hr hf (by simp [hv])
/-- Settles O52: after the reset edge the port is not ready, so the next edge without reset is idle. -/
theorem resetClearsStatusFromAnyState : Obligations.ResetClearsStatusFromAnyState := by
  intro s hr
  refine ⟨_, step_of_reset hr, Status.cleared_word, rfl, rfl, rfl, rfl, ⟨rfl, rfl, rfl, rfl, rfl, rfl, rfl⟩, rfl,
    fun hr' => ?_⟩
  exact ⟨_, step_of_idle hr' rfl rfl, rfl, rfl, Status.cleared_word, rfl, rfl, rfl, rfl, rfl, rfl, rfl, rfl, rfl⟩
/-! ### The latency of an accepted command -/
/-- `s` with the command port and the host's inputs of `p`. -/
def State.withPort (s p : State) : State :=
  { s with inFlight := p.inFlight, cmdReady := p.cmdReady, rspValid := p.rspValid, host := p.host }
/-- No command's effect reads or touches the port. -/
theorem finish_withPort {op : BitVec 8} {r : Except Cause Results} {s t : State} (p : State)
    (h : finish op r s = .next t) : finish op r (s.withPort p) = .next (t.withPort p) := by
  rcases finish_cases op r s with ⟨hm, e⟩ | ⟨hm, res, rfl, e⟩ | ⟨hm, c, rfl, e⟩ <;> cases e.symm.trans h
  · exact finish_faulted (s := s.withPort p) hm
  · exact finish_ok (s := s.withPort p) hm
  · exact finish_error (s := s.withPort p) hm
theorem runCommand_withPort {cw : CommandWord} {s t : State} (p : State) (h : runCommand cw s = .next t) :
    runCommand cw (s.withPort p) = .next (t.withPort p) := by
  rcases runCommand_eq_finish cw with hnop | ⟨_, r, -, -, hfinish⟩
  · cases (hnop s).symm.trans h
    exact hnop _
  · rw [hfinish] at h ⊢
    exact finish_withPort p h
theorem run_of_step {k : Nat} {s t : State} (h : step s = .next t) : core.run (k + 1) s = core.run k t := by
  have hstep : core.step s = .next t := h
  simp [Host.Core.run, hstep]
/-- A run of one step more steps once more. -/
theorem run_succ {k : Nat} {s t : State} (h : core.run k s = .next t) : core.run (k + 1) s = step t := by
  induction k generalizing s with
  | zero =>
    cases h
    obtain ⟨u, hu⟩ := exists_step t
    exact (run_of_step hu).trans hu.symm
  | succ k ih =>
    obtain ⟨u, hu⟩ := exists_step s
    rw [run_of_step hu] at h ⊢
    exact ih h
/-- With no reset among the coming inputs there is none at any of their edges. -/
theorem headD_drop_rst {rest : List PortInput} {n j : Nat} (h : ∀ p ∈ rest.take n, p.rst = false) (hj : j < n) :
    ((rest.drop j).headD idleInput).rst = false := by
  rw [List.headD_eq_head?_getD, List.head?_drop]
  cases hp : rest[j]? with
  | none => rfl
  | some p => exact h p (List.mem_of_getElem? ((List.getElem?_take_of_lt hj).trans hp))
section Accepted

variable {s : State} {cw : CommandWord} {rest : List PortInput} (hf : s.inFlight = none)
  (hready : s.cmdReady = true) (hhost : s.host = { rst := false, cmdValid := true, cmd := cw } :: rest)
include hf hready hhost

/-- The accepting edge is the first of the latency. -/
theorem step_of_presented :
    step s = advance cw (Config.latencyCycles cw - 1) s.passInput := by
  have hin := s.nextInput_cons _ _ hhost
  have haccept := step_of_accepted (s := s) (by rw [hin]) hf (by rw [hin, hready]; rfl)
  rwa [hin] at haccept

omit hf hready in
/-- No edge of the latency after the first has a reset. -/
theorem waitFor_nextInput_rst (hreset : ∀ p ∈ rest.take (Config.latencyCycles cw - 1), p.rst = false) {k : Nat}
    (m : Nat) (h1 : 1 ≤ k) (hk : k < Config.latencyCycles cw) :
    (waitFor cw m { s with host := s.host.drop k }).nextInput.rst = false := by
  obtain ⟨j, rfl⟩ : ∃ j, k = j + 1 := ⟨k - 1, by omega⟩
  rw [hhost]
  exact headD_drop_rst (j := j) hreset (by omega)

/-- Until the last edge of its latency an accepted command only waits. -/
theorem run_of_presented (hreset : ∀ p ∈ rest.take (Config.latencyCycles cw - 1), p.rst = false) {k : Nat}
    (h1 : 1 ≤ k) (hk : k < Config.latencyCycles cw) :
    core.run k s = .next (waitFor cw (Config.latencyCycles cw - k) { s with host := s.host.drop k }) := by
  induction k, h1 using Nat.le_induction with
  | base =>
    rw [run_succ (k := 0) rfl, step_of_presented hf hready hhost, advance, if_neg (by omega)]
    rw [List.drop_one]
    rfl
  | succ k h1 ih =>
    have hwait : Config.latencyCycles cw - k - 1 ≠ 0 := by omega
    rw [run_succ (ih (by omega)), ← List.tail_drop]
    exact (step_of_inFlight (waitFor_nextInput_rst hhost hreset _ h1 (by omega)) (waitFor_inFlight ..)).trans
      (if_neg hwait)

end Accepted

/-- Settles O49: the edges before the last change only the port, and no effect reads the port. -/
theorem acceptedCommandCompletesAfterItsLatency : Obligations.AcceptedCommandCompletesAfterItsLatency := by
  intro s cw rest hf hready hhost hreset
  have waiting {k : Nat} (h1 : 1 ≤ k) (hk : k < Config.latencyCycles cw) :=
    run_of_presented hf hready hhost hreset h1 hk
  refine ⟨?_, fun k h1 hk => waiting h1 hk⟩
  obtain ⟨t, ht⟩ := exists_runCommand cw s
  refine ⟨t, ht, ?_⟩
  obtain ⟨n, hn⟩ : ∃ n, Config.latencyCycles cw = n + 1 := ⟨_, rfl⟩
  rcases Nat.eq_zero_or_pos n with rfl | hpos
  · rw [hn, run_succ (k := 0) rfl, step_of_presented hf hready hhost, hn, List.drop_one]
    exact completeCommand_of_runCommand (runCommand_withPort s.passInput ht)
  · have hlast := waiting hpos (by omega)
    rw [hn, Nat.add_sub_cancel_left] at hlast
    have heffect := runCommand_withPort (waitFor cw 1 { s with host := s.host.drop n }).passInput ht
    rw [hn, run_succ hlast, ← List.tail_drop]
    exact step_of_lastEdge (waitFor_nextInput_rst hhost hreset 1 hpos (by omega)) (waitFor_inFlight ..) heffect

end Sys2Proof.Machine
end

section
/-! SUPPORT. The words on the output ports bit by bit (10_state.md R24, R27, R39, R56) and the codes of the causes
(60_exceptions.md R231), with the two statements these settle. -/

namespace Sys2Proof.Machine

/-! ### The word `STATUS` (R27) -/

theorem Status.word_fault (st : Status) : st.word.getLsbD 0 = st.fault :=
  (getLsbD_append_low _ _ (by omega)).trans (getLsbD_ofBool_zero _)

theorem Status.word_rvalid (st : Status) : st.word.getLsbD 1 = st.rvalid :=
  (getLsbD_append_high _ _ (by omega)).trans <|
    (getLsbD_append_low _ _ (by omega)).trans (getLsbD_ofBool_zero _)

theorem Status.word_reserved (st : Status) : st.word.extractLsb' 2 2 = 0 :=
  (extractLsb'_append_high _ _ (by omega)).trans <| (extractLsb'_append_high _ _ (by omega)).trans
    (extractLsb'_append_low _ _)

theorem Status.word_cause (st : Status) : st.word.extractLsb' 4 4 = st.cause.code :=
  (extractLsb'_append_high _ _ (by omega)).trans <| (extractLsb'_append_high _ _ (by omega)).trans <|
    (extractLsb'_append_high _ _ (by omega)).trans (extractLsb'_append_low _ _)

theorem Status.word_fop (st : Status) : st.word.extractLsb' 8 8 = st.fop :=
  (extractLsb'_append_high _ _ (by omega)).trans <| (extractLsb'_append_high _ _ (by omega)).trans <|
    (extractLsb'_append_high _ _ (by omega)).trans <| (extractLsb'_append_high _ _ (by omega)).trans
    (extractLsb'_whole _)

/-! ### The word `RF` (R24) -/

/-- Eight bits, the first the most significant, and the two hardwired ones above six flags. -/
theorem ResultFlags.word_bits (f : ResultFlags) :
    f.word.getLsbD 0 = f.bool ∧ f.word.getLsbD 1 = f.exact ∧ f.word.getLsbD 2 = f.accept ∧
      f.word.getLsbD 3 = f.vrTz ∧ f.word.getLsbD 4 = f.vmTz ∧ f.word.getLsbD 5 = f.general ∧
      f.word.extractLsb' 6 2 = 0 := by
  rcases f with ⟨_ | _, _ | _, _ | _, _ | _, _ | _, _ | _⟩ <;> decide

/-! ### The port `ob` (R39, R56) -/

theorem packBytes_lt (l : List Byte) : packBytes l < 2 ^ (8 * l.length) := by
  induction l with
  | nil => exact Nat.one_pos
  | cons b l ih =>
    have hb := b.isLt
    rw [packBytes, List.length_cons, Nat.mul_succ, pow_add]
    omega

/-- Byte `k` stands in the eight bits from `8k` on. -/
theorem packBytes_byte (l : List Byte) {k : Nat} (hk : k < l.length) :
    packBytes l / 2 ^ (8 * k) % 2 ^ 8 = (l[k]).toNat := by
  induction l generalizing k with
  | nil => cases hk
  | cons b l ih =>
    have hb := b.isLt
    rw [packBytes]
    cases k with
    | zero =>
      rw [Nat.mul_zero, pow_zero, Nat.div_one, List.getElem_cons_zero]
      omega
    | succ k =>
      have hnext : (b.toNat + 2 ^ 8 * packBytes l) / 2 ^ 8 = packBytes l := by omega
      rw [Nat.mul_succ, pow_add, Nat.mul_comm (2 ^ (8 * k)), ← Nat.div_div_eq_div_mul, hnext, List.getElem_cons_succ]
      exact ih (Nat.lt_of_succ_lt_succ hk)

theorem outputs_ob_byte (s : State) {k : Nat} (hk : k < 24) :
    s.outputs.ob.extractLsb' (8 * k) 8 = s.ob[k] := by
  have hlt : packBytes s.ob.toList < 2 ^ 192 := by simpa using packBytes_lt s.ob.toList
  apply BitVec.eq_of_toNat_eq
  rw [BitVec.extractLsb'_toNat, Nat.shiftRight_eq_div_pow]
  change packBytes s.ob.toList % 2 ^ 192 / 2 ^ (8 * k) % 2 ^ 8 = _
  rw [Nat.mod_eq_of_lt hlt, packBytes_byte _ (by simpa using hk), Vector.getElem_toList]

/-- Settles O46, field by field. -/
theorem outputPortsShowTheRegisters : Obligations.OutputPortsShowTheRegisters := by
  intro s o
  obtain ⟨hbool, hexact, haccept, hvrTz, hvmTz, hgeneral, hzero⟩ := s.rf.word_bits
  exact ⟨s.status.word_fault, s.status.word_rvalid, s.status.word_reserved, s.status.word_cause,
    s.status.word_fop, hbool, hexact, haccept, hvrTz, hvmTz, hgeneral, hzero, fun k hk => outputs_ob_byte s hk⟩

/-- Settles O47: twelve codes in order, so no two causes share one. -/
theorem causeCodesAreTheTable : Obligations.CauseCodesAreTheTable := by
  refine ⟨by decide, fun c d => ?_⟩
  cases c <;> cases d <;> decide

end Sys2Proof.Machine
end

section
/-! SUPPORT. The contract and the ranges of the tables (10_state.md R33, R35), the lanes of `mulShift` (41_primitives.md
R121, R122), the cascade of comparisons (R138), and the logarithms as floors of real numbers (R31, R140, R145),
with the statements these settle. -/

namespace Sys2Proof.Machine

/-! ### The tables (R33, R35) -/

/-- Up to 52 a power of five fits the 121 bits of a table entry. -/
theorem pow5Bits_le_121 {i : Nat} (h : i ≤ 52) : pow5Bits i ≤ 121 := by
  rcases pow5Bits_cases i with ⟨-, h0⟩ | ⟨-, hlow, -⟩
  · omega
  · have hpow : 2 ^ (pow5Bits i - 1) < 2 ^ 121 := by
      calc 2 ^ (pow5Bits i - 1) < 5 ^ i := hlow
        _ ≤ 5 ^ 52 := Nat.pow_le_pow_right (by omega) h
        _ < 2 ^ 121 := by norm_num
    have := exponent_lt_of_pow_lt hpow
    omega

/-- Up to 52 an entry is the power of five itself, with zero bits below it. -/
theorem pow5Rom_exact {i : Nat} (h : i ≤ 52) : pow5Rom i = 5 ^ i * 2 ^ (121 - pow5Bits i) :=
  if_pos (pow5Bits_le_121 h)

/-- Settles O13: the entry is a floor, and from 53 on less than a unit below the quotient. -/
theorem pow5RomContract : Obligations.Pow5RomContract := by
  intro i _
  obtain ⟨hle, hlt⟩ := pow5Rom_spec i
  refine ⟨hle, fun hi => ?_, fun _ => ?_⟩
  · have hbits := pow5Bits_le_121 hi
    rw [pow5Rom_exact hi, Nat.mul_assoc, ← pow_add, Nat.sub_add_cancel hbits]
  · rw [Nat.add_mul] at hlt
    omega

/-- From 1 on a power of five is no power of two, so its entry is below `2^121`. -/
theorem pow5Rom_lt {i : Nat} (h : 1 ≤ i) : pow5Rom i < 2 ^ 121 := by
  obtain ⟨-, -, hlt⟩ := pow5Bits_spec h
  rw [pow5Rom_eq, Nat.div_lt_iff_lt_mul (by positivity), Nat.mul_comm]
  exact Nat.mul_lt_mul_of_pos_left hlt (by positivity)

/-- No power of five up to `5^291` lies so closely above a power of two that its entry would round up to
`2^122`. This is a fact about those numbers alone: a larger power may come that close. -/
theorem pow5InvRom_lt {q : Nat} (h : q ≤ 291) : pow5InvRom q < 2 ^ 122 := by
  have hall : ∀ q < 292, pow5InvRom q < 2 ^ 122 := by decide +kernel
  exact hall q (Nat.lt_succ_of_le h)

/-- The product of a `u64` and an entry below `2^122` fits 192 bits. -/
theorem mul_entry_lt {u m : Nat} (hu : u < 2 ^ 122) (hm : m < 2 ^ 64) : m * u < 2 ^ 192 :=
  (Nat.mul_lt_mul'' hm hu).trans_le (by norm_num)

/-- Settles O14: every entry is below `2^122`. -/
theorem tableEntriesLeaveHeadroom : Obligations.TableEntriesLeaveHeadroom := by
  have hrom (i : Nat) : pow5Rom i < 2 ^ 122 := (pow5Rom_range i).2.trans_lt (by norm_num)
  exact ⟨fun q _ => pow5InvRom_range q, by decide, by decide, fun i h1 _ => ⟨(pow5Rom_range i).1, pow5Rom_lt h1⟩,
    fun i m _ hm => ⟨hrom i, mul_entry_lt (hrom i) hm⟩,
    fun q m hq hm => ⟨pow5InvRom_lt hq, mul_entry_lt (pow5InvRom_lt hq) hm⟩⟩

/-! ### The lanes of `mulShift` (R121, R122) -/

/-- The middle sum has at most one carry. -/
theorem mulShiftMid_lt {m u : Nat} (hm : m < 2 ^ 64) : mulShiftMid m u < 2 ^ 65 := by
  have hlow : m * (u % 2 ^ 64) / 2 ^ 64 ≤ m := by
    refine Nat.div_le_of_le_mul ((Nat.mul_le_mul_left m (Nat.mod_lt u (by positivity)).le).trans_eq ?_)
    exact Nat.mul_comm ..
  have hhigh := Nat.mod_lt (m * (u / 2 ^ 64)) (show 0 < 2 ^ 64 by positivity)
  unfold mulShiftMid
  omega

/-- The carry of the middle sum goes to the high half, so the lanes lose nothing above bit 64. -/
theorem mulShiftSum_eq (m u : Nat) : mulShiftSum m u = m * u / 2 ^ 64 := by
  have hsplit : m * u = m * (u / 2 ^ 64) * 2 ^ 64 + m * (u % 2 ^ 64) := by
    rw [Nat.mul_assoc, ← Nat.mul_add, Nat.div_add_mod']
  rw [hsplit, mulShiftSum, mulShiftMid]
  generalize m * (u / 2 ^ 64) = high
  generalize m * (u % 2 ^ 64) = low
  omega

/-- Settles O16: the sum is the product shifted by 64, and the lanes shift it on. -/
theorem lanesComputeMulShift : Obligations.LanesComputeMulShift := by
  intro m u sh hm hu hlow _
  refine ⟨mulShiftSum_eq m u, mulShiftMid_lt hm, ?_, ?_⟩
  · rw [mulShiftSum_eq, Nat.div_lt_iff_lt_mul (by positivity)]
    exact (Nat.mul_lt_mul'' hm hu).trans_le (by norm_num)
  · rw [mulShiftLanes, mulShiftSum_eq, Nat.div_div_eq_div_mul, ← pow_add, Nat.add_sub_cancel' hlow, mulShift]

/-! ### The cascade of comparisons (R138) -/

/-- Of the first `n` numbers, `min d n` are below `d`. -/
theorem length_filter_lt_range (d n : Nat) : ((List.range n).filter fun k => decide (k < d)).length = min d n := by
  induction n with
  | zero => simp
  | succ n ih =>
    rw [List.range_succ, List.filter_append, List.length_append, ih]
    by_cases h : n < d <;> simp [h] <;> omega

/-- Settles O21: `10^(k+1) ≤ u` says that `u` has more than `k + 1` digits. -/
theorem cascadeIsTheDecimalLength : Obligations.CascadeIsTheDecimalLength := by
  intro u hu
  obtain ⟨hpos, hlt, hcases⟩ := decimalLength_cases (hu.trans (by norm_num))
  have hlen := decimalLength_le hu
  have hreach (k : Nat) : 10 ^ (k + 1) ≤ u ↔ k < decimalLength u - 1 := by
    constructor
    · intro h
      have := (Nat.pow_lt_pow_iff_right (by omega)).1 (h.trans_lt hlt)
      omega
    · intro h
      rcases hcases with ⟨-, hone⟩ | hle
      · omega
      · exact (Nat.pow_le_pow_right (by omega) (by omega)).trans hle
  simp only [decimalLengthCascade, hreach]
  rw [length_filter_lt_range]
  omega

/-! ### The logarithms as real numbers (R31, R140, R145) -/

/-- The floor of a multiple of a logarithm, by the two powers around `x^k`. -/
theorem floor_mul_logb {b x k n : Nat} (hlow : b ^ n ≤ x ^ k) (hhigh : x ^ k < b ^ (n + 1)) :
    ⌊(k : ℝ) * Real.logb b x⌋ = n := by
  rw [← Real.logb_pow, ← Nat.cast_pow, Real.floor_logb_natCast (Nat.cast_nonneg _), Int.log_natCast,
    Nat.log_eq_of_pow_le_of_lt_pow hlow hhigh]

/-- The ceiling of a multiple of a logarithm, by the two powers around `x^k`. -/
theorem ceil_mul_logb {b x k n : Nat} (hb : 1 < b) (hlow : b ^ n < x ^ k) (hhigh : x ^ k ≤ b ^ (n + 1)) :
    ⌈(k : ℝ) * Real.logb b x⌉ = (n : Int) + 1 := by
  have hclog : Nat.clog b (x ^ k) = n + 1 :=
    le_antisymm (Nat.clog_le_of_le_pow hhigh) ((Nat.lt_clog_iff_pow_lt hb).2 hlow)
  rw [← Real.logb_pow, ← Nat.cast_pow, Real.ceil_logb_natCast (Nat.cast_nonneg _), Int.clog_natCast, hclog]
  push_cast
  rfl

/-- `pow5_bits` is the ceiling of R31. -/
theorem pow5Bits_eq_ceil (i : Nat) : (pow5Bits i : Int) = ⌈(i : ℝ) * Real.logb 2 5⌉ := by
  rcases pow5Bits_cases i with ⟨rfl, h0⟩ | ⟨hi, hlow, hhigh⟩
  · simp [h0]
  · have hpos := (pow5Bits_spec hi).1
    have hbits : pow5Bits i - 1 + 1 = pow5Bits i := Nat.sub_add_cancel hpos
    have hceil := ceil_mul_logb (by omega) hlow (hhigh.le.trans_eq (congrArg (2 ^ ·) hbits.symm))
    push_cast at hceil
    rw [hceil]
    omega

/-- The bit length of `5^i` is determined by the two powers of two around it (R31). -/
theorem pow5Bits_eq_iff {i n : Nat} (hi : 1 ≤ i) : pow5Bits i = n ↔ 2 ^ (n - 1) < 5 ^ i ∧ 5 ^ i < 2 ^ n := by
  obtain ⟨hpos, hlow, hhigh⟩ := pow5Bits_spec hi
  constructor
  · rintro rfl
    exact ⟨hlow, hhigh⟩
  · rintro ⟨hlow', hhigh'⟩
    have h1 := exponent_lt_of_pow_lt (hlow.trans hhigh')
    have h2 := exponent_lt_of_pow_lt (hlow'.trans hhigh)
    omega

/-- No power of `b < 10` but the zeroth is a power of ten: `b` lacks one of the factors 2 and 5. -/
theorem pow_ten_ne_pow {b : Nat} (hb : 1 < b) (hb' : b < 10) (q : Nat) {n : Nat} (hn : n ≠ 0) : 10 ^ q ≠ b ^ n := by
  intro h
  have hq : q ≠ 0 := by
    rintro rfl
    exact (Nat.one_lt_pow hn hb).ne h
  have hten : 10 ∣ b ^ n := h ▸ dvd_pow_self 10 hq
  have h2 : 2 ∣ b := Nat.prime_two.dvd_of_dvd_pow (dvd_trans (by norm_num) hten)
  have h5 : 5 ∣ b := Nat.prime_five.dvd_of_dvd_pow (dvd_trans (by norm_num) hten)
  omega

/-- A signed logarithm is the floor of the real one, if its magnitudes are: a negative floor is one further
down, since no power of `b` is a power of ten. -/
theorem signedLog_eq_floor {b : Nat} (hb : 1 < b) (hb' : b < 10) {f : Nat → Nat}
    (hf : ∀ n, 10 ^ f n ≤ b ^ n ∧ b ^ n < 10 ^ (f n + 1)) (e : Int) :
    (if 0 ≤ e then (f e.toNat : Int) else -((f (-e).toNat : Int) + 1)) = ⌊(e : ℝ) * Real.logb 10 b⌋ := by
  split
  case isTrue h =>
    obtain ⟨n, rfl⟩ := Int.eq_ofNat_of_zero_le h
    have hfloor := floor_mul_logb (hf n).1 (hf n).2
    push_cast at hfloor ⊢
    rw [hfloor]
    rfl
  case isFalse h =>
    obtain ⟨n, hn⟩ := Int.eq_ofNat_of_zero_le (show 0 ≤ -e by omega)
    obtain rfl : e = -n := by omega
    have hlow : 10 ^ f n < b ^ n := (hf n).1.lt_of_ne (pow_ten_ne_pow hb hb' _ (by omega))
    have hceil := ceil_mul_logb (by omega) hlow (hf n).2.le
    push_cast at hceil ⊢
    rw [neg_mul, Int.floor_neg, hceil, neg_neg, Int.toNat_natCast]

/-- A logarithm `L` of `x` is reached by exactly the powers of ten that `x` reaches. -/
theorem le_log10_iff {x L q : Nat} (hlow : 10 ^ L ≤ x) (hhigh : x < 10 ^ (L + 1)) : q ≤ L ↔ 10 ^ q ≤ x := by
  constructor
  · intro h
    exact (Nat.pow_le_pow_right (by omega) h).trans hlow
  · intro h
    have := (Nat.pow_lt_pow_iff_right (by omega)).1 (h.trans_lt hhigh)
    omega

theorem log10Pow2_of_nonneg {e : Int} (h : 0 ≤ e) : log10Pow2 e = log10Pow2Nat e.toNat :=
  if_pos h

theorem log10Pow2_of_neg {e : Int} (h : e < 0) : log10Pow2 e = -(log10Pow2 (-e) + 1) := by
  rw [log10Pow2_of_nonneg (show 0 ≤ -e by omega)]
  exact if_neg (by omega)

theorem log10Pow5_of_nonneg {e : Int} (h : 0 ≤ e) : log10Pow5 e = log10Pow5Nat e.toNat :=
  if_pos h

theorem log10Pow5_of_neg {e : Int} (h : e < 0) : log10Pow5 e = -(log10Pow5 (-e) + 1) := by
  rw [log10Pow5_of_nonneg (show 0 ≤ -e by omega)]
  exact if_neg (by omega)

/-- Settles O24: each integer form is pinned between the same two powers as the real one. -/
theorem integerLogarithmsAreRealFloors : Obligations.IntegerLogarithmsAreRealFloors := by
  refine ⟨pow5Bits_eq_ceil, pow5Bits_zero, fun i n hi => pow5Bits_eq_iff hi, fun e _ _ => ⟨?_, ?_, fun h => ?_,
    fun h => ⟨log10Pow2_of_neg h, log10Pow5_of_neg h⟩⟩⟩
  · exact_mod_cast signedLog_eq_floor (b := 2) (by omega) (by omega) log10Pow2Nat_spec e
  · exact_mod_cast signedLog_eq_floor (b := 5) (by omega) (by omega) log10Pow5Nat_spec e
  · rw [log10Pow2_of_nonneg h, log10Pow5_of_nonneg h]
    obtain ⟨hlow2, hhigh2⟩ := log10Pow2Nat_spec e.toNat
    obtain ⟨hlow5, hhigh5⟩ := log10Pow5Nat_spec e.toNat
    exact ⟨Int.natCast_nonneg _, Int.natCast_nonneg _, fun q =>
      ⟨Int.ofNat_le.trans (le_log10_iff hlow2 hhigh2), Int.ofNat_le.trans (le_log10_iff hlow5 hhigh5)⟩⟩

end Sys2Proof.Machine
end

section
/-! SUPPORT. The exact-integer path by the value of its input (42_exact_int.md R160, R162), and the statement
about `EXACTINT` this settles. -/

namespace Sys2Proof.Machine

/-! ### What the path finds (R160) -/

/-- The path finds an integer `N` exactly where the significand is `N` shifted left by as many bits as the
exponent lacks to 1075. -/
theorem exactInt_eq_some_iff {mant exp : Nat} {p : Nat × Nat} (hmant : mant < 2 ^ 52) :
    exactInt mant exp = some p ↔
      ∃ N, (exp ≤ 1075 ∧ N * 2 ^ (1075 - exp) = 2 ^ 52 + mant) ∧ stripZeros 20 N 0 = p := by
  have hfull : mant ||| 1 <<< Config.mantissaBits = 2 ^ 52 + mant := by
    rw [Nat.or_comm, implicitOne_or hmant]
  have hshift : (Config.mantissaBits - ((exp : Int) - Config.bias)).toNat = 1075 - exp := by
    simp only [Config.mantissaBits, Config.bias]
    omega
  simp only [exactInt, hfull, hshift]
  by_cases hexp : exp ≤ 1075
  · have hle : ¬ (exp : Int) - Config.bias > Config.mantissaBits := by
      simp only [Config.mantissaBits, Config.bias]
      omega
    rw [if_neg hle]
    by_cases hdiv : (2 ^ 52 + mant) / 2 ^ (1075 - exp) * 2 ^ (1075 - exp) = 2 ^ 52 + mant
    · rw [if_neg (not_not.2 hdiv), Option.some_inj]
      refine ⟨fun h => ⟨_, ⟨hexp, hdiv⟩, h⟩, ?_⟩
      rintro ⟨N, ⟨-, hN⟩, h⟩
      rwa [← hN, Nat.mul_div_cancel _ (by positivity)]
    · rw [if_pos hdiv]
      refine ⟨fun h => (nomatch h), ?_⟩
      rintro ⟨N, ⟨-, hN⟩, -⟩
      rw [← hN, Nat.mul_div_cancel _ (by positivity)] at hdiv
      exact absurd rfl hdiv
  · have hgt : (exp : Int) - Config.bias > Config.mantissaBits := by
      simp only [Config.mantissaBits, Config.bias]
      omega
    rw [if_pos hgt]
    exact ⟨fun h => (nomatch h), fun ⟨_, ⟨h, _⟩, _⟩ => absurd h hexp⟩

/-! ### The value of an input (R171) -/

/-- A normal input with at most 1075 in its exponent is a quotient. -/
theorem inputValue_of_le {mant exp : Nat} (h0 : exp ≠ 0) (h : exp ≤ 1075) :
    inputValue mant exp = ((2 ^ 52 + mant : Nat) : ℚ) / 2 ^ (1075 - exp) := by
  rw [inputValue, if_neg h0, show (exp : Int) - 1075 = -((1075 - exp : Nat) : Int) by omega, zpow_neg,
    zpow_natCast, div_eq_mul_inv]

/-- An input with more in its exponent is at least `2^53`. -/
theorem le_inputValue_of_lt {mant exp : Nat} (h : 1075 < exp) : (2 ^ 53 : ℚ) ≤ inputValue mant exp := by
  obtain ⟨k, rfl⟩ : ∃ k, exp = 1076 + k := ⟨exp - 1076, by omega⟩
  rw [inputValue, if_neg (by omega), show ((1076 + k : Nat) : Int) - 1075 = ((k + 1 : Nat) : Int) by omega,
    zpow_natCast]
  have hnat : 2 ^ 52 * 2 ^ 1 ≤ (2 ^ 52 + mant) * 2 ^ (k + 1) :=
    Nat.mul_le_mul (Nat.le_add_right ..) (Nat.pow_le_pow_right (by omega) (by omega))
  exact_mod_cast hnat

/-- A subnormal input is below 1. -/
theorem inputValue_subnormal_lt {mant : Nat} (h : mant < 2 ^ 52) : inputValue mant 0 < 1 := by
  have hpow : (2 ^ 52 : ℚ) ≤ 2 ^ 1074 := pow_le_pow_right₀ (by norm_num) (by omega)
  have hmant : (mant : ℚ) < 2 ^ 52 := by exact_mod_cast h
  rw [inputValue, if_pos rfl, zpow_neg, ← div_eq_mul_inv, div_lt_one (by positivity)]
  exact hmant.trans_le hpow

/-- The inputs with an integer below `2^53` as their value, by their fields. -/
theorem inputValue_eq_iff {mant exp N : Nat} (hmant : mant < 2 ^ 52) (h1 : 1 ≤ N) (hN : N < 2 ^ 53) :
    inputValue mant exp = N ↔ exp ≤ 1075 ∧ N * 2 ^ (1075 - exp) = 2 ^ 52 + mant := by
  have hlow : (1 : ℚ) ≤ N := by exact_mod_cast h1
  have hhigh : (N : ℚ) < 2 ^ 53 := by exact_mod_cast hN
  rcases Nat.eq_zero_or_pos exp with rfl | hpos
  · have hsmall : 2 ^ 52 + mant < 2 ^ 53 := by omega
    have hpow {k : Nat} (hk : 53 ≤ k) : 2 ^ 53 ≤ 2 ^ k := Nat.pow_le_pow_right (by omega) hk
    refine ⟨fun h => absurd (inputValue_subnormal_lt hmant) (by rw [h]; exact not_lt.2 hlow), fun ⟨_, h⟩ => ?_⟩
    have hbig : 2 ^ (1075 - 0) ≤ N * 2 ^ (1075 - 0) := Nat.le_mul_of_pos_left _ h1
    exact absurd ((hpow (by norm_num)).trans (hbig.trans_eq h)) (not_le.2 hsmall)
  · by_cases hexp : exp ≤ 1075
    · rw [inputValue_of_le (by omega) hexp, div_eq_iff (by positivity)]
      refine ⟨fun h => ⟨hexp, ?_⟩, fun ⟨_, h⟩ => ?_⟩
      · exact_mod_cast h.symm
      · exact_mod_cast h.symm
    · refine ⟨fun h => absurd (le_inputValue_of_lt (mant := mant) (not_le.1 hexp)) (by rw [h]; exact not_le.2 hhigh),
        fun ⟨h, _⟩ => absurd h hexp⟩

/-- An integer that the path finds is at least 1 and below `2^53`. -/
theorem exactInteger_bounds {mant k N : Nat} (hmant : mant < 2 ^ 52) (h : N * 2 ^ k = 2 ^ 52 + mant) :
    1 ≤ N ∧ N < 2 ^ 53 := by
  refine ⟨Nat.one_le_iff_ne_zero.2 fun h0 => ?_, ?_⟩
  · rw [h0, Nat.zero_mul] at h
    omega
  · have := Nat.le_mul_of_pos_right N (show 0 < 2 ^ k by positivity)
    omega

/-! ### The statement about `EXACTINT` -/

/-- Settles O25: the fields of an integer below `2^53` are those the path finds. -/
theorem exactintFindsIntegersBelow2Pow53 : Obligations.ExactintFindsIntegersBelow2Pow53 := by
  refine ⟨selects_opcode .exactint, fun mant exp s hs =>
    ⟨fun hin => ⟨fun N h1 hN hvalue => ?_, fun hnone => ?_⟩,
      fun hout => finish_faults hs (convCheck_outside hout _)⟩⟩
  · have hfound := (exactInt_eq_some_iff hin.1).2 ⟨N, (inputValue_eq_iff hin.1 h1 hN).1 hvalue, rfl⟩
    obtain ⟨-, hkeep, hlast⟩ := stripZeros_spec 20 N 0 (by omega) (hN.trans (by norm_num))
    refine ⟨_, _, _, exec_exactint_some hin hs hfound, ?_, hkeep, hlast⟩
    rw [Nat.sub_zero, ← BitVec.ofInt_natCast]
    exact completedWith_writeResults s (by simp)
  · refine ⟨_, exec_exactint_none hin hs ?_, completedWith_writeResults s (by simp)⟩
    refine Option.eq_none_iff_forall_ne_some.2 fun p hp => ?_
    obtain ⟨N, hN, -⟩ := (exactInt_eq_some_iff hin.1).1 hp
    obtain ⟨h1, hlt⟩ := exactInteger_bounds hin.1 hN.2
    exact hnone N h1 hlt ((inputValue_eq_iff hin.1 h1 hlt).2 hN)

end Sys2Proof.Machine
end

section
/-! SUPPORT. The scaling of Step 3 in closed form on both branches, its ranges, and where it is exact
(43_shortest.md R171 to R184), and the statements about `INTERVAL` this settles. -/

namespace Sys2Proof.Machine

/-! ### The scaling in closed form (R174, R177) -/

theorem iverson_decide (p : Prop) [Decidable p] : iverson (decide p) = if p then 1 else 0 := by
  by_cases h : p <;> simp [iverson, h]

/-- The decimal quotient `q` of the positive branch, for `e2 = n`. -/
abbrev posQ (n : Nat) : Nat := log10Pow2Nat n - if n > 3 then 1 else 0

/-- The decimal quotient `q` of the negative branch, for `e2 = -n`. -/
abbrev negQ (n : Nat) : Nat := log10Pow5Nat n - if n > 1 then 1 else 0

theorem scalingPos_eq (n : Nat) : scalingPos n =
    { q := posQ n, e10 := posQ n, mul := pow5InvRom (posQ n),
      sh := posQ n + (122 + pow5Bits (posQ n) - 1) - n } := by
  simp only [scalingPos, posQ, iverson_decide, Config.pow5InvBits, Scaling.mk.injEq, true_and]
  omega

theorem scalingNeg_eq (n : Nat) : scalingNeg n =
    { q := negQ n, e10 := (negQ n : Int) - n, mul := pow5Rom (n - negQ n),
      sh := negQ n + 121 - pow5Bits (n - negQ n) } := by
  simp only [scalingNeg, negQ, iverson_decide, Config.pow5EntryBits, Scaling.mk.injEq, true_and]
  omega

/-- The magnitude of a negative binary exponent, where a subnormal input has that of the least normal one. -/
abbrev negN (exp : Nat) : Nat := if exp = 0 then 1076 else 1077 - exp

theorem exponent2_pos {exp : Nat} (h : 1077 ≤ exp) : exponent2 exp = (exp - 1077 : Nat) := by
  rw [exponent2, if_neg (by omega)]
  simp only [Config.bias, Config.mantissaBits]
  omega

theorem exponent2_neg {exp : Nat} (h : exp < 1077) : exponent2 exp = -(negN exp : Int) := by
  unfold exponent2
  split <;> simp only [Config.bias, Config.mantissaBits, *] <;> omega

theorem negN_bounds {exp : Nat} (h : exp < 1077) : 1 ≤ negN exp ∧ negN exp ≤ 1076 := by
  unfold negN
  split <;> omega

theorem scalingOf_exponent2_pos {exp : Nat} (h : 1077 ≤ exp) :
    scalingOf (exponent2 exp) = scalingPos (exp - 1077) := by
  rw [exponent2_pos h, scalingOf, if_pos (Int.natCast_nonneg _), Int.toNat_natCast]

theorem scalingOf_exponent2_neg {exp : Nat} (h : exp < 1077) :
    scalingOf (exponent2 exp) = scalingNeg (negN exp) := by
  have hpos := (negN_bounds h).1
  rw [exponent2_neg h, scalingOf, if_neg (by omega), neg_neg, Int.toNat_natCast]

/-! ### The trailing-zero rules (R176, R179) -/

theorem mvOf_bounds {mant : U64} {exp : Word32} (h : FiniteNonZero mant exp) :
    mvOf mant.toNat exp.toNat ≠ 0 ∧ mmOf mant.toNat exp.toNat ≠ 0 ∧ mvOf mant.toNat exp.toNat + 2 < 2 ^ 55 := by
  have hlow := (mantissa2_range h.1 h.2.2).1
  have hshift := mmShift_le mant.toNat exp.toNat
  have hmp := (stepThreeOperands_bounds h).2.2.1
  unfold mpOf at hmp
  unfold mmOf
  unfold mvOf at *
  omega

/-- The rules of the positive branch, with divisibility in the place of the detectors. -/
theorem trailingZerosPos_eq {mant : U64} {exp : Word32} (h : FiniteNonZero mant exp) (q : Nat) :
    trailingZerosPos mant.toNat exp.toNat q =
      { vrTz := decide (q ≤ 21 ∧ mvOf mant.toNat exp.toNat % 5 = 0 ∧ 5 ^ q ∣ mvOf mant.toNat exp.toNat)
        vmTz := decide (q ≤ 21 ∧ mvOf mant.toNat exp.toNat % 5 ≠ 0 ∧
          acceptBounds mant.toNat exp.toNat = true ∧ 5 ^ q ∣ mmOf mant.toNat exp.toNat)
        decVp := decide (q ≤ 21 ∧ mvOf mant.toNat exp.toNat % 5 ≠ 0 ∧
          acceptBounds mant.toNat exp.toNat = false ∧ 5 ^ q ∣ mvOf mant.toNat exp.toNat + 2) } := by
  obtain ⟨hmv, hmm, hmp⟩ := mvOf_bounds h
  have hle : mmOf mant.toNat exp.toNat ≤ mvOf mant.toNat exp.toNat := (stepThreeOperands_bounds h).1
  have detect {v : Nat} (h0 : v ≠ 0) (hv : v < 2 ^ 55) : multipleOfPow5 v q = decide (5 ^ q ∣ v) :=
    Bool.eq_iff_iff.2 ((multipleOfPow5_iff h0 (hv.trans (by norm_num)) q).trans decide_eq_true_iff.symm)
  unfold trailingZerosPos mpOf
  rw [detect hmv (by omega), detect hmm (by omega), detect (by omega) hmp]
  by_cases hq : q ≤ 21
  · by_cases h5 : mvOf mant.toNat exp.toNat % 5 = 0
    · simp [hq, h5]
    · cases hacc : acceptBounds mant.toNat exp.toNat <;> simp [hq, h5]
  · simp [hq]

/-- The rules of the negative branch, with divisibility in the place of the detector. -/
theorem trailingZerosNeg_eq (mant exp q : Nat) :
    trailingZerosNeg mant exp q =
      { vrTz := decide (q ≤ 1 ∨ q < 63 ∧ 2 ^ (q - 1) ∣ mvOf mant exp)
        vmTz := decide (q ≤ 1 ∧ acceptBounds mant exp = true ∧ mmShift mant exp = 1)
        decVp := decide (q ≤ 1 ∧ acceptBounds mant exp = false) } := by
  unfold trailingZerosNeg
  by_cases h1 : q ≤ 1
  · cases hacc : acceptBounds mant exp <;> simp [h1, beq_eq_decide]
  · by_cases h63 : q < 63
    · have detect : multipleOfPow2 (mvOf mant exp) (q - 1) = decide (2 ^ (q - 1) ∣ mvOf mant exp) :=
        Bool.eq_iff_iff.2 ((multipleOfPow2_iff (by omega)).trans decide_eq_true_iff.symm)
      simp [h1, h63, detect]
    · simp [h1, h63]

theorem trailingZerosOf_pos {mant exp : Nat} (h : 1077 ≤ exp) :
    trailingZerosOf mant exp = trailingZerosPos mant exp (posQ (exp - 1077)) := by
  rw [trailingZerosOf, scalingOf_exponent2_pos h, exponent2_pos h, scalingPos_eq]
  exact if_pos (Int.natCast_nonneg _)

theorem trailingZerosOf_neg {mant exp : Nat} (h : exp < 1077) :
    trailingZerosOf mant exp = trailingZerosNeg mant exp (negQ (negN exp)) := by
  have hpos := (negN_bounds h).1
  rw [trailingZerosOf, scalingOf_exponent2_neg h, exponent2_neg h, scalingNeg_eq]
  exact if_neg (by omega)

/-! ### The registers of `INTERVAL` -/

/-- The scaled upper end, less the decrement of the trailing-zero rules. -/
theorem interval_vp {mant : U64} {exp : Word32} (h : FiniteNonZero mant exp) :
    (interval mant.toNat exp.toNat).vp = scaled exp.toNat (mvOf mant.toNat exp.toNat + 2) -
      iverson (trailingZerosOf mant.toNat exp.toNat).decVp := by
  have hexact := (mulShift_exact (scalingOf_ok (exponent2 exp.toNat)) (stepThreeOperands_bounds h).2.2.1).1
  exact congrArg (· - _) hexact

/-- No scaled end of the interval needs more than 64 bits (R125). -/
theorem scaled_mp_lt {mant : U64} {exp : Word32} (h : FiniteNonZero mant exp) :
    scaled exp.toNat (mvOf mant.toNat exp.toNat + 2) < 2 ^ 63 :=
  (mulShift_exact (scalingOf_ok _) (stepThreeOperands_bounds h).2.2.1).2

theorem mvOf_normal {mant : U64} {exp : Word32} (h : FiniteNonZero mant exp) (h0 : exp.toNat ≠ 0) :
    mvOf mant.toNat exp.toNat = 4 * (2 ^ 52 + mant.toNat) := by
  rw [mvOf, mantissa2_normal h.1 h0]

theorem mantissa2_eq_ite {mant : U64} {exp : Word32} (h : FiniteNonZero mant exp) :
    mantissa2 mant.toNat exp.toNat = if exp.toNat = 0 then mant.toNat else 2 ^ 52 + mant.toNat := by
  split
  case isTrue h0 => exact if_pos h0
  case isFalse h0 => exact mantissa2_normal h.1 h0

theorem mmShift_eq_ite (mant exp : Nat) : mmShift mant exp = if mant ≠ 0 ∨ exp ≤ 1 then 1 else 0 := by
  unfold mmShift iverson
  simp

theorem acceptBounds_eq (mant exp : Nat) : acceptBounds mant exp = decide (mantissa2 mant exp % 2 = 0) :=
  beq_eq_decide ..

/-- `INTERVAL` writes the result of Steps 1 to 3, whatever form that is given in. -/
theorem interval_completes {mant : U64} {exp : Word32} {s : State} {iv : IntervalResult}
    (h : FiniteNonZero mant exp) (hs : s.mode = .ready) (hiv : interval mant.toNat exp.toNat = iv) :
    ∃ t, exec (.interval mant exp) s = .next t ∧ s.CompletedWith t (intervalRegisters iv) := by
  subst hiv
  exact ⟨_, exec_interval_inside h hs, completedWith_writeResults s (by simp)⟩

/-- An interval by its fields, with the scaling and the trailing-zero flags as the branch gives them. -/
theorem interval_eq {mant : U64} {exp : Word32} (h : FiniteNonZero mant exp) {sc : Scaling} {tzs : TrailingZeros}
    (hsc : scalingOf (exponent2 exp.toNat) = sc) (htzs : trailingZerosOf mant.toNat exp.toNat = tzs) :
    interval mant.toNat exp.toNat =
      { vr := mvOf mant.toNat exp.toNat * sc.mul / 2 ^ sc.sh
        vp := (mvOf mant.toNat exp.toNat + 2) * sc.mul / 2 ^ sc.sh - iverson tzs.decVp
        vm := mmOf mant.toNat exp.toNat * sc.mul / 2 ^ sc.sh
        e10 := sc.e10, accept := acceptBounds mant.toNat exp.toNat, vrTz := tzs.vrTz, vmTz := tzs.vmTz } := by
  have hvp := interval_vp h
  have hvr := (interval_vr h).1
  have hvm := interval_vm h
  rw [htzs] at hvp
  rw [scaled, hsc] at hvr hvm hvp
  rw [← hvr, ← hvp, ← hvm, ← hsc, ← htzs]
  rfl

/-- Settles O27: the registers hold the closed form of Steps 1 to 3, which needs no more than their widths. -/
theorem intervalOnThePositiveBranch : Obligations.IntervalOnThePositiveBranch := by
  refine ⟨selects_opcode .interval, fun mant exp s hs hin hexp => ?_⟩
  have hmv := mvOf_normal hin (by omega)
  have hmm : mmOf mant.toNat exp.toNat = 4 * (2 ^ 52 + mant.toNat) - 1 - if mant.toNat = 0 then 0 else 1 := by
    rw [mmOf, hmv, mmShift_eq_ite]
    split <;> split <;> omega
  have haccept : acceptBounds mant.toNat exp.toNat = decide (mant.toNat % 2 = 0) := by
    rw [acceptBounds_eq, mantissa2_normal hin.1 (by omega)]
    exact decide_eq_decide.2 (by omega)
  have hscaling := (scalingOf_exponent2_pos hexp).trans (scalingPos_eq _)
  have hzeros := (trailingZerosOf_pos hexp).trans (trailingZerosPos_eq hin _)
  have hiv := interval_eq hin hscaling hzeros
  have hlt := (scaled_mp_lt hin).trans (show 2 ^ 63 < 2 ^ 64 by norm_num)
  rw [scaled, hscaling] at hlt
  dsimp only at hiv hlt
  rw [iverson_decide] at hiv
  rw [hmv, hmm, haccept] at hiv
  rw [hmv] at hlt
  obtain ⟨hlow, hhigh⟩ := log10Pow2Nat_spec (exp.toNat - 1077)
  obtain ⟨t, ht, hres⟩ := interval_completes hin hs hiv
  simp only [intervalRegisters, zext64, sext32, intervalFlags] at hres
  exact ⟨t, _, hlow, hhigh, hlt, ht, hres⟩

/-- Settles O28: as on the positive branch, with the significand and the shift of a subnormal input told apart. -/
theorem intervalOnTheNegativeBranch : Obligations.IntervalOnTheNegativeBranch := by
  intro mant exp s hs hin hexp
  have hmv : mvOf mant.toNat exp.toNat = 4 * if exp.toNat = 0 then mant.toNat else 2 ^ 52 + mant.toNat := by
    rw [mvOf, mantissa2_eq_ite hin]
  have haccept := acceptBounds_eq mant.toNat exp.toNat
  rw [mantissa2_eq_ite hin] at haccept
  have hscaling := (scalingOf_exponent2_neg hexp).trans (scalingNeg_eq _)
  have hzeros := (trailingZerosOf_neg (mant := mant.toNat) hexp).trans (trailingZerosNeg_eq ..)
  have hiv := interval_eq hin hscaling hzeros
  have hlt := (scaled_mp_lt hin).trans (show 2 ^ 63 < 2 ^ 64 by norm_num)
  have hq : negQ (negN exp.toNat) < negN exp.toNat := by
    have hq := (scalingNeg_q (negN_bounds hexp).1).1
    rwa [scalingNeg_eq] at hq
  rw [scaled, hscaling] at hlt
  dsimp only at hiv hlt
  rw [iverson_decide, mmOf, hmv, mmShift_eq_ite, haccept] at hiv
  rw [hmv] at hlt
  obtain ⟨hlow, hhigh⟩ := log10Pow5Nat_spec (negN exp.toNat)
  obtain ⟨t, ht, hres⟩ := interval_completes hin hs hiv
  simp only [intervalRegisters, zext64, sext32, intervalFlags] at hres
  exact ⟨t, _, hlow, hhigh, hq, hlt, ht, hres⟩

/-! ### The ranges of the scaling (R182) -/

/-- In the positive branch `10^(q+1) ≤ 2^n < 10^(q+2)`, but for `n ≤ 3`. -/
theorem posQ_cases (n : Nat) :
    n ≤ 3 ∧ posQ n = 0 ∨ 3 < n ∧ 10 * 10 ^ posQ n ≤ 2 ^ n ∧ 2 ^ n < 100 * 10 ^ posQ n := by
  obtain ⟨hlow, hhigh⟩ := log10Pow2Nat_spec n
  rcases Nat.lt_or_ge 3 n with h | h
  · have h16 : 2 ^ 4 ≤ 2 ^ n := Nat.pow_le_pow_right (by omega) h
    have hne : log10Pow2Nat n ≠ 0 := by
      intro h0
      rw [h0] at hhigh
      omega
    have hq : log10Pow2Nat n = posQ n + 1 := by
      rw [posQ, if_pos h]
      omega
    rw [hq] at hlow hhigh
    refine .inr ⟨h, by rwa [← pow_succ'], hhigh.trans_eq ?_⟩
    ring
  · have h8 : 2 ^ n ≤ 2 ^ 3 := Nat.pow_le_pow_right (by omega) h
    have h0 : 10 ^ log10Pow2Nat n < 10 ^ 1 := by omega
    have := (Nat.pow_lt_pow_iff_right (by omega)).1 h0
    exact .inl ⟨h, by rw [posQ]; omega⟩

/-- In the negative branch `10^(q+1) ≤ 5^n < 10^(q+2)`, but for `n = 1`. -/
theorem negQ_cases {n : Nat} (hn : 1 ≤ n) :
    negQ n < n ∧ (n = 1 ∧ negQ n = 0 ∨ 1 < n ∧ 10 * 10 ^ negQ n ≤ 5 ^ n ∧ 5 ^ n < 100 * 10 ^ negQ n) := by
  have h := scalingNeg_q hn
  rwa [scalingNeg_eq] at h

/-- A quotient on the positive branch is less than the number of digits of `2^n`, less one. -/
theorem posQ_le {n k : Nat} (h : 2 ^ n < 10 ^ (k + 2)) : posQ n ≤ k := by
  rcases posQ_cases n with ⟨-, h0⟩ | ⟨-, hlow, -⟩
  · omega
  · rw [← pow_succ'] at hlow
    have := (Nat.pow_lt_pow_iff_right (by omega)).1 (hlow.trans_lt h)
    omega

/-- A quotient on the negative branch is less than the number of digits of `5^n`, less one. -/
theorem negQ_le {n k : Nat} (hn : 1 ≤ n) (h : 5 ^ n < 10 ^ (k + 2)) : negQ n ≤ k := by
  obtain ⟨-, ⟨-, h0⟩ | ⟨-, hlow, -⟩⟩ := negQ_cases hn
  · omega
  · rw [← pow_succ'] at hlow
    have := (Nat.pow_lt_pow_iff_right (by omega)).1 (hlow.trans_lt h)
    omega

/-- The table index `n - q` of the negative branch is at most one more than the digits of `2^n`: it is about the
logarithm of `10^n / 5^n`. -/
theorem sub_negQ_le {n k : Nat} (hn : 1 ≤ n) (h : 2 ^ n < 10 ^ k) : n - negQ n ≤ k + 1 := by
  obtain ⟨-, ⟨rfl, -⟩ | ⟨-, -, hhigh⟩⟩ := negQ_cases hn
  · omega
  · have hpow : 10 ^ n < 10 ^ (negQ n + 2 + k) := by
      calc 10 ^ n = 5 ^ n * 2 ^ n := (Nat.mul_pow 5 2 n)
        _ < 100 * 10 ^ negQ n * 10 ^ k := Nat.mul_lt_mul'' hhigh h
        _ = 10 ^ (negQ n + 2 + k) := by ring
    have := (Nat.pow_lt_pow_iff_right (by omega)).1 hpow
    omega

/-- The shift of the positive branch is at least 115: `2^n` is below `128 * 2^(q + pow5_bits(q))`. -/
theorem scalingPos_sh_ge (n : Nat) : 115 ≤ (scalingPos n).sh := by
  rw [scalingPos_eq]
  dsimp only
  rcases posQ_cases n with ⟨h3, h0⟩ | ⟨-, -, hhigh⟩
  · rw [h0, pow5Bits_zero]
    omega
  · have hpow : 2 ^ n < 2 ^ (posQ n + pow5Bits (posQ n) + 7) := by
      calc 2 ^ n < 128 * 10 ^ posQ n := by omega
        _ = 128 * (2 ^ posQ n * 5 ^ posQ n) := by rw [← Nat.mul_pow]
        _ ≤ 128 * (2 ^ posQ n * 2 ^ pow5Bits (posQ n)) :=
          Nat.mul_le_mul_left _ (Nat.mul_le_mul_left _ (pow5Bits_bounds _).2)
        _ = 2 ^ (posQ n + pow5Bits (posQ n) + 7) := by ring
    have := exponent_lt_of_pow_lt hpow
    omega

/-- The shift of the negative branch is at most 118: `8 * 2^q` is below `5^(n-q)`. -/
theorem scalingNeg_sh_le {n : Nat} (hn : 1 ≤ n) : (scalingNeg n).sh ≤ 118 := by
  rw [scalingNeg_eq]
  dsimp only
  obtain ⟨hlt, ⟨rfl, h0⟩ | ⟨-, hlow, -⟩⟩ := negQ_cases hn
  · rw [h0]
    decide
  · have hsplit : 5 ^ n = 5 ^ negQ n * 5 ^ (n - negQ n) := by
      rw [← pow_add, Nat.add_sub_cancel' hlt.le]
    have hfive : 10 * 2 ^ negQ n ≤ 5 ^ (n - negQ n) := by
      refine Nat.le_of_mul_le_mul_left ?_ (show 0 < 5 ^ negQ n by positivity)
      calc 5 ^ negQ n * (10 * 2 ^ negQ n) = 10 * 10 ^ negQ n := by
            rw [show (10 : Nat) ^ negQ n = 5 ^ negQ n * 2 ^ negQ n from Nat.mul_pow 5 2 _]
            ring
        _ ≤ 5 ^ negQ n * 5 ^ (n - negQ n) := hsplit ▸ hlow
    have hpow : 2 ^ (negQ n + 3) < 2 ^ pow5Bits (n - negQ n) := by
      have hpos : 0 < 2 ^ negQ n := by positivity
      calc 2 ^ (negQ n + 3) = 8 * 2 ^ negQ n := by ring
        _ < 5 ^ (n - negQ n) := by omega
        _ ≤ 2 ^ pow5Bits (n - negQ n) := (pow5Bits_bounds _).2
    have := exponent_lt_of_pow_lt hpow
    omega

/-- No scale of an exponent exceeds `2^7`, on either branch. -/
theorem scalingOf_mul_le (e2 : Int) : (scalingOf e2).mul ≤ 2 ^ 7 * 2 ^ (scalingOf e2).sh := by
  have bound {u sh a b : Nat} (hu : u ≤ 2 ^ a) (hab : a ≤ 7 + b) (hsh : b ≤ sh) : u ≤ 2 ^ 7 * 2 ^ sh := by
    rw [← pow_add]
    exact hu.trans (Nat.pow_le_pow_right (by omega) (by omega))
  unfold scalingOf
  split
  · exact bound (b := 115) (pow5InvRom_range _).2 (by omega) (scalingPos_sh_ge _)
  · exact bound (b := 114) (pow5Rom_range _).2 (by omega) (scalingNeg_ok (by omega)).shMin

/-- An operand below `2^55` is scaled to less than `2^62`. -/
theorem scaled_lt {exp m : Nat} (h : m < 2 ^ 55) : scaled exp m < 2 ^ 62 := by
  have hle := scalingOf_mul_le (exponent2 exp)
  have hpos : 0 < (scalingOf (exponent2 exp)).mul :=
    lt_of_lt_of_le (by positivity) (scalingOf_ok (exponent2 exp)).scale
  rw [scaled, Nat.div_lt_iff_lt_mul (by positivity)]
  calc m * _ < 2 ^ 55 * (scalingOf (exponent2 exp)).mul := Nat.mul_lt_mul_of_pos_right h hpos
    _ ≤ 2 ^ 55 * (2 ^ 7 * 2 ^ (scalingOf (exponent2 exp)).sh) := Nat.mul_le_mul_left _ hle
    _ = _ := by ring

/-- The interval is in order, with its lower end at least 1 and its upper end below `2^62` (R182). -/
theorem interval_order {mant : U64} {exp : Word32} (h : FiniteNonZero mant exp) :
    1 ≤ (interval mant.toNat exp.toNat).vm ∧
      (interval mant.toNat exp.toNat).vm ≤ (interval mant.toNat exp.toNat).vr ∧
      (interval mant.toNat exp.toNat).vr < (interval mant.toNat exp.toNat).vp ∧
      (interval mant.toNat exp.toNat).vp < 2 ^ 62 := by
  have hup : scaled exp.toNat (mvOf mant.toNat exp.toNat) + 2 ≤ scaled exp.toNat (mpOf mant.toNat exp.toNat) :=
    scaled_add_le (scalingOf_ok _) _ 2
  have hmp := scaled_mp_le h
  refine ⟨interval_vm_pos h, interval_vm_le_vr h, by rw [(interval_vr h).1]; omega, ?_⟩
  rw [interval_vp h]
  exact (Nat.sub_le ..).trans_lt (scaled_lt (mvOf_bounds h).2.2)

/-- The quotient of the positive branch on the conversion domain. -/
theorem posQ_le_290 {n : Nat} (h : n ≤ 969) : posQ n ≤ 290 :=
  posQ_le ((Nat.pow_le_pow_right (by omega) h).trans_lt (by decide +kernel))

/-- The quotient and the table index of the negative branch on the conversion domain. -/
theorem negQ_range {n : Nat} (h1 : 1 ≤ n) (h : n ≤ 1076) :
    negQ n ≤ 751 ∧ negQ n < n ∧ n - negQ n ≤ 325 :=
  ⟨negQ_le h1 ((Nat.pow_le_pow_right (by omega) h).trans_lt (by decide +kernel)), (negQ_cases h1).1,
    sub_negQ_le h1 ((Nat.pow_le_pow_right (by omega) h).trans_lt (by decide +kernel))⟩

theorem interval_e10 {mant exp : Nat} : (interval mant exp).e10 = (scalingOf (exponent2 exp)).e10 := rfl

/-- The decimal exponents on the conversion domain. -/
theorem interval_e10_range {mant exp : Nat} (h : exp < 2047) :
    -325 ≤ (interval mant exp).e10 ∧ (interval mant exp).e10 ≤ 290 := by
  rw [interval_e10]
  rcases Nat.lt_or_ge exp 1077 with hexp | hexp
  · obtain ⟨h1, hn⟩ := negN_bounds hexp
    obtain ⟨-, hlt, hindex⟩ := negQ_range h1 hn
    rw [scalingOf_exponent2_neg hexp, scalingNeg_eq]
    dsimp only
    omega
  · have hq := posQ_le_290 (n := exp - 1077) (by omega)
    rw [scalingOf_exponent2_pos hexp, scalingPos_eq]
    dsimp only
    omega

/-- The registers hold an interval's fields unchanged, if these are in range. -/
theorem toNat_zext64 {v : Nat} (h : v < 2 ^ 64) : (zext64 v).toNat = v :=
  Nat.mod_eq_of_lt h

theorem toInt_sext32 {e : Int} (hlow : -2 ^ 31 ≤ e) (hhigh : e < 2 ^ 31) : (sext32 e).toInt = e :=
  BitVec.toInt_ofInt_eq_self (by omega) hlow hhigh

/-- No index or shift leaves its range on the positive branch. -/
theorem scalingPos_range {n : Nat} (h : n ≤ 969) :
    (scalingPos n).q ≤ 290 ∧ 115 ≤ (scalingPos n).sh ∧ (scalingPos n).sh ≤ 121 ∧
      (scalingPos n).mul = pow5InvRom (scalingPos n).q := by
  refine ⟨?_, scalingPos_sh_ge n, (scalingPos_ok n).shMax, rfl⟩
  rw [scalingPos_eq]
  exact posQ_le_290 h

/-- No index or shift leaves its range on the negative branch. -/
theorem scalingNeg_range {n : Nat} (h1 : 1 ≤ n) (h : n ≤ 1076) :
    (scalingNeg n).q ≤ 751 ∧ 114 ≤ (scalingNeg n).sh ∧ (scalingNeg n).sh ≤ 118 ∧
      ∃ i : Nat, (i : Int) = n - (scalingNeg n).q ∧ 1 ≤ i ∧ i ≤ 325 ∧ (scalingNeg n).mul = pow5Rom i := by
  refine ⟨?_, (scalingNeg_ok h1).shMin, scalingNeg_sh_le h1, ?_⟩ <;> rw [scalingNeg_eq] <;>
    obtain ⟨hq, hlt, hindex⟩ := negQ_range h1 h
  · exact hq
  · exact ⟨n - negQ n, Nat.cast_sub hlt.le, Nat.sub_pos_of_lt hlt, hindex, rfl⟩

/-- Settles O29: the decrement of `vp` takes one of the at least two units by which `mp` exceeds `mv`. -/
theorem intervalStaysInRange : Obligations.IntervalStaysInRange := by
  intro mant exp s hs hin
  refine ⟨⟨_, exec_interval_inside hin hs, ?_⟩, ?_⟩
  · obtain ⟨h1, hmr, hrp, hp⟩ := interval_order hin
    obtain ⟨hlow, hhigh⟩ := interval_e10_range (mant := mant.toNat) hin.2.1
    simp only [writeResults_v0, writeResults_v1, writeResults_v2, writeResults_re]
    rw [toNat_zext64 (by omega), toNat_zext64 (by omega), toNat_zext64 (by omega),
      toInt_sext32 (by omega) (by omega)]
    omega
  · dsimp only
    rcases Nat.lt_or_ge exp.toNat 1077 with hexp | hexp
    · obtain ⟨h1, hn⟩ := negN_bounds hexp
      rw [scalingOf_exponent2_neg hexp, exponent2_neg hexp, neg_neg]
      exact ⟨by omega, by omega, fun h => absurd h (by omega), fun _ => scalingNeg_range h1 hn⟩
    · have hn : exp.toNat - 1077 ≤ 969 := by
        have := hin.2.1
        omega
      rw [scalingOf_exponent2_pos hexp, exponent2_pos hexp]
      exact ⟨by omega, by omega, fun _ => scalingPos_range hn, fun h => absurd h (by omega)⟩

/-! ### Where the table entry is exact (R183) -/

/-- The value of an input is `mv * 2^e2` (R171, R173). -/
theorem inputValue_eq_mv {mant : U64} {exp : Word32} (h : FiniteNonZero mant exp) :
    inputValue mant.toNat exp.toNat = mvOf mant.toNat exp.toNat * 2 ^ exponent2 exp.toNat := by
  have hfour (e : Int) : (2 : ℚ) ^ (e + 2) = 4 * 2 ^ e := by
    rw [zpow_add₀ (by norm_num), mul_comm]
    norm_num
  have hcast (m : Nat) : ((4 * m : Nat) : ℚ) = 4 * m := by
    push_cast
    rfl
  rw [mvOf, mantissa2_eq_ite h, inputValue, exponent2]
  simp only [Config.bias, Config.mantissaBits]
  split
  · rw [show (-1074 : Int) = 1 - (1023 : Nat) - (52 : Nat) - 2 + 2 by norm_num, hfour, mul_left_comm, hcast,
      mul_assoc]
  · rw [show (exp.toNat : Int) - 1075 = exp.toNat - (1023 : Nat) - (52 : Nat) - 2 + 2 by push_cast; ring, hfour,
      mul_left_comm, hcast, mul_assoc]

/-- With `q = 0` the positive branch multiplies by `2^n`. -/
theorem scaled_of_posQ_zero {exp : Nat} (hexp : 1077 ≤ exp) (hn : exp - 1077 ≤ 121) (h : posQ (exp - 1077) = 0)
    (m : Nat) : scaled exp m = m * 2 ^ (exp - 1077) := by
  have hsplit : 2 ^ 121 = 2 ^ (exp - 1077) * 2 ^ (121 - (exp - 1077)) := by
    rw [← pow_add, Nat.add_sub_cancel' hn]
  rw [scaled, scalingOf_exponent2_pos hexp, scalingPos_eq, h, pow5Bits_zero, show pow5InvRom 0 = 2 ^ 121 by decide,
    hsplit, ← Nat.mul_assoc]
  simp

/-- From the exponent 908 on the table index of the negative branch is at most 52. -/
theorem sub_negQ_le_52 {n : Nat} (h1 : 1 ≤ n) (h : n ≤ 169) : n - negQ n ≤ 52 :=
  sub_negQ_le h1 ((Nat.pow_le_pow_right (by omega) h).trans_lt (by norm_num))

/-- With an exact entry the negative branch multiplies by `5^i / 2^q`. -/
theorem scaled_of_exact {exp : Nat} (hexp : exp < 1077) (h : negN exp - negQ (negN exp) ≤ 52) (m : Nat) :
    scaled exp m = m * 5 ^ (negN exp - negQ (negN exp)) / 2 ^ negQ (negN exp) := by
  have hbits := pow5Bits_le_121 h
  rw [scaled, scalingOf_exponent2_neg hexp, scalingNeg_eq]
  dsimp only
  rw [pow5Rom_exact h, ← Nat.mul_assoc, Nat.add_sub_assoc hbits (negQ _), pow_add 2 (negQ _),
    Nat.mul_div_mul_right _ _ (by positivity)]

/-- Units of `10^(q-n)` of a multiple of `2^-n`, for `n = q + i`. -/
theorem quotient_by_power (m q i : Nat) :
    (m : ℚ) * 2 ^ (-((q + i : Nat) : Int)) / 10 ^ ((q : Int) - (q + i : Nat)) =
      (m * 5 ^ i : Nat) / (2 ^ q : Nat) := by
  have hten : (10 : ℚ) ^ i = 2 ^ i * 5 ^ i := by
    rw [← mul_pow]
    norm_num
  rw [show (q : Int) - (q + i : Nat) = -(i : Int) by push_cast; ring, zpow_neg, zpow_neg, zpow_natCast,
    zpow_natCast, hten, pow_add]
  push_cast
  field_simp

/-- Settles O30: the entry is exact there, so the scaled `mv` is the floor of the value in units of `10^e10`. -/
theorem intervalFloorsTheValueExactly : Obligations.IntervalFloorsTheValueExactly := by
  intro mant exp s hs hin hlow hhigh
  refine ⟨_, exec_interval_inside hin hs, ?_⟩
  obtain ⟨hrlow, hrhigh⟩ := interval_e10_range (mant := mant.toNat) hin.2.1
  have hvr := interval_vr hin
  simp only [writeResults_v0, writeResults_re]
  rw [toNat_zext64 (hvr.2.trans (by norm_num)), toInt_sext32 (by omega) (by omega), hvr.1, inputValue_eq_mv hin,
    interval_e10]
  rcases Nat.lt_or_ge exp.toNat 1077 with hexp | hexp
  · obtain ⟨h1, -⟩ := negN_bounds hexp
    have hn : negN exp.toNat ≤ 169 := by
      rw [negN, if_neg (by omega)]
      omega
    have hindex := sub_negQ_le_52 h1 hn
    have hsum : negN exp.toNat = negQ (negN exp.toNat) + (negN exp.toNat - negQ (negN exp.toNat)) :=
      (Nat.add_sub_cancel' (negQ_cases h1).1.le).symm
    have hquotient := quotient_by_power (mvOf mant.toNat exp.toNat) (negQ (negN exp.toNat))
      (negN exp.toNat - negQ (negN exp.toNat))
    rw [← hsum] at hquotient
    rw [scaled_of_exact hexp hindex, scalingOf_exponent2_neg hexp, exponent2_neg hexp, scalingNeg_eq, hquotient,
      Rat.floor_natCast_div_natCast, Int.natCast_ediv]
  · have hq : posQ (exp.toNat - 1077) = 0 :=
      Nat.le_zero.1 (posQ_le ((Nat.pow_le_pow_right (by omega) (show _ ≤ 6 by omega)).trans_lt (by norm_num)))
    rw [scaled_of_posQ_zero hexp (by omega) hq, scalingOf_exponent2_pos hexp, exponent2_pos hexp, scalingPos_eq, hq]
    simp only [Nat.cast_zero, zpow_zero, div_one, zpow_natCast]
    rw [← Int.floor_natCast (R := ℚ)]
    push_cast
    rfl

end Sys2Proof.Machine
end

section
/-! SUPPORT. Step 4 on what Step 3 hands to it (43_shortest.md R185 to R199), its end on an exact integer
(42_exact_int.md R163), and the statements this settles. -/

namespace Sys2Proof.Machine

/-! ### The fault of the general path (R188) -/

/-- With `vm_tz` set and `vm = 0` the flag outlives the first loop, for 0 has no other digit to remove. -/
theorem generalLoops_nontermination {vp : Nat} (vr : Nat) (vrTz : Bool) (hvp : vp < 2 ^ 64) :
    generalLoops vr vp 0 vrTz true = .error .nontermination := by
  obtain ⟨r, -, hspec⟩ := generalLoop_spec 20 (generalStart vr vp 0 vrTz true) (hvp.trans (by norm_num))
  unfold generalStart at hspec
  simp [generalLoops, hspec]

/-- A fault of the path is the fault of Step 4. -/
theorem shortest_of_path_error {iv : IntervalResult} {c : Cause} (hp : pathOf iv = .error c) :
    shortest iv = .error c := by
  rw [pathOf] at hp
  rw [shortest, hp]

/-- Settles O31: the fault of the second loop is the fault of the path and of Step 4. -/
theorem shortestFaultsInsteadOfLooping : Obligations.ShortestFaultsInsteadOfLooping := by
  intro vr vp e10 acc vrtz s hs
  have hpath : pathOf (shortestOperands vr vp 0 e10 acc vrtz true) = .error .nontermination := by
    refine (if_pos (Bool.or_true vrtz)).trans ?_
    rw [generalPath]
    simp [generalLoops_nontermination vr.toNat vrtz vp.isLt]
  rw [exec_shortest, shortest_of_path_error hpath]
  exact finish_faults hs rfl

/-! ### The ranges of what the full search finds (R197, R199, R205) -/

/-- A number below `10^19` is left after at most eighteen removals. -/
theorem le_18_of_pow_le {v r : Nat} (hv : v < 10 ^ 19) (h : 10 ^ r ≤ v) : r ≤ 18 := by
  have := (Nat.pow_lt_pow_iff_right (by omega)).1 (h.trans_lt hv)
  omega

theorem FirstCollapse.le_18 {vp vm r : Nat} (h : FirstCollapse vp vm r) (hvp : vp < 10 ^ 19) : r ≤ 18 := by
  cases r with
  | zero => omega
  | succ r =>
    have hpos : 0 < vp / 10 ^ (r + 1) := (h.2 r (Nat.lt_succ_self r)).pos
    exact le_18_of_pow_le hvp (Nat.div_pos_iff.1 hpos).2

/-- Both loops together remove at most eighteen digits of an interval below `10^19`. -/
theorem GeneralCounts.le_18 {vp vm r1 r : Nat} {vmTz : Bool} (h : GeneralCounts vp vm vmTz r1 r)
    (hvp : vp < 10 ^ 19) (hvm : vm < 10 ^ 19) (hpos : 0 < vm) : r ≤ 18 := by
  by_cases hlow : vmTz = true ∧ 10 ^ r1 ∣ vm
  · obtain ⟨-, hdvd, -⟩ := h.low hlow
    exact le_18_of_pow_le hvm (Nat.le_of_dvd hpos hdvd)
  · exact h.high hlow ▸ h.collapse.le_18 hvp

/-- Either path removes at most eighteen digits of such an interval. -/
theorem pathOf_removed_le {iv : IntervalResult} {p : PathResult} (h : iv.InRange) (hvp : iv.vp < 10 ^ 19)
    (hvm : iv.vm < 10 ^ 19) (hp : pathOf iv = .ok p) : p.removed ≤ 18 := by
  unfold pathOf at hp
  split at hp
  case isTrue =>
    obtain ⟨r1, r, hcounts, hpath⟩ := generalPath_spec iv.vr iv.accept iv.vrTz (vmTz := iv.vmTz) h.vp h.vm
      fun hz => h.pos.ne' hz.2
    cases hp.symm.trans hpath
    exact hcounts.le_18 hvp hvm h.pos
  case isFalse =>
    obtain ⟨r, hr, hpath⟩ := commonPath_spec iv.vr iv.vm h.vp
    cases hp
    rw [hpath]
    exact hr.le_18 hvp

/-- What the full search finds on the domain: at most seventeen digits, after at most eighteen removals. -/
theorem f2d_bounds {mant : U64} {exp : Word32} (h : FiniteNonZero mant exp) :
    ∃ r, f2d mant.toNat exp.toNat = .ok r ∧ 1 ≤ r.m ∧ r.m < 10 ^ 17 ∧ r.removed ≤ 18 ∧
      -325 ≤ r.e ∧ r.e ≤ 308 := by
  obtain ⟨p, r, hpath, hr, -, hpos, hout⟩ :=
    pathOf_bounds (interval_inRange h) (interval_vr h).2 (interval_vm_le_vr h)
  obtain ⟨-, hmr, hrp, hvp⟩ := interval_order h
  have hremoved := pathOf_removed_le (interval_inRange h) (by omega) (by omega) hpath
  obtain ⟨hlow, hhigh⟩ := interval_e10_range (mant := mant.toNat) h.2.1
  refine ⟨_, (shortest_of_path hpath).trans (if_pos ((fitsI32_iff _).2 (by omega))), hpos,
    hout.trans_lt (interval_digits_lt h hr), hremoved, ?_, ?_⟩ <;> dsimp only <;> omega

/-! ### The digits of an exact integer (R163) -/

/-- An interval around `vr = m * 10^r`, with `m` of no trailing zero, that reaches less than `10^r` to either
side. -/
structure AroundInteger (vr vp vm m r : Nat) : Prop where
  vr_eq : vr = m * 10 ^ r
  last  : m % 10 ≠ 0
  below : vm < vr
  above : vr ≤ vp
  low   : vr < vm + 10 ^ r
  high  : vp < vr + 10 ^ r

section Around
variable {vr vp vm m r : Nat} (h : AroundInteger vr vp vm m r)
include h

/-- Below `vr` there is one unit less of `10^r`. -/
theorem AroundInteger.vm_div : vm / 10 ^ r + 1 = m := by
  obtain ⟨hvr, hlast, hbelow, -, hlow, -⟩ := h
  obtain ⟨k, rfl⟩ : ∃ k, m = k + 1 := ⟨m - 1, by omega⟩
  rw [Nat.add_mul] at hvr
  rw [Nat.div_eq_of_lt_le (k := k) (by omega) (by rw [Nat.add_mul]; omega)]

theorem AroundInteger.vp_div : vp / 10 ^ r = m := by
  obtain ⟨hvr, -, -, habove, -, hhigh⟩ := h
  exact Nat.div_eq_of_lt_le (by omega) (by rw [Nat.add_mul]; omega)

/-- The ends collapse at `r`: up to there `vr` separates them, and one digit on it does not. -/
theorem AroundInteger.firstCollapse : FirstCollapse vp vm r := by
  have hvm := h.vm_div
  have hvp := h.vp_div
  obtain ⟨hvr, hlast, hbelow, habove, -, -⟩ := h
  constructor
  · rw [div_pow_add, div_pow_add, pow_one]
    omega
  · intro j hj
    obtain ⟨c, hc⟩ : 10 ^ (j + 1) ∣ vr := hvr ▸ dvd_mul_of_dvd_right (pow_dvd_pow 10 hj) m
    calc vm / 10 ^ (j + 1) < c := Nat.div_lt_of_lt_mul (hc ▸ hbelow)
      _ ≤ vp / 10 ^ (j + 1) := (Nat.le_div_iff_mul_le (by positivity)).2 (by rw [Nat.mul_comm, ← hc]; exact habove)

/-- The lower end lies between two multiples of `10^r`. -/
theorem AroundInteger.not_dvd_vm : ¬ 10 ^ r ∣ vm := by
  intro hdvd
  have hvm := h.vm_div
  have hmul := Nat.div_mul_cancel hdvd
  obtain ⟨hvr, -, -, -, hlow, -⟩ := h
  rw [← hvm, Nat.add_mul, hmul] at hvr
  omega

/-- The last digit removed from `vr` is 0. -/
theorem AroundInteger.lastRemoved_eq : lastRemoved vr r = 0 := by
  cases r with
  | zero => rfl
  | succ r =>
    rw [lastRemoved, if_neg (Nat.succ_ne_zero r), h.vr_eq, pow_succ', ← Nat.mul_assoc, Nat.add_sub_cancel,
      Nat.mul_div_cancel _ (by positivity), Nat.mul_mod_left]

/-- The general path ends with `m`: it removes `r` digits, all of them 0, and rounds down. -/
theorem AroundInteger.generalPath_eq (accept vrTz vmTz : Bool) (hvp : vp < 2 ^ 64) (hpos : 0 < vm) :
    generalPath vr vp vm accept vrTz vmTz = .ok { out := m, removed := r } := by
  have hvm : vm < 2 ^ 64 := (h.below.trans_le h.above).trans hvp
  obtain ⟨r1, r', ⟨hcollapse, -, -, hhigh⟩, hpath⟩ :=
    generalPath_spec vr accept vrTz (vmTz := vmTz) hvp hvm fun hz => hpos.ne' hz.2
  obtain rfl : r1 = r := firstCollapse_unique hcollapse h.firstCollapse
  have hlow : ¬ (vmTz = true ∧ 10 ^ r1 ∣ vm) := fun hz => h.not_dvd_vm hz.2
  obtain rfl : r' = r1 := hhigh hlow
  have hdigits : vr / 10 ^ r' = m := by
    rw [h.vr_eq, Nat.mul_div_cancel _ (by positivity)]
  have hdown : ¬ GeneralRoundsUp vr vm accept vrTz (vmTz = true ∧ 10 ^ r' ∣ vm) r' := by
    have hdiv := h.vm_div
    rintro (⟨heq, -⟩ | ⟨h5, -⟩)
    · omega
    · rw [h.lastRemoved_eq] at h5
      omega
  rw [hpath, decide_eq_false hdown, hdigits]
  rfl

end Around

/-! ### The interval of an exact integer -/

/-- The scaling of the negative branch around a multiple of `2^n`, for `n = q + i`: the middle is exact, and the
ends, at most 2 away before the scaling, are less than `10^i` away after it. -/
theorem scaled_around {N q i mm : Nat} (hi : 1 ≤ i) (hn : 2 ≤ q + i) (hmm : N * 2 ^ (q + i) ≤ mm + 2) :
    N * 2 ^ (q + i) * 5 ^ i / 2 ^ q = N * 10 ^ i ∧ N * 10 ^ i < mm * 5 ^ i / 2 ^ q + 10 ^ i ∧
      (N * 2 ^ (q + i) + 2) * 5 ^ i / 2 ^ q < N * 10 ^ i + 10 ^ i := by
  have hQ : 0 < 2 ^ q := by positivity
  have hten : 2 ^ (q + i) * 5 ^ i = 10 ^ i * 2 ^ q := by
    rw [pow_add, Nat.mul_assoc, ← Nat.mul_pow, Nat.mul_comm]
  have hscaled : N * 2 ^ (q + i) * 5 ^ i = N * 10 ^ i * 2 ^ q := by
    rw [Nat.mul_assoc, hten, Nat.mul_assoc]
  -- two units before the scaling, and one after it, are less than `10^i`
  have hroom : 2 * 5 ^ i + 2 ^ q ≤ 10 ^ i * 2 ^ q := by
    have hfour : 2 ^ 2 * 5 ^ i ≤ 2 ^ (q + i) * 5 ^ i :=
      Nat.mul_le_mul_right _ (Nat.pow_le_pow_right (by omega) hn)
    have htwo : 2 ^ (q + 1) * 1 ≤ 2 ^ (q + i) * 5 ^ i :=
      Nat.mul_le_mul (Nat.pow_le_pow_right (by omega) (by omega)) (Nat.one_le_pow _ _ (by omega))
    rw [pow_succ] at htwo
    omega
  refine ⟨by rw [hscaled, Nat.mul_div_cancel _ hQ], ?_, ?_⟩
  · have hfloor := Nat.lt_div_mul_add hQ (a := mm * 5 ^ i)
    have hle := Nat.mul_le_mul_right (5 ^ i) hmm
    rw [hscaled, Nat.add_mul] at hle
    refine Nat.lt_of_mul_lt_mul_right (a := 2 ^ q) ?_
    rw [Nat.add_mul]
    omega
  · rw [Nat.div_lt_iff_lt_mul hQ, Nat.add_mul, Nat.add_mul, hscaled]
    omega

/-- The fields of an integer below `2^53` (R160): the significand is `N` shifted left. -/
theorem exactInteger_fields {mant : U64} {exp : Word32} {N : Nat} (h : FiniteNonZero mant exp)
    (hexp : exp.toNat ≤ 1075) (hN : N * 2 ^ (1075 - exp.toNat) = 2 ^ 52 + mant.toNat) :
    mvOf mant.toNat exp.toNat = N * 2 ^ negN exp.toNat ∧ 2 ≤ negN exp.toNat ∧ negN exp.toNat ≤ 54 := by
  obtain ⟨h1, -⟩ := exactInteger_bounds h.1 hN
  have hpow : 2 ^ (1075 - exp.toNat) < 2 ^ 53 := by
    calc 2 ^ (1075 - exp.toNat) ≤ N * 2 ^ (1075 - exp.toNat) := Nat.le_mul_of_pos_left _ h1
      _ = 2 ^ 52 + mant.toNat := hN
      _ < 2 ^ 53 := by have := h.1; omega
  have hshift := exponent_lt_of_pow_lt hpow
  have hn : negN exp.toNat = 1075 - exp.toNat + 2 := by
    rw [negN, if_neg (by omega)]
    omega
  refine ⟨?_, by omega, by omega⟩
  rw [mvOf_normal h (by omega), hn, pow_add, ← Nat.mul_assoc, hN]
  omega

/-- The lower end stays below the middle: no scale is below 1. -/
theorem interval_vm_lt_vr {mant : U64} {exp : Word32} (h : FiniteNonZero mant exp) :
    (interval mant.toNat exp.toNat).vm < (interval mant.toNat exp.toNat).vr := by
  have hmv := (mvOf_bounds h).1
  have hstep : mmOf mant.toNat exp.toNat + 1 ≤ mvOf mant.toNat exp.toNat := by
    unfold mmOf
    omega
  rw [(interval_vr h).1, interval_vm h]
  exact (scaled_add_le (scalingOf_ok _) _ 1).trans (Nat.div_le_div_right (Nat.mul_le_mul_right _ hstep))

/-- The digits of an integer below `2^53` stand in the middle of its interval, with `i` and `d` zeros behind
them: those of the scale and its own. -/
theorem interval_around {mant : U64} {exp : Word32} {N m d : Nat} (h : FiniteNonZero mant exp)
    (hexp : exp.toNat ≤ 1075) (hN : N * 2 ^ (1075 - exp.toNat) = 2 ^ 52 + mant.toNat) (hm : m * 10 ^ d = N)
    (hlast : m % 10 ≠ 0) :
    AroundInteger (interval mant.toNat exp.toNat).vr (interval mant.toNat exp.toNat).vp
      (interval mant.toNat exp.toNat).vm m (negN exp.toNat - negQ (negN exp.toNat) + d) := by
  obtain ⟨hmv, hn2, hn⟩ := exactInteger_fields h hexp hN
  have hneg : exp.toNat < 1077 := by omega
  have hq := (negQ_cases (n := negN exp.toNat) (by omega)).1
  have hindex := sub_negQ_le_52 (n := negN exp.toNat) (by omega) (by omega)
  have hvr := (interval_vr h).1
  have hvm := interval_vm h
  have hvp := (interval_vp h).trans_le (Nat.sub_le ..)
  have hbelow := interval_vm_lt_vr h
  have habove := (interval_order h).2.2.1.le
  have hends : mvOf mant.toNat exp.toNat ≤ mmOf mant.toNat exp.toNat + 2 := by
    have := mmShift_le mant.toNat exp.toNat
    unfold mmOf
    omega
  rw [scaled_of_exact hneg hindex] at hvr hvm hvp
  obtain ⟨i, hi⟩ : ∃ i, negN exp.toNat - negQ (negN exp.toNat) = i := ⟨_, rfl⟩
  have hsum : negN exp.toNat = negQ (negN exp.toNat) + i := by omega
  rw [hmv, hi] at hvr hvp
  rw [hi] at hvm ⊢
  rw [hmv] at hends
  obtain ⟨hmid, hlow, hhigh⟩ := scaled_around (q := negQ (negN exp.toNat)) (i := i) (N := N)
    (mm := mmOf mant.toNat exp.toNat) (by omega) (by omega) (by rwa [← hsum])
  rw [← hsum] at hmid hhigh
  have hzeros : 10 ^ i ≤ 10 ^ (i + d) := Nat.pow_le_pow_right (by omega) (Nat.le_add_right i d)
  rw [hmid] at hvr
  rw [← hvm] at hlow
  refine ⟨?_, hlast, hbelow, habove, ?_, ?_⟩
  · rw [hvr, ← hm, pow_add, Nat.mul_assoc, Nat.mul_comm (10 ^ d)]
  · omega
  · omega

/-- Step 3 leaves the flag that chooses the general path: `2^n` divides the middle, and `q < n` (R179). -/
theorem trailingZeros_exactInteger {mant : U64} {exp : Word32} {N : Nat} (h : FiniteNonZero mant exp)
    (hexp : exp.toNat ≤ 1075) (hN : N * 2 ^ (1075 - exp.toNat) = 2 ^ 52 + mant.toNat) :
    (interval mant.toNat exp.toNat).vrTz = true := by
  obtain ⟨hmv, hn2, hn⟩ := exactInteger_fields h hexp hN
  have hq := (negQ_cases (n := negN exp.toNat) (by omega)).1
  have hrules := (trailingZerosOf_neg (mant := mant.toNat) (exp := exp.toNat) (by omega)).trans (trailingZerosNeg_eq ..)
  refine (congrArg TrailingZeros.vrTz hrules).trans (decide_eq_true (.inr ⟨by omega, ?_⟩))
  rw [hmv]
  exact dvd_mul_of_dvd_right (pow_dvd_pow 2 (by omega)) N

/-- On an integer below `2^53` the full search gives its digits without trailing zeros (R163). -/
theorem f2d_exactInteger {mant : U64} {exp : Word32} {N m d : Nat} (h : FiniteNonZero mant exp)
    (hexp : exp.toNat ≤ 1075) (hN : N * 2 ^ (1075 - exp.toNat) = 2 ^ 52 + mant.toNat) (hm : m * 10 ^ d = N)
    (hlast : m % 10 ≠ 0) :
    f2d mant.toNat exp.toNat =
      .ok { m := m, e := d, removed := negN exp.toNat - negQ (negN exp.toNat) + d, general := true } := by
  have hrange := interval_inRange h
  have hflag := trailingZeros_exactInteger h hexp hN
  have hpath : pathOf (interval mant.toNat exp.toNat) =
      .ok { out := m, removed := negN exp.toNat - negQ (negN exp.toNat) + d } := by
    rw [pathOf, hflag, Bool.true_or, if_pos rfl]
    exact (interval_around h hexp hN hm hlast).generalPath_eq _ _ _ hrange.vp hrange.pos
  obtain ⟨-, hmr, hrp, hvp⟩ := interval_order h
  have hremoved := pathOf_removed_le hrange (by omega) (by omega) hpath
  have hneg : exp.toNat < 1077 := by omega
  have hq := (negQ_cases (negN_bounds hneg).1).1
  have hexponent : (interval mant.toNat exp.toNat).e10 + (negN exp.toNat - negQ (negN exp.toNat) + d : Nat) = d := by
    rw [interval_e10, scalingOf_exponent2_neg hneg, scalingNeg_eq]
    dsimp only
    omega
  rw [f2d, shortest_of_path hpath, hexponent, hflag, if_pos ((fitsI32_iff _).2 (by dsimp only at hremoved; omega))]
  rfl

/-- Where the fast path finds a pair, the full search finds the same (R163). -/
theorem f2d_of_exactInt {mant : U64} {exp : Word32} {m d : Nat} (h : FiniteNonZero mant exp)
    (hexact : exactInt mant.toNat exp.toNat = some (m, d)) :
    ∃ r, f2d mant.toNat exp.toNat = .ok r ∧ r.m = m ∧ r.e = d := by
  obtain ⟨N, ⟨hexp, hN⟩, hstrip⟩ := (exactInt_eq_some_iff h.1).1 hexact
  obtain ⟨h1, hlt⟩ := exactInteger_bounds h.1 hN
  obtain ⟨-, hm, hlast⟩ := stripZeros_spec 20 N 0 (by omega) (hlt.trans (by norm_num))
  simp only [hstrip, Nat.sub_zero] at hm hlast
  exact ⟨_, f2d_exactInteger h hexp hN hm hlast, rfl, rfl⟩

/-- The pipeline's pair is that of the full search, on either of its ways. -/
theorem conversion_pair {mant : U64} {exp : Word32} (h : FiniteNonZero mant exp) :
    ∃ c r, conversion mant.toNat exp.toNat = .ok c ∧ f2d mant.toNat exp.toNat = .ok r ∧
      c.m = r.m ∧ c.e = r.e := by
  cases hexact : exactInt mant.toNat exp.toNat with
  | some p =>
    obtain ⟨r, hr, hm, he⟩ := f2d_of_exactInt h hexact
    exact ⟨_, r, conversion_exact hexact, hr, hm.symm, he.symm⟩
  | none =>
    obtain ⟨r, hr, -⟩ := f2d_formattable h
    exact ⟨_, r, conversion_full hexact hr, hr, rfl, rfl⟩

/-- `EXACTINT` completes, and what it reports as exact is the pair of the full search. -/
theorem exec_exactint_agrees {mant : U64} {exp : Word32} {s : State} {r : ShortestResult} (h : FiniteNonZero mant exp)
    (hs : s.mode = .ready) (hr : f2d mant.toNat exp.toNat = .ok r) :
    ∃ a, exec (.exactint mant exp) s = .next a ∧
      (a.rf.exact = true → a.v0 = zext64 r.m ∧ a.re = sext32 r.e) := by
  cases hexact : exactInt mant.toNat exp.toNat with
  | none => exact ⟨_, exec_exactint_none h hs hexact, fun hflag => Bool.noConfusion hflag⟩
  | some p =>
    obtain ⟨r', hr', hm, he⟩ := f2d_of_exactInt h hexact
    cases hr.symm.trans hr'
    refine ⟨_, exec_exactint_some h hs hexact, fun _ => ⟨?_, ?_⟩⟩
    · rw [hm]
      rfl
    · rw [he]
      rfl

/-! ### The statements about the full search -/

/-- Settles O35; 1.0 is the integer 1, found after the eighteen zeros of its scale. -/
theorem f2dGivesSeventeenDigits : Obligations.F2dGivesSeventeenDigits := by
  refine ⟨fun mant exp s hs hin => ?_, fun s hs => ?_⟩
  · obtain ⟨r, hr, hpos, hlt, hremoved, hlow, hhigh⟩ := f2d_bounds hin
    refine ⟨_, exec_f2d_ok hin hs hr, rfl, ?_⟩
    simp only [writeResults_v0, writeResults_v1, writeResults_re]
    rw [toNat_zext64 (by omega), toNat_zext64 (by omega), toInt_sext32 (by omega) (by omega)]
    exact ⟨hpos, hlt, hremoved, hlow, hhigh⟩
  · have hone : FiniteNonZero 0 1023 := by decide
    have hf2d := f2d_exactInteger hone (N := 1) (m := 1) (d := 0) (by decide) (by decide) (by decide) (by decide)
    exact ⟨_, exec_f2d_ok hone hs hf2d, rfl, rfl, rfl⟩

/-- Settles O36: `FMT` and `CONVERT` format the same pair. -/
theorem exactPathAgreesWithTheFullSearch : Obligations.ExactPathAgreesWithTheFullSearch := by
  intro mant exp neg s hs hin
  obtain ⟨c, r, hc, hr, hm, he⟩ := conversion_pair hin
  obtain ⟨r', hr', hform⟩ := f2d_formattable hin
  cases hr.symm.trans hr'
  obtain ⟨a, ha, hagrees⟩ := exec_exactint_agrees hin hs hr
  refine ⟨a, _, _, _, ha, exec_f2d_ok hin hs hr, exec_fmt_registers neg hform hs, exec_convert_ok hin hs neg hc,
    hagrees, rfl, rfl, ?_⟩
  simp only [writeResults_v0, writeResults_re, writeResults_ob, writeResults_oblen, hm, he, and_self]

end Sys2Proof.Machine
end

section
/-! SUPPORT. The formatter's bytes in closed form, their number and alphabet, and that they name the pair and the
sign (44_format.md R210 to R223), with the statements about `FMT` this settles. -/

namespace Sys2Proof.Machine

/-! ### The bytes in closed form (R212) -/

/-- The digits of `m` as bytes, the most significant first. -/
abbrev digitBytes (m : Nat) : List Byte := (Nat.digits 10 m).reverse.map digitByte

theorem digitBytes_length (m : Nat) : (digitBytes m).length = (Nat.digits 10 m).length := by
  rw [List.length_map, List.length_reverse]

theorem digitBytes_ne_nil {m : Nat} (h0 : m ≠ 0) : digitBytes m ≠ [] := by
  simpa using Nat.digits_ne_nil_iff_ne_zero.2 h0

/-- The digits with a point after the first if there are two or more (R213). -/
theorem mantissaBytes_eq {m : Nat} (h0 : m ≠ 0) (h : m < 2 ^ 64) : mantissaBytes m =
    if (digitBytes m).length = 1 then digitBytes m
    else (digitBytes m).take 1 ++ [dotByte] ++ (digitBytes m).drop 1 := by
  have hne := digitBytes_ne_nil h0
  rw [mantissaBytes, decDigits_eq h0 h]
  change (match digitBytes m with | [] => [] | [c] => [c] | c :: rest => c :: dotByte :: rest) = _
  match digitBytes m, hne with
  | [_], _ => rfl
  | _ :: _ :: _, _ => rfl

/-- The shown exponent, with Mathlib's digits. -/
theorem shownExponent_eq {m : Nat} (h0 : m ≠ 0) (h : m < 2 ^ 64) (e : Int) :
    shownExponent m e = e + (Nat.digits 10 m).length - 1 := by
  rw [shownExponent, decimalLength_eq h0 h]

theorem exec_fmt (m : U64) (e : Word32) (neg : Bool) (s : State) :
    exec (.fmt m e neg) s = finish 0x40 (fmtResult m.toNat e.toInt neg) s :=
  s32_eq_toInt e ▸ rfl

theorem fmtResult_mantRange {m : Nat} (h : m = 0 ∨ 10 ^ 17 ≤ m) (e : Int) (neg : Bool) :
    fmtResult m e neg = .error .mantRange :=
  if_pos h

theorem fmtResult_expRange {m : Nat} {e : Int} (h0 : m ≠ 0) (h : m < 10 ^ 17) (hx : 999 < (shownExponent m e).natAbs)
    (neg : Bool) : fmtResult m e neg = .error .expRange :=
  (if_neg (not_or.2 ⟨h0, Nat.not_le.2 h⟩)).trans (if_pos hx)

/-- Settles O37: the checks in their order, and then the closed form of the bytes. -/
theorem fmtWritesScientificNotation : Obligations.FmtWritesScientificNotation := by
  refine ⟨selects_opcode .fmt, fun m e neg s hs => ?_⟩
  dsimp only
  rw [exec_fmt]
  have hx (h0 : m ≠ 0) : shownExponent m.toNat e.toInt = e.toInt + (digitBytes m.toNat).length - 1 := by
    rw [shownExponent_eq (BitVec.toNat_ne_iff_ne.2 h0) m.isLt, digitBytes_length]
  refine ⟨fun hm => ?_, fun h0 hlt hexp => ?_, fun h0 hlt hexp => ?_⟩
  · refine finish_faults hs (fmtResult_mantRange (hm.imp_left fun h0 => ?_) _ _)
    rw [h0]
    rfl
  · exact finish_faults hs (fmtResult_expRange (BitVec.toNat_ne_iff_ne.2 h0) hlt (by rwa [hx h0]) neg)
  · have hnat : m.toNat ≠ 0 := BitVec.toNat_ne_iff_ne.2 h0
    have hform : Formattable m.toNat e.toInt := ⟨Nat.one_le_iff_ne_zero.2 hnat, hlt, by rwa [hx h0]⟩
    have hlen := fmt_length_le hlt e.toInt neg
    obtain ⟨t, ht, hres⟩ := finish_completes (op := 0x40) hs (fmtResult_ok neg hform) (by dsimp only; omega)
    refine ⟨t, ht, ?_⟩
    rw [fmt, mantissaBytes_eq hnat m.isLt, hx h0] at hres
    rw [List.append_assoc _ [_, _]]
    exact hres

/-! ### The length and the alphabet (R215, R216) -/

/-- The byte is the code of a decimal digit. -/
abbrev IsDigitByte (b : Byte) : Prop := 0x30 ≤ b.toNat ∧ b.toNat ≤ 0x39

theorem digitByte_toNat {d : Nat} (h : d < 10) : (digitByte d).toNat = 0x30 + d :=
  Nat.mod_eq_of_lt (by omega)

theorem isDigitByte_digitByte {d : Nat} (h : d < 10) : IsDigitByte (digitByte d) := by
  rw [IsDigitByte, digitByte_toNat h]
  omega

theorem isDigitByte_of_mem_digitBytes {m : Nat} {b : Byte} (h : b ∈ digitBytes m) : IsDigitByte b := by
  obtain ⟨d, hd, rfl⟩ := List.mem_map.1 h
  exact isDigitByte_digitByte (Nat.digits_lt_base (by omega) (List.mem_reverse.1 hd))

/-- The magnitude of the exponent, in three digits from 100 on (R214). -/
abbrev magnitudeBytes (k : Nat) : List Byte :=
  if k ≥ 100 then [digitByte (k / 100), digitByte (k / 10 % 10), digitByte (k % 10)]
  else [digitByte (k / 10), digitByte (k % 10)]

/-- The exponent's sign. -/
abbrev exponentSign (x : Int) : Byte := if x < 0 then minusByte else plusByte

theorem exponentBytes_eq (x : Int) :
    exponentBytes x = expByte :: exponentSign x :: magnitudeBytes x.natAbs := rfl

theorem magnitudeBytes_length (k : Nat) : (magnitudeBytes k).length = if 100 ≤ k then 3 else 2 := by
  unfold magnitudeBytes
  split <;> rfl

theorem isDigitByte_of_mem_magnitudeBytes {k : Nat} (hk : k ≤ 999) {b : Byte} (h : b ∈ magnitudeBytes k) :
    IsDigitByte b := by
  unfold magnitudeBytes at h
  split at h <;> simp only [List.mem_cons, List.not_mem_nil, or_false] at h
  · rcases h with rfl | rfl | rfl <;> exact isDigitByte_digitByte (by omega)
  · rcases h with rfl | rfl <;> exact isDigitByte_digitByte (by omega)

theorem signBytes_length (neg : Bool) : (signBytes neg).length = neg.toNat := by
  cases neg <;> rfl

theorem mantissaBytes_length {m : Nat} (h0 : m ≠ 0) (h : m < 2 ^ 64) :
    (mantissaBytes m).length = (Nat.digits 10 m).length + if 2 ≤ (Nat.digits 10 m).length then 1 else 0 := by
  have hpos : 0 < (digitBytes m).length := List.length_pos_iff.2 (digitBytes_ne_nil h0)
  rw [mantissaBytes_eq h0 h, ← digitBytes_length]
  split
  case isTrue h1 => rw [if_neg (by omega), Nat.add_zero]
  case isFalse h1 =>
    rw [if_pos (by omega)]
    simp only [List.length_append, List.length_take, List.length_drop, List.length_singleton]
    omega

theorem mem_mantissaBytes {m : Nat} (h0 : m ≠ 0) (h : m < 2 ^ 64) {b : Byte} (hb : b ∈ mantissaBytes m) :
    b ∈ digitBytes m ∨ b = dotByte := by
  rw [mantissaBytes_eq h0 h] at hb
  split at hb
  · exact .inl hb
  · simp only [List.mem_append, List.mem_singleton] at hb
    rcases hb with (hb | hb) | hb
    · exact .inl (List.mem_of_mem_take hb)
    · exact .inr hb
    · exact .inl (List.mem_of_mem_drop hb)

/-- The length of the output (R215). -/
theorem fmt_length {m : Nat} (h0 : m ≠ 0) (h : m < 2 ^ 64) (e : Int) (neg : Bool) :
    (fmt m e neg).length = neg.toNat + (Nat.digits 10 m).length +
      (if 2 ≤ (Nat.digits 10 m).length then 1 else 0) + 2 + if 100 ≤ (shownExponent m e).natAbs then 3 else 2 := by
  rw [fmt, exponentBytes_eq, List.length_append, List.length_append, signBytes_length, mantissaBytes_length h0 h,
    List.length_cons, List.length_cons, magnitudeBytes_length]
  omega

/-- The alphabet of the output (R216). -/
theorem mem_fmt {m : Nat} {e : Int} {neg : Bool} (h : Formattable m e) {b : Byte} (hb : b ∈ fmt m e neg) :
    IsDigitByte b ∨ b = dotByte ∨ b = plusByte ∨ b = minusByte ∨ b = expByte := by
  obtain ⟨hpos, hlt, hexp⟩ := h
  rw [fmt, exponentBytes_eq, List.mem_append, List.mem_append, List.mem_cons, List.mem_cons] at hb
  rcases hb with (hsign | hmantissa) | he | hx | hmagnitude
  · cases neg
    · cases hsign
    · exact .inr (.inr (.inr (.inl (List.mem_singleton.1 hsign))))
  · rcases mem_mantissaBytes (by omega) (by omega) hmantissa with hd | hdot
    · exact .inl (isDigitByte_of_mem_digitBytes hd)
    · exact .inr (.inl hdot)
  · exact .inr (.inr (.inr (.inr he)))
  · rw [exponentSign] at hx
    split at hx
    · exact .inr (.inr (.inr (.inl hx)))
    · exact .inr (.inr (.inl hx))
  · exact .inl (isDigitByte_of_mem_magnitudeBytes hexp hmagnitude)

theorem exec_fmt_ok {m : U64} {e : Word32} (neg : Bool) {s : State} (h : Formattable m.toNat e.toInt)
    (hs : s.mode = .ready) :
    exec (.fmt m e neg) s = .next (writeResults { bytes := fmt m.toNat e.toInt neg } s) := by
  rw [exec_fmt, fmtResult_ok neg h]
  exact finish_ok hs

/-- Settles O38: the buffer keeps all of the bytes, so their number and alphabet are those of `fmt`. -/
theorem fmtLengthAndAlphabet : Obligations.FmtLengthAndAlphabet := by
  intro m e neg s hs hform
  have h0 : m.toNat ≠ 0 := Nat.one_le_iff_ne_zero.1 hform.1
  have hlen := fmt_length h0 m.isLt e.toInt neg
  have hle := fmt_length_le hform.2.1 e.toInt neg
  have hdigits : 0 < (Nat.digits 10 m.toNat).length :=
    List.length_pos_iff.2 (Nat.digits_ne_nil_iff_ne_zero.2 h0)
  refine ⟨_, exec_fmt_ok neg hform hs, ?_⟩
  rw [formattedTail_writeResults s hle, writeResults_oblen, outputLength_toNat (by dsimp only; omega),
    ← shownExponent_eq h0 m.isLt]
  refine ⟨hlen, ?_, hle, rfl, fun b hb => mem_fmt hform hb⟩
  dsimp only
  split at hlen <;> split at hlen <;> omega

/-! ### The bytes name the pair and the sign (R213, R223) -/

theorem dotByte_not_isDigitByte : ¬ IsDigitByte dotByte := by decide
theorem minusByte_not_isDigitByte : ¬ IsDigitByte minusByte := by decide
theorem expByte_not_isDigitByte : ¬ IsDigitByte expByte := by decide

theorem expByte_notMem_mantissaBytes {m : Nat} (h0 : m ≠ 0) (h : m < 2 ^ 64) : expByte ∉ mantissaBytes m := by
  intro hmem
  rcases mem_mantissaBytes h0 h hmem with hd | hdot
  · exact expByte_not_isDigitByte (isDigitByte_of_mem_digitBytes hd)
  · exact absurd hdot (by decide)

theorem expByte_notMem_exponent {x : Int} (hx : x.natAbs ≤ 999) :
    expByte ∉ exponentSign x :: magnitudeBytes x.natAbs := by
  rw [List.mem_cons, not_or]
  refine ⟨?_, fun hmem => expByte_not_isDigitByte (isDigitByte_of_mem_magnitudeBytes hx hmem)⟩
  unfold exponentSign
  split <;> decide

/-- The first byte of the digits is a digit. -/
theorem mantissaBytes_eq_cons {m : Nat} (h0 : m ≠ 0) (h : m < 2 ^ 64) :
    ∃ b rest, mantissaBytes m = b :: rest ∧ IsDigitByte b := by
  obtain ⟨b, ds, hds⟩ := List.exists_cons_of_ne_nil (digitBytes_ne_nil h0)
  have hb : IsDigitByte b := isDigitByte_of_mem_digitBytes (hds ▸ List.mem_cons_self)
  rw [mantissaBytes_eq h0 h, hds]
  split
  · exact ⟨b, ds, rfl, hb⟩
  · exact ⟨b, dotByte :: ds, rfl, hb⟩

/-- Without the point the mantissa's bytes are its digits. -/
theorem filter_mantissaBytes {m : Nat} (h0 : m ≠ 0) (h : m < 2 ^ 64) :
    (mantissaBytes m).filter (· ≠ dotByte) = digitBytes m := by
  have hkeep : ∀ {l : List Byte}, (∀ b ∈ l, b ∈ digitBytes m) → l.filter (· ≠ dotByte) = l := fun hl =>
    List.filter_eq_self.2 fun b hb => decide_eq_true fun hdot =>
      dotByte_not_isDigitByte (hdot ▸ isDigitByte_of_mem_digitBytes (hl b hb))
  rw [mantissaBytes_eq h0 h]
  split
  · exact hkeep fun _ hb => hb
  · have hdot : [dotByte].filter (· ≠ dotByte) = [] := by decide
    rw [List.filter_append, List.filter_append, hkeep fun _ => List.mem_of_mem_take,
      hkeep fun _ => List.mem_of_mem_drop, hdot, List.append_nil, List.take_append_drop]

/-- The digit is read back from its byte. -/
theorem digitByte_inj {d d' : Nat} (hd : d < 10) (hd' : d' < 10) (h : digitByte d = digitByte d') : d = d' := by
  have htoNat := congrArg BitVec.toNat h
  rw [digitByte_toNat hd, digitByte_toNat hd'] at htoNat
  omega

/-- A number is read back from the bytes of its digits. -/
theorem digitBytes_injective {m m' : Nat} (h : digitBytes m = digitBytes m') : m = m' := by
  have hread (k : Nat) : (digitBytes k).map (fun b => b.toNat - 0x30) = (Nat.digits 10 k).reverse := by
    rw [List.map_map]
    refine (List.map_congr_left fun d hd => ?_).trans (List.map_id _)
    have hlt : d < 10 := Nat.digits_lt_base (by omega) (List.mem_reverse.1 hd)
    simp [digitByte_toNat hlt]
  refine Nat.digits.injective 10 (List.reverse_injective ?_)
  rw [← hread, ← hread, h]

/-- The magnitude of the exponent is read back from its bytes. -/
theorem magnitudeBytes_injective {k k' : Nat} (hk : k ≤ 999) (hk' : k' ≤ 999)
    (h : magnitudeBytes k = magnitudeBytes k') : k = k' := by
  have hlen := congrArg List.length h
  rw [magnitudeBytes_length, magnitudeBytes_length] at hlen
  unfold magnitudeBytes at h
  by_cases hlong : 100 ≤ k
  · have hlong' : 100 ≤ k' := by
      by_contra hshort
      rw [if_pos hlong, if_neg hshort] at hlen
      omega
    rw [if_pos hlong, if_pos hlong'] at h
    simp only [List.cons.injEq, and_true] at h
    obtain ⟨h1, h2, h3⟩ := h
    have := digitByte_inj (by omega) (by omega) h1
    have := digitByte_inj (by omega) (by omega) h2
    have := digitByte_inj (by omega) (by omega) h3
    omega
  · have hshort' : ¬ 100 ≤ k' := by
      intro hlong'
      rw [if_neg hlong, if_pos hlong'] at hlen
      omega
    rw [if_neg hlong, if_neg hshort'] at h
    simp only [List.cons.injEq, and_true] at h
    obtain ⟨h1, h2⟩ := h
    have := digitByte_inj (by omega) (by omega) h1
    have := digitByte_inj (by omega) (by omega) h2
    omega

/-- The sign is read back: without it the first byte is a digit. -/
theorem signBytes_append_inj {neg neg' : Bool} {b b' : Byte} {l l' : List Byte} (hb : IsDigitByte b)
    (hb' : IsDigitByte b') (h : signBytes neg ++ b :: l = signBytes neg' ++ b' :: l') :
    neg = neg' ∧ b :: l = b' :: l' := by
  have noMinus {c : Byte} (hc : IsDigitByte c) : c ≠ minusByte := fun h => minusByte_not_isDigitByte (h ▸ hc)
  cases neg <;> cases neg'
  · exact ⟨rfl, h⟩
  · exact absurd (List.cons.inj h).1 (noMinus hb)
  · exact absurd (List.cons.inj h).1.symm (noMinus hb')
  · exact ⟨rfl, (List.cons.inj h).2⟩

/-- The exponent is read back from its sign and its magnitude. -/
theorem exponent_injective {x x' : Int} (hx : x.natAbs ≤ 999) (hx' : x'.natAbs ≤ 999)
    (h : exponentSign x :: magnitudeBytes x.natAbs = exponentSign x' :: magnitudeBytes x'.natAbs) : x = x' := by
  obtain ⟨hsign, hmagnitude⟩ := List.cons.inj h
  have habs := magnitudeBytes_injective hx hx' hmagnitude
  have hne : minusByte ≠ plusByte := by decide
  have hneg : x < 0 ↔ x' < 0 := by
    unfold exponentSign at hsign
    by_cases h0 : x < 0 <;> by_cases h0' : x' < 0 <;> simp [h0, h0', hne, hne.symm] at hsign ⊢
  omega

/-- On the formatter's domain the bytes name the pair and the sign (R213, R223). -/
theorem fmt_injective {m m' : Nat} {e e' : Int} {neg neg' : Bool} (h : Formattable m e) (h' : Formattable m' e')
    (heq : fmt m e neg = fmt m' e' neg') : m = m' ∧ e = e' ∧ neg = neg' := by
  obtain ⟨hpos, hlt, hx⟩ := h
  obtain ⟨hpos', hlt', hx'⟩ := h'
  have h0 : m ≠ 0 := by omega
  have h0' : m' ≠ 0 := by omega
  have h64 : m < 2 ^ 64 := by omega
  have h64' : m' < 2 ^ 64 := by omega
  obtain ⟨b, l, hb, hdigit⟩ := mantissaBytes_eq_cons h0 h64
  obtain ⟨b', l', hb', hdigit'⟩ := mantissaBytes_eq_cons h0' h64'
  rw [fmt, fmt, List.append_assoc, List.append_assoc, hb, hb', List.cons_append, List.cons_append] at heq
  obtain ⟨hneg, hrest⟩ := signBytes_append_inj hdigit hdigit' heq
  rw [← List.cons_append, ← List.cons_append, ← hb, ← hb', exponentBytes_eq, exponentBytes_eq] at hrest
  obtain ⟨hmantissa, -, hexponent⟩ := (List.append_cons_inj_of_notMem (expByte_notMem_mantissaBytes h0 h64)
    (expByte_notMem_exponent hx)).1 hrest
  obtain rfl : m = m' := by
    apply digitBytes_injective
    rw [← filter_mantissaBytes h0 h64, ← filter_mantissaBytes h0' h64', hmantissa]
  have hshown := exponent_injective hx hx' hexponent
  unfold shownExponent at hshown
  exact ⟨rfl, by omega, hneg⟩

/-- Settles O39: the tail a host reads is the bytes of `fmt`, which is injective. -/
theorem fmtIsInjective : Obligations.FmtIsInjective := by
  intro m m' e e' neg neg' s s' hs hs' hform hform'
  refine ⟨_, _, exec_fmt_ok neg hform hs, exec_fmt_ok neg' hform' hs', fun htail => ?_⟩
  rw [formattedTail_writeResults s (fmt_length_le hform.2.1 _ _),
    formattedTail_writeResults s' (fmt_length_le hform'.2.1 _ _)] at htail
  obtain ⟨hm, he, hneg⟩ := fmt_injective hform hform' htail
  exact ⟨BitVec.eq_of_toNat_eq hm, BitVec.eq_of_toInt_eq he, hneg⟩

end Sys2Proof.Machine
end
